-- ==== Sys2Proof/Word.lean ====
section
/-! DEFINITION. The two widths the spec fixes: 32-bit register and command words, 8-bit bus bytes
(00_scope R7, R8). -/

namespace Sys2Proof

/-- A register value, a register address or a command word: 32 bits, bit 0 least significant (R7, R8). -/
abbrev Word := BitVec 32

/-- A byte sent on the bus or held in string memory (R7). -/
abbrev Byte := BitVec 8

end Sys2Proof
end

