-- ==== Sys2Proof/Config.lean ====
section
/-! DEFINITION. The implementation parameters of 00_scope R5, the free values of the two environment
choices (10_state R59) and the unspecified reset values (10_state R60). -/

namespace Sys2Proof

/-- `I2C_INST`: which I2C instance the block drives (R5). -/
inductive I2cInst where
  | i2c1 | i2c2 | i2c3
  deriving DecidableEq, Repr, Inhabited

/-- `GPIO_PORT`: the bank of the two bus pins, A to H (R5). -/
inductive GpioPort where
  | a | b | c | d | e | f | g | h
  deriving DecidableEq, Repr, Inhabited

/-- `RESET_STYLE`: which reset bit INIT_BUS pulses (R5, R192). -/
inductive ResetStyle where
  | rcc | swrst
  deriving DecidableEq, Repr, Inhabited

/-- The three agents that take steps (10_state R20). -/
inductive Agent where
  | seq | i2cp | stk
  deriving DecidableEq, Repr, Inhabited

/-- The environment's answer to an address or data byte (43_i2c R232). -/
inductive Ack where
  | ack | nack
  deriving DecidableEq, Repr, Inhabited

/-- The parameters of R5 that are not fixed constants. `F_SCL`, `SLAVE_ADDR`, the delays and the LCD
command values are constants of Machine/Operands.lean. -/
structure Config where
  /-- `F_SYS`, the clock in Hz. OPEN. -/
  fSys : Nat
  /-- `I2C_INST`. Decided: instance 1. -/
  i2cInst : I2cInst
  /-- `GPIO_PORT`. OPEN. -/
  gpioPort : GpioPort
  /-- `PIN_SCL`. OPEN. -/
  pinScl : Fin 16
  /-- `PIN_SDA`. OPEN. -/
  pinSda : Fin 16
  /-- `AF_NUM`. OPEN. -/
  afNum : BitVec 4
  /-- `RESET_STYLE`. OPEN. -/
  resetStyle : ResetStyle
  /-- `CURSOR`. OPEN. -/
  cursor : BitVec 1
  /-- `BLINK`. OPEN. -/
  blink : BitVec 1
  /-- `EXP_INIT`. OPEN. -/
  expInit : Byte
  /-- `STRMEM_SIZE`, in bytes. Decided: 65536. -/
  strmemSize : Nat
  /-- `ARM_CLEARS_VAL`. Decided: true. -/
  armClearsVal : Bool
  /-- `RMW_ATOMIC`. Decided: false. -/
  rmwAtomic : Bool
  deriving DecidableEq, Repr, Inhabited

/-- One draw for every piece of state whose reset value is unspecified (10_state R60), and for
`STK.CALIB`, whose value the spec does not give (R39). -/
structure ResetDraws where
  tmp : Word
  shift : Byte
  stkLoad : BitVec 24
  stkVal : BitVec 24
  calib : Word
  moder : Word
  otyper : Word
  ospeedr : Word
  pupdr : Word
  afrl : Word
  afrh : Word
  deriving DecidableEq, Repr, Inhabited

/-- The OPEN parameters of the machine whose reset state is `State.reset`: no body, so no proof can see
a value (R5; log 4). -/
opaque Config.openFSys : Nat
opaque Config.openGpioPort : GpioPort
opaque Config.openPinScl : Fin 16
opaque Config.openPinSda : Fin 16
opaque Config.openAfNum : BitVec 4
opaque Config.openResetStyle : ResetStyle
opaque Config.openCursor : BitVec 1
opaque Config.openBlink : BitVec 1
opaque Config.openExpInit : Byte

/-- The configuration of `State.reset`: the decided values of R5, the OPEN ones left uninterpreted. -/
def Config.board : Config where
  fSys := Config.openFSys
  i2cInst := .i2c1
  gpioPort := Config.openGpioPort
  pinScl := Config.openPinScl
  pinSda := Config.openPinSda
  afNum := Config.openAfNum
  resetStyle := Config.openResetStyle
  cursor := Config.openCursor
  blink := Config.openBlink
  expInit := Config.openExpInit
  strmemSize := 65536
  armClearsVal := true
  rmwAtomic := false

/-- The values a reset draws: free (R60: "A model must not pick a value for any of them"; log 5). -/
opaque Config.resetDraws : ResetDraws

/-- The agent the schedule picks at choice `n` once the state's own list of choices has run out: free
(R145; log 1). -/
opaque Config.freeAgent : Nat → Agent

/-- The answer the environment gives at acknowledge draw `n` once the state's own list of draws has run
out: free (R232; log 3). -/
opaque Config.freeAck : Nat → Ack

end Sys2Proof
end

