-- ==== Sys2Proof/Syntax.lean ====
section
/-! DEFINITION. The ten commands of 30_encoding R109, one constructor per row of opcode_table.json. -/

namespace Sys2Proof

/-- A decoded command word. Operands are the fields of R102 to R107. The delay count and the string
address are naturals (00_scope R7, 40_microops R130), bounded by `Instr.wf`; bytes and bus fields are
bit vectors of their field's width. -/
inductive Instr where
  /-- DELAY, format FD (R102, R160). -/
  | delay (ms : Nat)
  /-- I2CW, format FI (R103, R220). -/
  | i2cw (addr : BitVec 7) (byte : Byte)
  /-- NYB, format FN (R104, R271). -/
  | nyb (nyb : BitVec 4) (rs : BitVec 1)
  /-- CMD, format FB (R105, R272). -/
  | cmd (b : Byte)
  /-- DATA, format FB (R105, R273). -/
  | data (b : Byte)
  /-- INIT_BUS, format FZ (R106, R190). -/
  | initBus
  /-- LCDINIT, format FZ (R106, R310). -/
  | lcdInit
  /-- CLEAR, format FZ (R106, R311). -/
  | clear
  /-- PRINT, format FP (R107, R312). -/
  | print (p : Nat)
  /-- IDLE, format FZ (R106, R313). -/
  | idle
  deriving DecidableEq, Repr, Inhabited

end Sys2Proof
end

