-- ==== Sys2Proof/Machine/State.lean ====
section
/-! DEFINITION. Everything the spec gives the machine, as plain data (10_state), the reasons a step can
stop, and the state after reset (10_state R58, 70_reset R380, R381). -/

namespace Sys2Proof.Machine

/-- Sparse byte memory: (address, byte), addresses strictly rising, no entry equal to `Memory.unlisted`. -/
abbrev Memory := List Host.Cell

/-- The registers that respond in the register space (20_memory R71, R72; 10_state R28 to R48). -/
inductive Reg where
  | i2cCr1 | i2cCr2 | i2cOar1 | i2cOar2 | i2cDr | i2cSr1 | i2cSr2 | i2cCcr | i2cTrise | i2cFltr
  | stkCtrl | stkLoad | stkVal | stkCalib
  | rccApb1rstr | rccAhb1enr | rccApb1enr
  | gpioModer | gpioOtyper | gpioOspeedr | gpioPupdr | gpioAfrl | gpioAfrh
  deriving DecidableEq, Repr, Inhabited

/-- The micro-operations of 40_microops R130. -/
inductive MicroOp where
  | rd (a : Word)
  | wr (a v : Word)
  | ldt (a : Word)
  | stor (a m : Word)
  | standn (a m : Word)
  | stfld (a m v : Word)
  | poll (a m : Word)
  | tickwait (k : Nat)
  | strch (p : Nat)
  | halt
  deriving DecidableEq, Repr, Inhabited

/-- The reasons of `PERIPH_UNMODELLED` (60_exceptions R351). -/
inductive PeriphReason where
  | spuriousStop | repeatedStart | requestWithdrawn | disableDuringTransaction
  | drWriteInPhase | resetDuringTransaction | ccrWhileEnabled
  deriving DecidableEq, Repr, Inhabited

/-- The fault codes of 60_exceptions R351, each with the info it records. The block takes such a fault by
the entry of R352, which is a next state. -/
inductive BlockFault where
  | illegalCommand (cp : Nat) (word : Word)
  | busNotReady (cp : Nat) (word : Word)
  | periphUnmodelled (cp : Nat) (reason : PeriphReason)
  | stringOverrun (cp : Nat) (addr : Nat)
  deriving DecidableEq, Repr, Inhabited

/-- `SEQ.status` (10_state R25). -/
inductive Status where
  | running
  | idle
  | faulted (f : BlockFault)
  deriving DecidableEq, Repr, Inhabited

/-- `I2CP.ph` (10_state R50). -/
inductive Phase where
  | idle | startDone | addrTx | addrAcked | txReady | dataLoaded | dataTx | dataDone | nacked
  deriving DecidableEq, Repr, Inhabited

/-- The I2C registers that hold a value of their own (10_state R28 to R31, R34, R35); SR1 and SR2 are
views of `I2cFlags`. -/
structure I2cRegs where
  cr1 : Word
  cr2 : Word
  oar1 : Word
  oar2 : Word
  dr : Byte
  ccr : Word
  trise : Word
  fltr : Word
  deriving DecidableEq, Repr, Inhabited

/-- `I2CP.flags` (10_state R50, R51). -/
structure I2cFlags where
  sb : Bool
  addr : Bool
  btf : Bool
  txe : Bool
  af : Bool
  msl : Bool
  busy : Bool
  tra : Bool
  deriving DecidableEq, Repr, Inhabited

/-- The hidden state of the I2C peripheral other than its flags (10_state R50). -/
structure I2cp where
  ph : Phase
  shift : Byte
  sr1Seen : Bool
  inReset : Bool
  deriving DecidableEq, Repr, Inhabited

/-- The down-counter (10_state R36 to R39): the four fields of CTRL, LOAD, VAL and CALIB. -/
structure Stk where
  enable : Bool
  tickint : Bool
  clksource : Bool
  countflag : Bool
  load : BitVec 24
  val : BitVec 24
  calib : Word
  deriving DecidableEq, Repr, Inhabited

/-- Clock and reset control (10_state R40 to R42). -/
structure Rcc where
  apb1rstr : Word
  ahb1enr : Word
  apb1enr : Word
  deriving DecidableEq, Repr, Inhabited

/-- The GPIO bank `GPIO_PORT` (10_state R44 to R48). -/
structure Gpio where
  moder : Word
  otyper : Word
  ospeedr : Word
  pupdr : Word
  afrl : Word
  afrh : Word
  deriving DecidableEq, Repr, Inhabited

/-- A nybble the LCD has latched (10_state R54). -/
structure LcdNyb where
  d : BitVec 4
  rs : BitVec 1
  deriving DecidableEq, Repr, Inhabited

/-- The observer of the bus (10_state R54): `EXP.port`, `EXP.sel`, `LCD.nybs`. -/
structure Observer where
  port : Byte
  sel : Bool
  nybs : List LcdNyb
  deriving DecidableEq, Repr, Inhabited

/-- The events of the history (10_state R57). -/
inductive Event where
  | rd (a v : Word)
  | wr (a v : Word)
  | str (p : Nat) (c : Byte)
  | busStart
  | busAddr (b : Byte) (k : Ack)
  | busData (b : Byte) (k : Ack)
  | busStop
  | underflow
  | fault (f : BlockFault)
  deriving DecidableEq, Repr, Inhabited

/-- The model's own fields: the environment's choices still to be made, as plain data (10_state R59).
After the lists run out, the positions index the free values of Config (log 1, log 3). -/
structure Env where
  sched : List Agent
  schedPos : Nat
  acks : List Ack
  ackPos : Nat
  deriving DecidableEq, Repr, Inhabited

/-- The whole machine. `cfg`, `cs` and `str` are launch data (R5, R55): no step writes them. -/
structure State where
  /-- The configuration (00_scope R5). -/
  cfg : Config
  /-- The command stream `CS` (R55, R84). -/
  cs : List Word
  /-- The string memory `STR` (R55, R83). -/
  str : Memory
  /-- `CP` (R23). -/
  cp : Nat
  /-- `MQ` (R24). -/
  mq : List MicroOp
  /-- `SEQ.status` (R25). -/
  status : Status
  /-- `TMP` (R21). -/
  tmp : Word
  /-- The I2C registers (R28 to R35). -/
  i2c : I2cRegs
  /-- `I2CP`'s phase, shift register and bits (R50). -/
  i2cp : I2cp
  /-- `I2CP.flags` (R51). -/
  flags : I2cFlags
  /-- The down-counter (R36 to R39). -/
  stk : Stk
  /-- `RCC` (R40 to R42). -/
  rcc : Rcc
  /-- `GPIOx` (R44 to R48). -/
  gpio : Gpio
  /-- The tick count `T` (R52). -/
  ticks : Nat
  /-- The observer (R54). -/
  obs : Observer
  /-- The history `H`, oldest first (R57). -/
  hist : List Event
  /-- The environment's choices (R59). -/
  env : Env
  deriving DecidableEq, Repr, Inhabited

/-- Why a step gives no next state. -/
inductive Fault where
  /-- Raised by `step` in a faulted state: the state is terminal and no agent takes a step (60_exceptions
  R352). Safe: the fault itself was taken as a next state, and the block does nothing afterwards. -/
  | stopped (f : BlockFault)
  /-- Raised by a micro-operation whose address is no register of 20_memory R72. No expansion holds one
  (R71), so only states no run reaches end here. Safe. -/
  | unmappedRegister (a : Word)
  deriving DecidableEq, Repr, Inhabited

/-- Why the model gives no meaning. -/
inductive Refusal where
  /-- Raised by an arm of `exec` for an instruction without a meaning; no arm is one now. Safe. -/
  | notModelled (mnemonic : String)
  /-- Raised by `launch` for a configuration that breaks 00_scope R6 (60_exceptions R357). Safe. -/
  | badConfig
  /-- Raised by `launch` for a stream that breaks 45_display R315 (60_exceptions R357). Safe. -/
  | illFormedStream
  deriving DecidableEq, Repr, Inhabited

/-- What an instruction or a step answers. -/
abbrev Result := Host.Outcome State Fault Refusal

/-- The reset values of the I2C registers (10_state R58). -/
def I2cRegs.reset : I2cRegs where
  cr1 := 0
  cr2 := 0
  oar1 := 0
  oar2 := 0
  dr := 0
  ccr := 0
  trise := 0x0000_0002
  fltr := 0

/-- Every I2C flag 0 (10_state R58). -/
def I2cFlags.reset : I2cFlags where
  sb := false
  addr := false
  btf := false
  txe := false
  af := false
  msl := false
  busy := false
  tra := false

/-- The state a reset of the block puts in place, with the values it draws (70_reset R380, R381;
10_state R58). The launch data, the observer and the environment's choices are arguments: a reset leaves
the first two, and the last are no state of the machine. -/
def State.afterReset (cfg : Config) (cs : List Word) (str : Memory) (d : ResetDraws) (obs : Observer)
    (env : Env) : State where
  cfg := cfg
  cs := cs
  str := str
  cp := 0
  mq := []
  status := .running
  tmp := d.tmp
  i2c := I2cRegs.reset
  i2cp := { ph := .idle, shift := d.shift, sr1Seen := false, inReset := false }
  flags := I2cFlags.reset
  stk :=
    { enable := false, tickint := false, clksource := false, countflag := false, load := d.stkLoad,
      val := d.stkVal, calib := d.calib }
  rcc := { apb1rstr := 0, ahb1enr := 0x0010_0000, apb1enr := 0 }
  gpio :=
    { moder := d.moder, otyper := d.otyper, ospeedr := d.ospeedr, pupdr := d.pupdr, afrl := d.afrl,
      afrh := d.afrh }
  ticks := 0
  obs := obs
  hist := []
  env := env

/-- The observer at power-on (10_state R54, R58). -/
def Observer.powerOn (cfg : Config) : Observer where
  port := cfg.expInit
  sel := false
  nybs := []

/-- No choice of the environment made in advance (log 28). -/
def Env.free : Env where
  sched := []
  schedPos := 0
  acks := []
  ackPos := 0

/-- The state at power-on, with nothing loaded (R58; log 7). -/
def State.powerOn (cfg : Config) (d : ResetDraws) : State :=
  State.afterReset cfg [] [] d (Observer.powerOn cfg) Env.free

/-- The machine right after reset: the configuration's OPEN parameters and the drawn values are free
(log 4, log 5). -/
def State.reset : State := State.powerOn Config.board Config.resetDraws

end Sys2Proof.Machine
end

