-- ==== Sys2Proof/Machine/Operands.lean ====
section
/-! DEFINITION. Constants, register addresses, masks, bus byte formats and the read-modify-write
shorthands: everything the expansions put into micro-operations. -/

namespace Sys2Proof.Machine

/-! ### Constants of 00_scope R5 -/

/-- `F_SCL`. -/
def fScl : Nat := 100000
/-- `SLAVE_ADDR`. -/
def slaveAddr : BitVec 7 := 0x27
/-- `T_POWERON`, in ms. -/
def tPowerOn : Nat := 41
/-- `T_RESET_GAP`, in ms. -/
def tResetGap : Nat := 10
/-- `T_PULSE`, in ms. -/
def tPulse : Nat := 1
/-- `T_CLEAR`, in ms. -/
def tClear : Nat := 2
/-- `T_CHAR`, in ms. -/
def tChar : Nat := 10
/-- `CMD_CLEAR`. -/
def cmdClear : Byte := 0x01
/-- `NYB_RESET`. -/
def nybReset : Byte := 0x30
/-- `NYB_4BIT`. -/
def nyb4Bit : Byte := 0x20
/-- `CMD_FUNCTION_SET`. -/
def cmdFunctionSet : Byte := 0x28
/-- `CMD_DISPLAY_CONTROL`. -/
def cmdDisplayControl (c : Config) : Byte :=
  0x0C ||| (c.cursor.setWidth 8 <<< 1) ||| c.blink.setWidth 8
/-- `CMD_ENTRY_MODE`. -/
def cmdEntryMode : Byte := 0x06

/-- `RELOAD = F_SYS / 1000 - 1` (R5). -/
def reload (c : Config) : Nat := c.fSys / 1000 - 1
/-- `CCR_VAL = F_SYS / (2 * F_SCL)` (R5). -/
def ccrVal (c : Config) : Nat := c.fSys / (2 * fScl)

/-! ### Register addresses (20_memory R72) -/

/-- The number of an I2C instance. -/
def instNumber : I2cInst → Nat
  | .i2c1 => 1
  | .i2c2 => 2
  | .i2c3 => 3

/-- `k` of R72: A = 0 to H = 7. -/
def portIndex : GpioPort → Nat
  | .a => 0 | .b => 1 | .c => 2 | .d => 3 | .e => 4 | .f => 5 | .g => 6 | .h => 7

/-- `B_I2C`. -/
def i2cBase : I2cInst → Word
  | .i2c1 => 0x4000_5400
  | .i2c2 => 0x4000_5800
  | .i2c3 => 0x4000_5C00

/-- `B_GPIO = 0x4002_0000 + 0x400 * k`. -/
def gpioBase (p : GpioPort) : Word := 0x4002_0000 + 0x400 * BitVec.ofNat 32 (portIndex p)

/-- The byte address of a register, for an instance and a bank (R72; log 21). -/
def addrOf (inst : I2cInst) (port : GpioPort) : Reg → Word
  | .i2cCr1 => i2cBase inst + 0x00
  | .i2cCr2 => i2cBase inst + 0x04
  | .i2cOar1 => i2cBase inst + 0x08
  | .i2cOar2 => i2cBase inst + 0x0C
  | .i2cDr => i2cBase inst + 0x10
  | .i2cSr1 => i2cBase inst + 0x14
  | .i2cSr2 => i2cBase inst + 0x18
  | .i2cCcr => i2cBase inst + 0x1C
  | .i2cTrise => i2cBase inst + 0x20
  | .i2cFltr => i2cBase inst + 0x24
  | .stkCtrl => 0xE000_E010
  | .stkLoad => 0xE000_E014
  | .stkVal => 0xE000_E018
  | .stkCalib => 0xE000_E01C
  | .rccApb1rstr => 0x4002_3820
  | .rccAhb1enr => 0x4002_3830
  | .rccApb1enr => 0x4002_3840
  | .gpioModer => gpioBase port + 0x00
  | .gpioOtyper => gpioBase port + 0x04
  | .gpioOspeedr => gpioBase port + 0x08
  | .gpioPupdr => gpioBase port + 0x0C
  | .gpioAfrl => gpioBase port + 0x20
  | .gpioAfrh => gpioBase port + 0x24

/-- The address of a register in a configuration. -/
def regAddr (c : Config) (r : Reg) : Word := addrOf c.i2cInst c.gpioPort r

/-- Every register of R72. -/
def allRegs : List Reg :=
  [.i2cCr1, .i2cCr2, .i2cOar1, .i2cOar2, .i2cDr, .i2cSr1, .i2cSr2, .i2cCcr, .i2cTrise, .i2cFltr,
   .stkCtrl, .stkLoad, .stkVal, .stkCalib, .rccApb1rstr, .rccAhb1enr, .rccApb1enr,
   .gpioModer, .gpioOtyper, .gpioOspeedr, .gpioPupdr, .gpioAfrl, .gpioAfrh]

/-- The register at an address, for an instance and a bank: no other address responds (R71; log 14). -/
def regOf (inst : I2cInst) (port : GpioPort) (a : Word) : Option Reg :=
  allRegs.find? fun r => addrOf inst port r == a

/-- The register at an address in a configuration. -/
def regAt (c : Config) (a : Word) : Option Reg := regOf c.i2cInst c.gpioPort a

/-! ### Masks (42_businit R190, 43_i2c R220, 10_state R28, R32, R36) -/

/-- `M_PE = 1 << 0`. -/
def mPe : Word := 1 <<< 0
/-- `M_START = 1 << 8`. -/
def mStart : Word := 1 <<< 8
/-- `M_STOP = 1 << 9`. -/
def mStop : Word := 1 <<< 9
/-- `M_SWRST = 1 << 15`. -/
def mSwrst : Word := 1 <<< 15
/-- `M_FS = 1 << 15`. -/
def mFs : Word := 1 <<< 15
/-- `M_CCR = 0xFFF`. -/
def mCcr : Word := 0xFFF
/-- `M_SB = 1 << 0`. -/
def mSb : Word := 1 <<< 0
/-- `M_ADDR = 1 << 1`. -/
def mAddr : Word := 1 <<< 1
/-- `M_BTF = 1 << 2`. -/
def mBtf : Word := 1 <<< 2
/-- `M_TXE = 1 << 7`. -/
def mTxe : Word := 1 <<< 7

/-- The bit of the I2C instance in `APB1ENR` and `APB1RSTR`: `20 + i` (R40, R42). -/
def i2cBit (c : Config) : Nat := 20 + instNumber c.i2cInst
/-- `M_I2C = 1 << (20 + i)` (R190). -/
def mI2c (c : Config) : Word := 1 <<< i2cBit c
/-- The bit of the GPIO bank in `AHB1ENR` (R41). -/
def gpioBit (c : Config) : Nat := portIndex c.gpioPort

/-- `two2(v)` of R190: a 2-bit field value at both pins. -/
def two2 (c : Config) (v : Word) : Word :=
  (v <<< (2 * c.pinScl.val)) ||| (v <<< (2 * c.pinSda.val))
/-- A 1-bit field set at both pins (R190, OTYPER). -/
def pinBits (c : Config) : Word := (1 <<< c.pinScl.val) ||| (1 <<< c.pinSda.val)

/-! ### Read-modify-write shorthands (40_microops R130) -/

/-- `SET a m`. -/
def opSet (a m : Word) : List MicroOp := [.ldt a, .stor a m]
/-- `CLR a m`. -/
def opClr (a m : Word) : List MicroOp := [.ldt a, .standn a m]
/-- `FLD a m v`. -/
def opFld (a m v : Word) : List MicroOp := [.ldt a, .stfld a m v]

/-! ### Bus byte formats (30_encoding R113, R114; 44_nybble R270) -/

/-- `addr_byte(a) = ((a << 1) | 0)[7:0]` (R113). -/
def addrByte (a : BitVec 7) : Byte := (a.setWidth 8 <<< 1) ||| 0

/-- `pack(d, en, rs)` (R270): data nybble 7:4, backlight 3 held 1, enable 2, read/write 1 held 0,
register select 0. -/
def pack (d : BitVec 4) (en rs : BitVec 1) : Byte :=
  (d.setWidth 8 <<< 4) ||| (1#8 <<< 3) ||| (en.setWidth 8 <<< 2) ||| (0#8 <<< 1) ||| rs.setWidth 8

/-- `b[7:4]`. -/
def highNyb (b : Byte) : BitVec 4 := b.extractLsb' 4 4
/-- `b[3:0]`. -/
def lowNyb (b : Byte) : BitVec 4 := b.extractLsb' 0 4

end Sys2Proof.Machine
end

