-- ==== Sys2Proof/Machine/Flags.lean ====
section
/-! DEFINITION. Status-register views, the accessibility conditions, `bus_ready`, and the conditions of a
write to `I2C.CR1` (10_state R32, R33, R43, R51; 42_businit R195, R196; 43_i2c R222, R223). -/

namespace Sys2Proof.Machine

/-- Bit `n` of a word holding a flag. -/
def flagBit (b : Bool) (n : Nat) : Word := (BitVec.ofBool b).setWidth 32 <<< n

/-- `SB | (ADDR << 1) | (BTF << 2) | (TXE << 7) | (AF << 10)` (R32, R225). -/
def sr1View (f : I2cFlags) : Word :=
  flagBit f.sb 0 ||| flagBit f.addr 1 ||| flagBit f.btf 2 ||| flagBit f.txe 7 ||| flagBit f.af 10

/-- `MSL | (BUSY << 1) | (TRA << 2)` (R33, R228). -/
def sr2View (f : I2cFlags) : Word :=
  flagBit f.msl 0 ||| flagBit f.busy 1 ||| flagBit f.tra 2

/-- `ENABLE | (TICKINT << 1) | (CLKSOURCE << 2) | (COUNTFLAG << 16)` (41_timer R165). -/
def ctrlView (k : Stk) : Word :=
  flagBit k.enable 0 ||| flagBit k.tickint 1 ||| flagBit k.clksource 2 ||| flagBit k.countflag 16

/-- The I2C instance's clock is on (R196). -/
def i2cClocked (s : State) : Bool := s.rcc.apb1enr.getLsbD (i2cBit s.cfg)

/-- The GPIO bank's clock is on (R196). -/
def gpioClocked (s : State) : Bool := s.rcc.ahb1enr.getLsbD (gpioBit s.cfg)

/-- An access to an I2C register other than `CR1` is lost: clock off or held in reset (20_memory R85). -/
def i2cLost (s : State) : Bool := !i2cClocked s || s.i2cp.inReset

/-- An access to `I2C.CR1` is lost: clock off, or held in reset by the RCC bit (20_memory R85: `CR1` stays
accessible in reset under `RESET_STYLE = SWRST`; log 16). -/
def cr1Lost (s : State) : Bool :=
  !i2cClocked s || (s.i2cp.inReset && decide (s.cfg.resetStyle ≠ .swrst))

/-- `accessible` of 43_i2c R222, in every guard of `I2CP`. -/
def accessible (s : State) : Bool := i2cClocked s && !s.i2cp.inReset && s.i2c.cr1.getLsbD 0

/-- The 2-bit field of a pin (10_state R44, R47). -/
def pinField2 (w : Word) (n : Fin 16) : BitVec 2 := w.extractLsb' (2 * n.val) 2

/-- The alternate-function field of a pin (10_state R48). -/
def afrField (g : Gpio) (n : Fin 16) : BitVec 4 :=
  if n.val < 8 then g.afrl.extractLsb' (4 * n.val) 4 else g.afrh.extractLsb' (4 * (n.val - 8)) 4

/-- The pin's part of `bus_ready` (R195). -/
def pinReady (c : Config) (g : Gpio) (n : Fin 16) : Bool :=
  pinField2 g.moder n == 0b10#2 && afrField g n == c.afNum && g.otyper.getLsbD n.val
    && pinField2 g.pupdr n == 0b01#2

/-- `bus_ready` (42_businit R195). -/
def busReady (s : State) : Bool :=
  gpioClocked s && i2cClocked s && !s.i2cp.inReset && s.i2c.cr1.getLsbD 0
    && !s.i2c.ccr.getLsbD 15 && s.i2c.ccr.extractLsb' 0 12 == BitVec.ofNat 12 (ccrVal s.cfg)
    && pinReady s.cfg s.gpio s.cfg.pinScl && pinReady s.cfg s.gpio s.cfg.pinSda

/-- 43_i2c R223 item 4: the first unmodelled case that holds at a write `v` over `old`, in the rule's
order (60_exceptions R355). -/
def cr1Unmodelled (ph : Phase) (old v : Word) : Option PeriphReason :=
  if v.getLsbD 9 && !old.getLsbD 9 && ph ≠ .dataDone then some .spuriousStop
  else if v.getLsbD 8 && !old.getLsbD 8 &&
      ((ph ≠ .idle && ph ≠ .dataDone) || (ph = .dataDone && !v.getLsbD 9)) then some .repeatedStart
  else if (old.getLsbD 8 && !v.getLsbD 8) || (old.getLsbD 9 && !v.getLsbD 9) then some .requestWithdrawn
  else if !v.getLsbD 0 && ph ≠ .idle then some .disableDuringTransaction
  else none

end Sys2Proof.Machine
end

