-- ==== Sys2Proof/Machine/Ops.lean ====
section
/-! DEFINITION. The named operations over memory, registers, history and observer, and taking a fault
(20_memory, 40_microops R144, 44_nybble R274, R275, 60_exceptions R352). -/

namespace Sys2Proof.Machine

/-! ### String memory -/

/-- What an unlisted string byte reads as (45_display R316 fills the unused bytes with 0x00; log 6). -/
def Memory.unlisted : Byte := 0x00

/-- Addresses strictly rising, no entry equal to `unlisted`. -/
def Memory.wf : Memory → Bool
  | [] => true
  | [(_, b)] => b != Memory.unlisted
  | (p, b) :: (q, c) :: rest => b != Memory.unlisted && decide (p < q) && Memory.wf ((q, c) :: rest)

/-- The byte at an address. -/
def Memory.read : Memory → Nat → Byte
  | [], _ => Memory.unlisted
  | (q, b) :: rest, p => if q = p then b else Memory.read rest p

/-- An entry for `b` at `p` before `rest`, or none when `b` is what an unlisted byte reads as. -/
def Memory.entry (p : Nat) (b : Byte) (rest : Memory) : Memory :=
  if b = Memory.unlisted then rest else (p, b) :: rest

/-- Put a byte at an address, keeping the canonical form. Only the host's loading uses it: no agent writes
the string memory (20_memory R83). -/
def Memory.write : Memory → Nat → Byte → Memory
  | [], p, b => Memory.entry p b []
  | (q, c) :: rest, p, b =>
    if p < q then Memory.entry p b ((q, c) :: rest)
    else if p = q then Memory.entry p b rest
    else (q, c) :: Memory.write rest p b

/-- Put bytes at consecutive addresses. -/
def Memory.load (m : Memory) (p : Nat) : List Byte → Memory
  | [] => m
  | b :: bs => Memory.load (m.write p b) (p + 1) bs

/-! ### Observer and history -/

/-- `lcd_edge(old, new)` (44_nybble R275): the LCD latches a nybble on a falling enable line. -/
def lcdEdge (old new : Byte) (nybs : List LcdNyb) : List LcdNyb :=
  if old.getLsbD 2 && !new.getLsbD 2 then
    nybs ++ [{ d := new.extractLsb' 4 4, rs := new.extractLsb' 0 1 }]
  else nybs

/-- The observer's update on an event (44_nybble R274). -/
def observe (o : Observer) : Event → Observer
  | .busAddr x k => { o with sel := k == .ack && x == addrByte slaveAddr }
  | .busData b .ack =>
    if o.sel then { o with port := b, nybs := lcdEdge o.port b o.nybs } else o
  | .busStop => { o with sel := false }
  | _ => o

/-- `emit E` (00_scope R10): append the event; the observer follows the bus events. -/
def State.emit (s : State) (e : Event) : State :=
  { s with hist := s.hist ++ [e], obs := observe s.obs e }

/-! ### Faults -/

/-- `raise Fault(code, info)` (60_exceptions R352; log 15). -/
def State.raise (s : State) (f : BlockFault) : State :=
  { s with status := .faulted f, mq := [] }.emit (.fault f)

/-- The number of a fault code (60_exceptions R351). -/
def BlockFault.code : BlockFault → Nat
  | .illegalCommand _ _ => 1
  | .busNotReady _ _ => 2
  | .periphUnmodelled _ _ => 3
  | .stringOverrun _ _ => 4

/-! ### Register access -/

/-- Run `k` on the state or value an outcome carries; a fault or refusal stays. -/
def andThen {α β φ ρ : Type} (x : Host.Outcome α φ ρ) (k : α → Host.Outcome β φ ρ) :
    Host.Outcome β φ ρ :=
  match x with
  | .next a => k a
  | .fault r => .fault r
  | .refused r => .refused r

/-- `v` in the bits of `m`, `old` elsewhere. -/
def maskedInto (m old v : Word) : Word := (old &&& ~~~m) ||| (v &&& m)

/-- The bits of `I2C.CR1` that hold what is written; the others are reserved (10_state R27, R28; log 8,
DEDUCED, as the four masks below). -/
def cr1Fields : Word := 0x0000_BFFB
/-- The fields of `I2C.CR2` (10_state R29). -/
def cr2Fields : Word := 0x0000_1F3F
/-- The fields of `I2C.CCR` (10_state R34). -/
def ccrFields : Word := 0x0000_CFFF
/-- I2C1 to I2C3 in `APB1ENR` and `APB1RSTR` (10_state R40, R42). -/
def apb1Fields : Word := 0x00E0_0000
/-- GPIOA to GPIOH in `AHB1ENR` (10_state R41). -/
def ahb1Fields : Word := 0x0000_00FF
/-- The 16 pins of `GPIOx.OTYPER`; bits 31:16 are listed in no field (10_state R27, R45; log 9). -/
def otyperFields : Word := 0x0000_FFFF

/-- The value a read of a register returns (10_state R27 to R49; 20_memory R85; 43_i2c R240; `CR1` held in
reset: log 16; `OTYPER`: log 9). -/
def readValue (r : Reg) (s : State) : Word :=
  match r with
  | .i2cCr1 => if cr1Lost s then 0 else s.i2c.cr1
  | .i2cCr2 => if i2cLost s then 0 else s.i2c.cr2
  | .i2cOar1 => if i2cLost s then 0 else s.i2c.oar1
  | .i2cOar2 => if i2cLost s then 0 else s.i2c.oar2
  | .i2cDr => if i2cLost s then 0 else s.i2c.dr.setWidth 32
  | .i2cSr1 => if i2cLost s then 0 else sr1View s.flags
  | .i2cSr2 => if i2cLost s then 0 else sr2View s.flags
  | .i2cCcr => if i2cLost s then 0 else s.i2c.ccr
  | .i2cTrise => if i2cLost s then 0 else s.i2c.trise
  | .i2cFltr => if i2cLost s then 0 else s.i2c.fltr
  | .stkCtrl => ctrlView s.stk
  | .stkLoad => s.stk.load.setWidth 32
  | .stkVal => s.stk.val.setWidth 32
  | .stkCalib => s.stk.calib
  | .rccApb1rstr => s.rcc.apb1rstr
  | .rccAhb1enr => s.rcc.ahb1enr
  | .rccApb1enr => s.rcc.apb1enr
  | .gpioModer => if gpioClocked s then s.gpio.moder else 0
  | .gpioOtyper => if gpioClocked s then s.gpio.otyper &&& otyperFields else 0
  | .gpioOspeedr => if gpioClocked s then s.gpio.ospeedr else 0
  | .gpioPupdr => if gpioClocked s then s.gpio.pupdr else 0
  | .gpioAfrl => if gpioClocked s then s.gpio.afrl else 0
  | .gpioAfrh => if gpioClocked s then s.gpio.afrh else 0

/-- The side effect of a read of `I2C.SR1` (43_i2c R225). -/
def sr1ReadEffect (s : State) : State :=
  if !i2cLost s && s.flags.addr then { s with i2cp := { s.i2cp with sr1Seen := true } } else s

/-- The side effect of a read of `I2C.SR2` (43_i2c R228). -/
def sr2ReadEffect (s : State) : State :=
  if !i2cLost s && s.flags.addr && s.i2cp.sr1Seen then
    { s with
      flags := { s.flags with addr := false, txe := true }
      i2cp := { s.i2cp with sr1Seen := false, ph := .txReady } }
  else s

/-- The side effect of a read (20_memory R76): `SR1`, `SR2` and `STK.CTRL` have one (41_timer R165). -/
def readEffect (r : Reg) (s : State) : State :=
  match r with
  | .i2cSr1 => sr1ReadEffect s
  | .i2cSr2 => sr2ReadEffect s
  | .stkCtrl => { s with stk := { s.stk with countflag := false } }
  | _ => s

/-- What a register write does: an effect, or a fault raised instead of any effect (60_exceptions R352). -/
inductive WriteResult where
  | done (s : State)
  | raises (f : BlockFault)
  deriving DecidableEq, Repr, Inhabited

/-- The index in `CS` of the command whose expansion is running (60_exceptions R351; log 17). -/
def currentCommand (s : State) : Nat := s.cp - 1

/-- A `PERIPH_UNMODELLED` fault of the current command. -/
def periphFault (s : State) (why : PeriphReason) : WriteResult :=
  .raises (.periphUnmodelled (currentCommand s) why)

/-- Every I2C register, flag, the phase and `sr1_seen` at their reset values, held in reset
(42_businit R197, R198; log 27). -/
def holdI2cReset (s : State) : State :=
  { s with
    i2c := I2cRegs.reset
    flags := I2cFlags.reset
    i2cp := { s.i2cp with ph := .idle, sr1Seen := false, inReset := true } }

/-- `I2C.CR1 ← v`, reserved bits ignored (43_i2c R223 item 5; 10_state R27). -/
def setCr1 (v : Word) (s : State) : State :=
  { s with i2c := { s.i2c with cr1 := v &&& cr1Fields } }

/-- A write to an accessible `I2C.CR1` under 42_businit R198: setting or leaving the software reset. -/
def writeSwrst (v : Word) (s : State) : WriteResult :=
  if v.getLsbD 15 then
    if s.i2cp.ph ≠ .idle then periphFault s .resetDuringTransaction
    else .done { holdI2cReset s with i2c := { I2cRegs.reset with cr1 := mSwrst } }
  else .done (setCr1 v { s with i2cp := { s.i2cp with inReset := false } })

/-- A write to `I2C.CR1` (43_i2c R223, items in order). A software-reset write stops at item 1, and there
too a gated or RCC-held block ignores it (10_state R43, 20_memory R85; log 12). -/
def writeCr1 (v : Word) (s : State) : WriteResult :=
  if v.getLsbD 15 || (s.i2cp.inReset && s.cfg.resetStyle = .swrst) then
    if cr1Lost s then .done s else writeSwrst v s
  else if v.getLsbD 8 && !busReady (setCr1 v s) then
    .raises (.busNotReady (currentCommand s) v)
  else if cr1Lost s then .done s
  else match cr1Unmodelled s.i2cp.ph s.i2c.cr1 v with
    | some why => periphFault s why
    | none => .done (setCr1 v s)

/-- A write to `I2C.DR` (43_i2c R226; log 13). `START_DONE` without SB and `TX_READY` without TXE are taken
with the other phases (log 32). -/
def writeDr (v : Word) (s : State) : WriteResult :=
  if i2cLost s then .done s
  else if s.i2cp.ph = .startDone && s.flags.sb then
    .done { s with
      i2c := { s.i2c with dr := v.setWidth 8 }
      i2cp := { s.i2cp with shift := v.setWidth 8, ph := .addrTx }
      flags := { s.flags with sb := false } }
  else if s.i2cp.ph = .txReady && s.flags.txe then
    .done { s with
      i2c := { s.i2c with dr := v.setWidth 8 }
      i2cp := { s.i2cp with ph := .dataLoaded }
      flags := { s.flags with txe := false } }
  else periphFault s .drWriteInPhase

/-- A write to `I2C.CCR` (42_businit R200). -/
def writeCcr (v : Word) (s : State) : WriteResult :=
  if i2cLost s then .done s
  else if s.i2c.cr1.getLsbD 0 then periphFault s .ccrWhileEnabled
  else .done { s with i2c := { s.i2c with ccr := v &&& ccrFields } }

/-- A write to `RCC.APB1RSTR` (42_businit R197; log 29). -/
def writeApb1rstr (v : Word) (s : State) : WriteResult :=
  let stored := { s with rcc := { s.rcc with apb1rstr := maskedInto apb1Fields s.rcc.apb1rstr v } }
  if v.getLsbD (i2cBit s.cfg) then
    if s.i2cp.ph ≠ .idle then periphFault s .resetDuringTransaction
    else .done (holdI2cReset stored)
  else .done { stored with i2cp := { s.i2cp with inReset := false } }

/-- A write to an I2C register that only stores (10_state R29, R30, R35; log 11). -/
def writeI2cPlain (s : State) (regs : I2cRegs) : WriteResult :=
  if i2cLost s then .done s else .done { s with i2c := regs }

/-- A write to a GPIO register stores while the bank is clocked (42_businit R196, R199). -/
def writeGpio (s : State) (g : Gpio) : WriteResult :=
  if gpioClocked s then .done { s with gpio := g } else .done s

/-- What a write of `v` to a register does (20_memory R76; 10_state R27 to R49; 41_timer R166 to R168;
`SR1`: log 10, PRESUMED). -/
def writeReg (r : Reg) (v : Word) (s : State) : WriteResult :=
  match r with
  | .i2cCr1 => writeCr1 v s
  | .i2cCr2 => writeI2cPlain s { s.i2c with cr2 := v &&& cr2Fields }
  | .i2cOar1 => writeI2cPlain s { s.i2c with oar1 := v }
  | .i2cOar2 => writeI2cPlain s { s.i2c with oar2 := v }
  | .i2cDr => writeDr v s
  | .i2cSr1 =>
    if i2cLost s then .done s else .done { s with flags := { s.flags with af := s.flags.af && v.getLsbD 10 } }
  | .i2cSr2 => .done s
  | .i2cCcr => writeCcr v s
  | .i2cTrise => writeI2cPlain s { s.i2c with trise := v }
  | .i2cFltr => writeI2cPlain s { s.i2c with fltr := v }
  | .stkCtrl =>
    .done { s with
      stk := { s.stk with enable := v.getLsbD 0, tickint := v.getLsbD 1, clksource := v.getLsbD 2 } }
  | .stkLoad => .done { s with stk := { s.stk with load := v.setWidth 24 } }
  | .stkVal => .done { s with stk := { s.stk with val := 0, countflag := false } }
  | .stkCalib => .done s
  | .rccApb1rstr => writeApb1rstr v s
  | .rccAhb1enr => .done { s with rcc := { s.rcc with ahb1enr := maskedInto ahb1Fields s.rcc.ahb1enr v } }
  | .rccApb1enr => .done { s with rcc := { s.rcc with apb1enr := maskedInto apb1Fields s.rcc.apb1enr v } }
  | .gpioModer => writeGpio s { s.gpio with moder := v }
  | .gpioOtyper => writeGpio s { s.gpio with otyper := maskedInto otyperFields s.gpio.otyper v }
  | .gpioOspeedr => writeGpio s { s.gpio with ospeedr := v }
  | .gpioPupdr => writeGpio s { s.gpio with pupdr := v }
  | .gpioAfrl => writeGpio s { s.gpio with afrl := v }
  | .gpioAfrh => writeGpio s { s.gpio with afrh := v }

/-- `MemRead(a, 4)` (40_microops R144): the value, the read's effect, and the `Rd` event. -/
def memRead (a : Word) (s : State) : Host.Outcome (Word × State) Fault Refusal :=
  match regAt s.cfg a with
  | some r => .next (readValue r s, (readEffect r s).emit (.rd a (readValue r s)))
  | none => .fault (.unmappedRegister a)

/-- `MemWrite(a, 4, v)` (40_microops R144): the write's effect and the `Wr` event, or the fault in their
place. -/
def memWrite (a v : Word) (s : State) : Result :=
  match regAt s.cfg a with
  | some r =>
    match writeReg r v s with
    | .done t => .next (t.emit (.wr a v))
    | .raises f => .next (s.raise f)
  | none => .fault (.unmappedRegister a)

/-! ### The sequencer's own state -/

/-- A fetched command's effect on the sequencer: its expansion becomes the micro-queue and `CP` advances
by one (40_microops R131). -/
def State.startCommand (s : State) (ops : List MicroOp) : State :=
  { s with mq := ops, cp := s.cp + 1 }

/-- `pop` (00_scope R10). -/
def State.pop (s : State) : State := { s with mq := s.mq.tail }

/-! ### The environment's choices -/

/-- The agent the schedule picks next (40_microops R145; log 1). -/
def nextAgent (s : State) : Agent :=
  match s.env.sched with
  | a :: _ => a
  | [] => Config.freeAgent s.env.schedPos

/-- The choice of an agent is used up. -/
def State.takeTurn (s : State) : State :=
  { s with env := { s.env with sched := s.env.sched.tail, schedPos := s.env.schedPos + 1 } }

/-- `draw ack from {ACK, NACK}` (43_i2c R232; log 3). -/
def nextAck (s : State) : Ack :=
  match s.env.acks with
  | k :: _ => k
  | [] => Config.freeAck s.env.ackPos

/-- The acknowledge draw is used up. -/
def State.takeAck (s : State) : State :=
  { s with env := { s.env with acks := s.env.acks.tail, ackPos := s.env.ackPos + 1 } }

end Sys2Proof.Machine
end

