-- ==== Sys2Proof/Machine/Devices.lean ====
section
/-! DEFINITION. The steps of the two device agents: the I2C peripheral (43_i2c R222 to R231) and the
down-counter (41_timer R164). -/

namespace Sys2Proof.Machine

/-- PS1, start generation (R224). -/
def startStep (s : State) : State :=
  { s with
    i2c := { s.i2c with cr1 := s.i2c.cr1 &&& ~~~mStart }
    flags := { s.flags with sb := true, msl := true, busy := true }
    i2cp := { s.i2cp with ph := .startDone } }.emit .busStart

/-- PS2, address phase, with the drawn answer (R227). -/
def addressStep (k : Ack) (s : State) : State :=
  match k with
  | .ack =>
    { s with
      flags := { s.flags with addr := true, tra := !s.i2cp.shift.getLsbD 0 }
      i2cp := { s.i2cp with ph := .addrAcked } }.emit (.busAddr s.i2cp.shift .ack)
  | .nack =>
    { s with
      flags := { s.flags with af := true }
      i2cp := { s.i2cp with ph := .nacked } }.emit (.busAddr s.i2cp.shift .nack)

/-- PS4, shift-register load (R229). -/
def shiftLoadStep (s : State) : State :=
  { s with
    flags := { s.flags with txe := true }
    i2cp := { s.i2cp with shift := s.i2c.dr, ph := .dataTx } }

/-- PS5, data phase, with the drawn answer (R230). -/
def dataStep (k : Ack) (s : State) : State :=
  match k with
  | .ack =>
    { s with
      flags := { s.flags with btf := true }
      i2cp := { s.i2cp with ph := .dataDone } }.emit (.busData s.i2cp.shift .ack)
  | .nack =>
    { s with
      flags := { s.flags with af := true }
      i2cp := { s.i2cp with ph := .nacked } }.emit (.busData s.i2cp.shift .nack)

/-- PS6, stop generation (R231). -/
def stopStep (s : State) : State :=
  { s with
    i2c := { s.i2c with cr1 := s.i2c.cr1 &&& ~~~mStop }
    flags := { s.flags with msl := false, busy := false, tra := false, btf := false, txe := false }
    i2cp := { s.i2cp with ph := .idle } }.emit .busStop

/-- One turn of `I2CP`: the step whose guard holds, or none (R222). Guards test distinct phases. -/
def i2cpStep (s : State) : State :=
  if accessible s then
    match s.i2cp.ph with
    | .idle => if s.i2c.cr1.getLsbD 8 then startStep s else s
    | .addrTx => addressStep (nextAck s) s.takeAck
    | .dataLoaded => shiftLoadStep s
    | .dataTx => dataStep (nextAck s) s.takeAck
    | .dataDone => if s.i2c.cr1.getLsbD 9 then stopStep s else s
    | .startDone | .addrAcked | .txReady | .nacked => s
  else s

/-- `stk_step` (R164) of an enabled counter. -/
def countStep (s : State) : State :=
  let t := { s with ticks := s.ticks + 1 }
  if s.stk.val = 0 then { t with stk := { s.stk with val := s.stk.load } }
  else if s.stk.val - 1 = 0 then
    { t with stk := { s.stk with val := 0, countflag := true } }.emit .underflow
  else { t with stk := { s.stk with val := s.stk.val - 1 } }

/-- One turn of `STK`: it counts exactly when `STK.CTRL.ENABLE = 1` (R164; log 2, log 26). -/
def stkStep (s : State) : State := if s.stk.enable then countStep s else s

end Sys2Proof.Machine
end

