-- ==== Sys2Proof/WellFormed.lean ====
section
/-! DEFINITION. Which commands have an encoding (30_encoding R102, R107, R117), and which command
streams the model gives a run to (45_display R315). -/

namespace Sys2Proof

/-- The operand bounds of R117 that the operand types do not already carry. -/
def Instr.wf : Instr → Bool
  | .delay ms => decide (ms < 2 ^ 28)
  | .i2cw _ _ => true
  | .nyb _ _ => true
  | .cmd _ => true
  | .data _ => true
  | .initBus => true
  | .lcdInit => true
  | .clear => true
  | .print p => decide (p < 2 ^ 16)
  | .idle => true

/-- The commands R315 item 3 allows after an LCDINIT. -/
def Instr.allowedWhenReady : Instr → Bool
  | .cmd _ | .data _ | .print _ | .clear | .delay _ | .idle => true
  | .i2cw _ _ | .nyb _ _ | .initBus | .lcdInit => false

/-- R315 items 1 to 4, one word at a time: `busDone` says an INIT_BUS has been passed, `lcdDone` an
LCDINIT. `none` is an illegal word, which is no ground for refusal; nothing after the first IDLE is
checked. -/
def streamWf (busDone lcdDone : Bool) : List (Option Instr) → Bool
  | [] => true
  | none :: rest => streamWf busDone lcdDone rest
  | some i :: rest =>
    if i = .idle then true
    else if lcdDone && !i.allowedWhenReady then false
    else if i = .initBus then !busDone && streamWf true lcdDone rest
    else if i = .lcdInit then streamWf busDone true rest
    else streamWf busDone lcdDone rest

end Sys2Proof
end

