-- ==== Sys2Proof/Decode.lean ====
section
/-! DEFINITION. Decoding a command word (30_encoding R112), total and rejecting by name, and the encoder
written from the same formats (R102 to R107). -/

namespace Sys2Proof

/-- Why no command is read (R110; R100 for bytes that do not make a word). -/
inductive IllegalWord where
  /-- OP is 0x0 or 0xA to 0xE. -/
  | reservedOpcode
  /-- A reserved bit of a legal format is not 0. -/
  | reservedBits
  /-- Fewer than four bytes are left in a byte image. -/
  | truncated
  deriving DecidableEq, Repr, Inhabited

/-- `Command | Illegal` of R112. -/
inductive Decoded where
  | command (i : Instr)
  | illegal (why : IllegalWord)
  deriving DecidableEq, Repr, Inhabited

/-- `W[lo+len-1 : lo]` (00_scope R8). -/
def field (w : Word) (lo len : Nat) : BitVec len := w.extractLsb' lo len

/-- Accept a command when the reserved bits of its format are 0 (R110). -/
def whenReservedZero (isZero : Bool) (i : Instr) : Decoded :=
  if isZero then .command i else .illegal .reservedBits

/-- R112, row by row. -/
def decode (w : Word) : Decoded :=
  match (field w 28 4).toNat with
  | 0x1 => .command (.delay (field w 0 28).toNat)
  | 0x2 => whenReservedZero (field w 15 13 == 0) (.i2cw (field w 8 7) (field w 0 8))
  | 0x3 => whenReservedZero (field w 9 19 == 0 && field w 0 4 == 0) (.nyb (field w 4 4) (field w 8 1))
  | 0x4 => whenReservedZero (field w 8 20 == 0) (.cmd (field w 0 8))
  | 0x5 => whenReservedZero (field w 8 20 == 0) (.data (field w 0 8))
  | 0x6 => whenReservedZero (field w 0 28 == 0) .initBus
  | 0x7 => whenReservedZero (field w 0 28 == 0) .lcdInit
  | 0x8 => whenReservedZero (field w 0 28 == 0) .clear
  | 0x9 => whenReservedZero (field w 16 12 == 0) (.print (field w 0 16).toNat)
  | 0xF => whenReservedZero (field w 0 28 == 0) .idle
  | _ => .illegal .reservedOpcode

/-- The command read, if one is. -/
def Decoded.instr? : Decoded → Option Instr
  | .command i => some i
  | .illegal _ => none

/-- A row of the opcode map (R109, opcode_table.json). -/
structure OpcodeRow where
  mnemonic : String
  matchWord : Word
  mask : Word
  deriving DecidableEq, Repr, Inhabited

/-- The opcode map (R109). -/
def opcodeTable : List OpcodeRow :=
  [⟨"DELAY", 0x1000_0000, 0xF000_0000⟩, ⟨"I2CW", 0x2000_0000, 0xFFFF_8000⟩,
   ⟨"NYB", 0x3000_0000, 0xFFFF_FE0F⟩, ⟨"CMD", 0x4000_0000, 0xFFFF_FF00⟩,
   ⟨"DATA", 0x5000_0000, 0xFFFF_FF00⟩, ⟨"INIT_BUS", 0x6000_0000, 0xFFFF_FFFF⟩,
   ⟨"LCDINIT", 0x7000_0000, 0xFFFF_FFFF⟩, ⟨"CLEAR", 0x8000_0000, 0xFFFF_FFFF⟩,
   ⟨"PRINT", 0x9000_0000, 0xFFFF_0000⟩, ⟨"IDLE", 0xF000_0000, 0xFFFF_FFFF⟩]

/-- A word selects a row when `(W & mask) = match` (R109). -/
def OpcodeRow.selectedBy (r : OpcodeRow) (w : Word) : Bool := w &&& r.mask == r.matchWord

/-- The mnemonic of a command (R109). -/
def Instr.mnemonic : Instr → String
  | .delay _ => "DELAY"
  | .i2cw _ _ => "I2CW"
  | .nyb _ _ => "NYB"
  | .cmd _ => "CMD"
  | .data _ => "DATA"
  | .initBus => "INIT_BUS"
  | .lcdInit => "LCDINIT"
  | .clear => "CLEAR"
  | .print _ => "PRINT"
  | .idle => "IDLE"

/-- The word of a command, as the command's rule writes it: opcode, then each operand at its place (R160,
R220, R271 to R273; formats R102 to R107). -/
def encode : Instr → Word
  | .delay ms => 0x1000_0000 ||| (BitVec.ofNat 28 ms).setWidth 32
  | .i2cw addr byte => 0x2000_0000 ||| (addr.setWidth 32 <<< 8) ||| byte.setWidth 32
  | .nyb nyb rs => 0x3000_0000 ||| (rs.setWidth 32 <<< 8) ||| (nyb.setWidth 32 <<< 4)
  | .cmd b => 0x4000_0000 ||| b.setWidth 32
  | .data b => 0x5000_0000 ||| b.setWidth 32
  | .initBus => 0x6000_0000
  | .lcdInit => 0x7000_0000
  | .clear => 0x8000_0000
  | .print p => 0x9000_0000 ||| (BitVec.ofNat 16 p).setWidth 32
  | .idle => 0xF000_0000

/-- The host byte image of one command word, little-endian (20_memory R73). -/
def wordBytes (w : Word) : List Byte :=
  [field w 0 8, field w 8 8, field w 16 8, field w 24 8]

/-- The word of four bytes, the first in bits 7:0 (R73). -/
def bytesWord (b0 b1 b2 b3 : Byte) : Word :=
  b0.setWidth 32 ||| (b1.setWidth 32 <<< 8) ||| (b2.setWidth 32 <<< 16) ||| (b3.setWidth 32 <<< 24)

/-- Decode the first command word of a byte image (R73) and give what is left of the image. -/
def decodeBytes : List Byte → Decoded × List Byte
  | b0 :: b1 :: b2 :: b3 :: rest => (decode (bytesWord b0 b1 b2 b3), rest)
  | _ => (.illegal .truncated, [])

/-- The word whose low `nbits` bits are those of `w`. -/
def tableWord (nbits w : Nat) : Word := BitVec.ofNat 32 (w % 2 ^ nbits)

/-- The instruction the decoder reads from a row of opcode_table.json, through the byte image. -/
def decodeTableWord (nbits w : Nat) : Option Instr :=
  (decodeBytes (wordBytes (tableWord nbits w))).1.instr?

end Sys2Proof
end

