-- ==== Sys2Proof/Machine/BusInit.lean ====
section
/-! DEFINITION. INIT_BUS (42_businit R190 to R194). -/

namespace Sys2Proof.Machine

/-- `afr_ops(n)` (R190): the alternate-function field of pin `n`. -/
def afrOps (c : Config) (n : Fin 16) : List MicroOp :=
  opFld (regAddr c (if n.val < 8 then .gpioAfrl else .gpioAfrh))
    (0xF#32 <<< (4 * (n.val % 8))) (c.afNum.setWidth 32 <<< (4 * (n.val % 8)))

/-- `reset_ops` (R190, R192): assert then at once de-assert the reset bit `RESET_STYLE` chooses. -/
def resetOps (c : Config) : List MicroOp :=
  match c.resetStyle with
  | .rcc => opSet (regAddr c .rccApb1rstr) (mI2c c) ++ opClr (regAddr c .rccApb1rstr) (mI2c c)
  | .swrst => opSet (regAddr c .i2cCr1) mSwrst ++ opClr (regAddr c .i2cCr1) mSwrst

/-- `initbus_ops` (R190): clocks (R191), reset (R192), pins (R193), peripheral (R194). -/
def initbusOps (c : Config) : List MicroOp :=
  opSet (regAddr c .rccAhb1enr) (1 <<< gpioBit c)
    ++ opSet (regAddr c .rccApb1enr) (mI2c c)
    ++ resetOps c
    ++ opFld (regAddr c .gpioModer) (two2 c 3) (two2 c 2)
    ++ afrOps c c.pinScl ++ afrOps c c.pinSda
    ++ opSet (regAddr c .gpioOtyper) (pinBits c)
    ++ opFld (regAddr c .gpioOspeedr) (two2 c 3) (two2 c 3)
    ++ opFld (regAddr c .gpioPupdr) (two2 c 3) (two2 c 1)
    ++ opClr (regAddr c .i2cCr1) mPe
    ++ opClr (regAddr c .i2cCcr) mFs
    ++ opFld (regAddr c .i2cCcr) mCcr (BitVec.ofNat 32 (ccrVal c))
    ++ opSet (regAddr c .i2cCr1) mPe

/-- INIT_BUS (R190). -/
def execInitBus (s : State) : Result :=
  .next (s.startCommand (initbusOps s.cfg))

end Sys2Proof.Machine
end

