-- ==== Sys2Proof/Machine/Delay.lean ====
section
/-! DEFINITION. DELAY (41_timer R160 to R163). -/

namespace Sys2Proof.Machine

/-- `delay_ops(n)` (R160): arm with LOAD, VAL, CTRL in that order (R161), wait, disarm (R162). -/
def delayOps (c : Config) (n : Nat) : List MicroOp :=
  [.wr (regAddr c .stkLoad) (BitVec.ofNat 32 (reload c))]
    ++ (if c.armClearsVal then [.wr (regAddr c .stkVal) 0] else [])
    ++ [.wr (regAddr c .stkCtrl) 0x0000_0005]
    ++ (if n > 0 then [.tickwait n] else [])
    ++ [.wr (regAddr c .stkCtrl) 0x0000_0000]

/-- DELAY ms (R160). -/
def execDelay (ms : Nat) (s : State) : Result :=
  .next (s.startCommand (delayOps s.cfg ms))

end Sys2Proof.Machine
end

