-- ==== Sys2Proof/Machine/I2cWrite.lean ====
section
/-! DEFINITION. I2CW (43_i2c R220). -/

namespace Sys2Proof.Machine

/-- `i2cw_ops(a, b)` (R220): start, address byte, the two status reads, data byte, stop, each phase after
its poll (R389). -/
def i2cwOps (c : Config) (a : BitVec 7) (b : Byte) : List MicroOp :=
  opSet (regAddr c .i2cCr1) mStart
    ++ [.poll (regAddr c .i2cSr1) mSb]
    ++ [.wr (regAddr c .i2cDr) ((addrByte a).setWidth 32)]
    ++ [.poll (regAddr c .i2cSr1) mAddr]
    ++ [.rd (regAddr c .i2cSr1), .rd (regAddr c .i2cSr2)]
    ++ [.poll (regAddr c .i2cSr1) mTxe]
    ++ [.wr (regAddr c .i2cDr) (b.setWidth 32)]
    ++ [.poll (regAddr c .i2cSr1) mBtf]
    ++ opSet (regAddr c .i2cCr1) mStop

/-- I2CW addr, byte (R220). -/
def execI2cw (addr : BitVec 7) (byte : Byte) (s : State) : Result :=
  .next (s.startCommand (i2cwOps s.cfg addr byte))

end Sys2Proof.Machine
end

