-- ==== Sys2Proof/Machine/Nybble.lean ====
section
/-! DEFINITION. NYB, CMD and DATA (44_nybble R271 to R273). -/

namespace Sys2Proof.Machine

/-- `nyb_ops(d, r)` (R271): the enable-high byte, `T_PULSE`, the enable-low byte. -/
def nybOps (c : Config) (d : BitVec 4) (r : BitVec 1) : List MicroOp :=
  i2cwOps c slaveAddr (pack d 1 r) ++ delayOps c tPulse ++ i2cwOps c slaveAddr (pack d 0 r)

/-- A byte as two nybbles, high first, with one RS for both (R272, R273). -/
def byteOps (c : Config) (b : Byte) (r : BitVec 1) : List MicroOp :=
  nybOps c (highNyb b) r ++ nybOps c (lowNyb b) r

/-- `expand(CMD(b))` (R272). -/
def cmdOps (c : Config) (b : Byte) : List MicroOp := byteOps c b 0

/-- `expand(DATA(b))` (R273). -/
def dataOps (c : Config) (b : Byte) : List MicroOp := byteOps c b 1

/-- NYB nyb, rs (R271). -/
def execNyb (nyb : BitVec 4) (rs : BitVec 1) (s : State) : Result :=
  .next (s.startCommand (nybOps s.cfg nyb rs))

/-- CMD b (R272). -/
def execCmd (b : Byte) (s : State) : Result :=
  .next (s.startCommand (cmdOps s.cfg b))

/-- DATA b (R273). -/
def execData (b : Byte) (s : State) : Result :=
  .next (s.startCommand (dataOps s.cfg b))

end Sys2Proof.Machine
end

