-- ==== Sys2Proof/Machine/Display.lean ====
section
/-! DEFINITION. LCDINIT, CLEAR, PRINT and IDLE (45_display R310 to R313). -/

namespace Sys2Proof.Machine

/-- One reset nybble and its gap (R310; 90_conflicts C2: three gaps). -/
def resetNybOps (c : Config) : List MicroOp :=
  nybOps c (highNyb nybReset) 0 ++ delayOps c tResetGap

/-- The part of LCDINIT before the 4-bit nybble (R310, R314 PoweredWaking). -/
def wakeOps (c : Config) : List MicroOp :=
  delayOps c tPowerOn ++ resetNybOps c ++ resetNybOps c ++ resetNybOps c

/-- The three configuration commands (R310, R314 Configured). -/
def configureOps (c : Config) : List MicroOp :=
  cmdOps c cmdFunctionSet ++ cmdOps c (cmdDisplayControl c) ++ cmdOps c cmdEntryMode

/-- `lcdinit_ops` (R310). -/
def lcdinitOps (c : Config) : List MicroOp :=
  wakeOps c ++ nybOps c (highNyb nyb4Bit) 0 ++ configureOps c

/-- `expand(CLEAR)` (R311). -/
def clearOps (c : Config) : List MicroOp := cmdOps c cmdClear ++ delayOps c tClear

/-- One printed character (R312). -/
def charOps (c : Config) (b : Byte) : List MicroOp := dataOps c b ++ delayOps c tChar

/-- LCDINIT (R310). -/
def execLcdInit (s : State) : Result :=
  .next (s.startCommand (lcdinitOps s.cfg))

/-- CLEAR (R311). -/
def execClear (s : State) : Result :=
  .next (s.startCommand (clearOps s.cfg))

/-- PRINT p (R312). -/
def execPrint (p : Nat) (s : State) : Result :=
  .next (s.startCommand [.strch p])

/-- IDLE (R313). -/
def execIdle (s : State) : Result :=
  .next (s.startCommand [.halt])

end Sys2Proof.Machine
end

