-- ==== Sys2Proof/Machine/Dispatch.lean ====
section
/-! DEFINITION. One arm per command: its meaning (40_microops R143). -/

namespace Sys2Proof.Machine

def exec (i : Instr) (s : State) : Host.Outcome State Fault Refusal :=
  match i with
  | .delay ms => Sys2Proof.Machine.execDelay ms s
  | .i2cw addr byte => Sys2Proof.Machine.execI2cw addr byte s
  | .nyb nyb rs => Sys2Proof.Machine.execNyb nyb rs s
  | .cmd b => Sys2Proof.Machine.execCmd b s
  | .data b => Sys2Proof.Machine.execData b s
  | .initBus => Sys2Proof.Machine.execInitBus s
  | .lcdInit => Sys2Proof.Machine.execLcdInit s
  | .clear => Sys2Proof.Machine.execClear s
  | .print p => Sys2Proof.Machine.execPrint p s
  | .idle => Sys2Proof.Machine.execIdle s

end Sys2Proof.Machine
end

