-- ==== Sys2Proof/Machine/Micro.lean ====
section
/-! DEFINITION. The micro-operations (40_microops R132 to R142), run at the head of the micro-queue. -/

namespace Sys2Proof.Machine

/-- `RD a` (R132). -/
def runRd (a : Word) (s : State) : Result :=
  andThen (memRead a s) fun r => .next r.2.pop

/-- `WR a v` (R133); a fault empties the queue instead of the pop (60_exceptions R352). -/
def runWr (a v : Word) (s : State) : Result := memWrite a v s.pop

/-- `LDT a` (R134). -/
def runLdt (a : Word) (s : State) : Result :=
  andThen (memRead a s) fun r => .next { r.2.pop with tmp := r.1 }

/-- `STOR a m` (R135). -/
def runStor (a m : Word) (s : State) : Result := memWrite a (s.tmp ||| m) s.pop

/-- `STANDN a m` (R136). -/
def runStandn (a m : Word) (s : State) : Result := memWrite a (s.tmp &&& ~~~m) s.pop

/-- `STFLD a m v` (R137). -/
def runStfld (a m v : Word) (s : State) : Result :=
  memWrite a ((s.tmp &&& ~~~m) ||| (v &&& m)) s.pop

/-- `POLL a m` (R138): pop when every bit of `m` reads 1, else stay. -/
def runPoll (a m : Word) (s : State) : Result :=
  andThen (memRead a s) fun r => .next (if r.1 &&& m = m then r.2.pop else r.2)

/-- `TICKWAIT k` (R139): a read of `STK.CTRL` that returns COUNTFLAG = 1 counts one (`k = 0`: log 31). -/
def runTickwait (k : Nat) (s : State) : Result :=
  andThen (memRead (regAddr s.cfg .stkCtrl) s) fun r =>
    .next (if r.1.getLsbD 16 then
      if k = 1 then r.2.pop else { r.2 with mq := .tickwait (k - 1) :: r.2.mq.tail }
    else r.2)

/-- `STRCH p` (R140). -/
def runStrch (p : Nat) (s : State) : Result :=
  if p ≥ s.cfg.strmemSize then .next (s.raise (.stringOverrun (currentCommand s) p))
  else
    let c := s.str.read p
    let t := s.emit (.str p c)
    .next (if c = 0x00 then t.pop
      else { t with mq := charOps s.cfg c ++ [.strch (p + 1)] ++ s.mq.tail })

/-- `HALT` (R141): the queue keeps the HALT. -/
def runHalt (s : State) : Result := .next { s with status := .idle }

/-- Run one micro-operation, the head of the queue. -/
def runOp (op : MicroOp) (s : State) : Result :=
  match op with
  | .rd a => runRd a s
  | .wr a v => runWr a v s
  | .ldt a => runLdt a s
  | .stor a m => runStor a m s
  | .standn a m => runStandn a m s
  | .stfld a m v => runStfld a m v s
  | .poll a m => runPoll a m s
  | .tickwait k => runTickwait k s
  | .strch p => runStrch p s
  | .halt => runHalt s

/-- The micro-operation stores to `a` (R142; log 18). -/
def MicroOp.storesTo (op : MicroOp) (a : Word) : Bool :=
  match op with
  | .stor b _ => b == a
  | .standn b _ => b == a
  | .stfld b _ _ => b == a
  | _ => false

/-- One step's worth of a nonempty queue: one micro-operation, or with `RMW_ATOMIC` an `LDT` and the store
on the same address that follows it (R131, R142). -/
def runQueue (s : State) : Result :=
  match s.mq with
  | [] => .next s
  | .ldt a :: op :: _ =>
    if s.cfg.rmwAtomic && op.storesTo a then andThen (runLdt a s) (runOp op) else runLdt a s
  | op :: _ => runOp op s

end Sys2Proof.Machine
end

