-- ==== Sys2Proof/Machine/Sequencer.lean ====
section
/-! DEFINITION. One step of the sequencer (40_microops R131) and placing a command word where it fetches. -/

namespace Sys2Proof.Machine

/-- `Fetch(CP)` (20_memory R84). -/
def fetchWord (s : State) : Option Word := s.cs[s.cp]?

/-- The fetch half of R131: end of stream is IDLE, an illegal word faults, a command starts. -/
def fetchStep (s : State) : Result :=
  match fetchWord s with
  | none => .next { s with mq := [.halt] }
  | some w =>
    match decode w with
    | .illegal _ => .next (s.raise (.illegalCommand s.cp w))
    | .command i => exec i s

/-- One turn of `SEQ`, enabled exactly when the status is Running (R131). -/
def seqStep (s : State) : Result :=
  match s.status with
  | .running => if s.mq = [] then fetchStep s else runQueue s
  | .idle => .next s
  | .faulted _ => .next s

/-- One turn of an agent; with no step enabled it changes nothing (log 2). -/
def agentStep (a : Agent) (s : State) : Result :=
  match a with
  | .seq => seqStep s
  | .i2cp => .next (i2cpStep s)
  | .stk => .next (stkStep s)

/-- `w` at index `n` of a stream, with zero words below it where the stream is shorter. -/
def placeWord : List Word → Nat → Word → List Word
  | [], 0, w => [w]
  | _ :: rest, 0, w => w :: rest
  | [], n + 1, w => 0 :: placeWord [] n w
  | v :: rest, n + 1, w => v :: placeWord rest n w

/-- Place a command word so that the very next step fetches and runs it: at `CS[CP]`, with the sequencer
running, nothing left of an earlier command, and the sequencer's turn (log 7). -/
def placeForFetch (s : State) (w : Word) : State :=
  { s with
    cs := placeWord s.cs s.cp w
    mq := []
    status := .running
    env := { s.env with sched := .seq :: s.env.sched } }

end Sys2Proof.Machine
end

