-- ==== Sys2Proof/Machine/Step.lean ====
section
/-! DEFINITION. The machine's step: the schedule's next agent takes its turn (10_state R20, 40_microops
R145); a faulted block takes none (60_exceptions R352). -/

namespace Sys2Proof.Machine

/-- One step of the machine. -/
def step (s : State) : Host.Outcome State Fault Refusal :=
  match s.status with
  | .faulted f => .fault (.stopped f)
  | .running | .idle => agentStep (nextAgent s) s.takeTurn

/-- `s` with the instruction whose bits are `w` (the bits above `nbits` zero) stored where `step` fetches
its next command. -/
def State.withFetchWord (s : State) (nbits w : Nat) : State :=
  placeForFetch s (tableWord nbits w)

end Sys2Proof.Machine
end

