-- ==== Sys2Proof/Machine/Assembler.lean ====
section
/-! DEFINITION. The assembler syntax of 30_encoding R117 and the pseudo-instructions and directive of
R118, from text to launch data. -/

namespace Sys2Proof.Machine

/-- A line of assembler, operands as written (R117, R118). -/
inductive AsmLine where
  | blank
  | delay (ms : Nat)
  | i2cw (addr byte : Nat)
  | nyb (value rs : Nat)
  | cmd (b : Nat)
  | data (b : Nat)
  | initBus
  | lcdInit
  | clear
  | print (p : Nat)
  | idle
  | putc (b : Nat)
  | boot (p : Nat)
  | str (p : Nat) (text : List Byte)
  deriving DecidableEq, Repr, Inhabited

/-- The commands of a line, or an assembly error when an operand is outside its constraint (R117). -/
def AsmLine.commands : AsmLine → Option (List Instr)
  | .blank => some []
  | .delay ms => if ms < 2 ^ 28 then some [.delay ms] else none
  | .i2cw addr byte =>
    if addr < 0x80 ∧ byte < 0x100 then some [.i2cw (BitVec.ofNat 7 addr) (BitVec.ofNat 8 byte)] else none
  | .nyb value rs =>
    if value < 0x100 ∧ value % 16 = 0 ∧ rs ≤ 1 then
      some [.nyb (BitVec.ofNat 4 (value / 16)) (BitVec.ofNat 1 rs)]
    else none
  | .cmd b => if b < 0x100 then some [.cmd (BitVec.ofNat 8 b)] else none
  | .data b => if b < 0x100 then some [.data (BitVec.ofNat 8 b)] else none
  | .initBus => some [.initBus]
  | .lcdInit => some [.lcdInit]
  | .clear => some [.clear]
  | .print p => if p < 0x10000 then some [.print p] else none
  | .idle => some [.idle]
  | .putc b => if b < 0x100 then some [.data (BitVec.ofNat 8 b), .delay 10] else none
  | .boot p =>
    if p < 0x10000 then some [.initBus, .lcdInit, .clear, .print p, .idle] else none
  | .str _ _ => some []

/-- The launch data a program assembles to. -/
structure Image where
  cs : List Word
  str : Memory
  deriving DecidableEq, Repr, Inhabited

/-- The `.str` directive places its bytes and a 0x00 after them inside the string memory (R118; log 22). -/
def AsmLine.strings (size : Nat) (m : Memory) : AsmLine → Option Memory
  | .str p text => if p + text.length < size then some (m.load p (text ++ [0x00])) else none
  | _ => some m

/-- Assemble lines in order; an assembly error anywhere emits nothing. Where the bytes of two `.str` overlap, the
later line's hold (log 22, DESIGN CHOICE: R118 does not say). -/
def assembleLines (size : Nat) : List AsmLine → Image → Option Image
  | [], img => some img
  | l :: rest, img =>
    match l.commands, l.strings size img.str with
    | some is, some m => assembleLines size rest { cs := img.cs ++ is.map encode, str := m }
    | _, _ => none

/-! ### Text -/

/-- The pieces of a line. -/
inductive Token where
  | name (cs : List Char)
  | num (n : Nat)
  | comma
  | text (bs : List Byte)
  deriving DecidableEq, Repr, Inhabited

/-- Where the reader of a line stands. -/
inductive LexMode where
  | plain
  | comment
  | word (rev : List Char)
  | text (rev : List Byte)
  | quoteOpen
  | quoteClose (b : Byte)
  deriving DecidableEq, Repr, Inhabited

/-- A digit's value, when it is a digit of the base, at most 16; `a` to `f` in either case (log 22). -/
def digitValue (base : Nat) (c : Char) : Option Nat :=
  let n := c.toNat
  let value :=
    if 48 ≤ n ∧ n ≤ 57 then some (n - 48)
    else if 97 ≤ n ∧ n ≤ 102 then some (n - 87)
    else if 65 ≤ n ∧ n ≤ 70 then some (n - 55)
    else none
  value.filter (· < base)

/-- Digits of a base, most significant first, after a value. One `_` may stand between two digits, as in the
spec's own `DELAY 0x0FFF_FFFF` (95_test_vectors V-DELAY-6); R117 does not say (log 22, DESIGN CHOICE). -/
def digits (base : Nat) : Nat → List Char → Option Nat
  | acc, [] => some acc
  | acc, '_' :: c :: cs =>
    match digitValue base c with
    | some d => digits base (acc * base + d) cs
    | none => none
  | acc, c :: cs =>
    match digitValue base c with
    | some d => digits base (acc * base + d) cs
    | none => none

/-- A numeral of a base: it begins with a digit. -/
def numeral (base : Nat) : List Char → Option Nat
  | c :: cs => (digitValue base c).bind fun d => digits base d cs
  | [] => none

/-- A number, decimal or `0x` hexadecimal (R117). -/
def number : List Char → Option Nat
  | '0' :: 'x' :: cs => numeral 16 cs
  | cs => numeral 10 cs

/-- A word of a line: a number when it begins with a decimal digit, else a name. -/
def wordToken (w : List Char) : Option Token :=
  match w with
  | c :: _ => if 48 ≤ c.toNat ∧ c.toNat ≤ 57 then (number w).map Token.num else some (.name w)
  | [] => none

/-- Read a character outside any word or text. -/
def plainChar (c : Char) (out : List Token) : LexMode × List Token :=
  if c = ';' then (.comment, out)
  else if c = ' ' ∨ c = '\t' ∨ c = '\r' then (.plain, out)
  else if c = ',' then (.plain, .comma :: out)
  else if c = '"' then (.text [], out)
  else if c = '\'' then (.quoteOpen, out)
  else (.word [c], out)

/-- A character that ends a word. -/
def endsWord (c : Char) : Bool :=
  c == ';' || c == ' ' || c == '\t' || c == '\r' || c == ',' || c == '"' || c == '\''

/-- A character's byte value (R117: "A character in single quotes stands for its byte value"). -/
def charByte (c : Char) : Option Byte :=
  if c.toNat < 256 then some (BitVec.ofNat 8 c.toNat) else none

/-- Read one character of a line. -/
def lexChar (mode : LexMode) (out : List Token) (c : Char) : Option (LexMode × List Token) :=
  match mode with
  | .plain => some (plainChar c out)
  | .comment => some (.comment, out)
  | .word rev =>
    if endsWord c then (wordToken rev.reverse).map fun t => plainChar c (t :: out)
    else some (.word (c :: rev), out)
  | .text rev =>
    if c = '"' then some (.plain, .text rev.reverse :: out)
    else (charByte c).map fun b => (.text (b :: rev), out)
  | .quoteOpen => (charByte c).map fun b => (.quoteClose b, out)
  | .quoteClose b => if c = '\'' then some (.plain, .num b.toNat :: out) else none

/-- The tokens of a line. -/
def lexLine : LexMode → List Token → List Char → Option (List Token)
  | .plain, out, [] => some out.reverse
  | .comment, out, [] => some out.reverse
  | .word rev, out, [] => (wordToken rev.reverse).map fun t => (t :: out).reverse
  | .text _, _, [] => none
  | .quoteOpen, _, [] => none
  | .quoteClose _, _, [] => none
  | mode, out, c :: cs =>
    match lexChar mode out c with
    | some r => lexLine r.1 r.2 cs
    | none => none

/-- The line a list of tokens stands for (R117, R118). -/
def parseTokens : List Token → Option AsmLine
  | [] => some .blank
  | [.name m] =>
    if m = "INITBUS".toList then some .initBus
    else if m = "LCDINIT".toList then some .lcdInit
    else if m = "CLEAR".toList then some .clear
    else if m = "IDLE".toList then some .idle
    else none
  | [.name m, .num a] =>
    if m = "DELAY".toList then some (.delay a)
    else if m = "CMD".toList then some (.cmd a)
    else if m = "DATA".toList then some (.data a)
    else if m = "PRINT".toList then some (.print a)
    else if m = "PUTC".toList then some (.putc a)
    else if m = "BOOT".toList then some (.boot a)
    else none
  | [.name m, .num a, .comma, .num b] =>
    if m = "I2CW".toList then some (.i2cw a b)
    else if m = "NYB".toList then some (.nyb a b)
    else none
  | [.name m, .num a, .comma, .text t] =>
    if m = ".str".toList then some (.str a t) else none
  | _ => none

/-- The line a piece of text stands for. -/
def parseLine (cs : List Char) : Option AsmLine := (lexLine .plain [] cs).bind parseTokens

/-- The lines of a text: one command per line (R117). -/
def splitLines : List Char → List Char → List (List Char)
  | rev, [] => [rev.reverse]
  | rev, c :: cs => if c = '\n' then rev.reverse :: splitLines [] cs else splitLines (c :: rev) cs

/-- Parse lines in order. -/
def parseLines : List (List Char) → Option (List AsmLine)
  | [] => some []
  | l :: rest =>
    match parseLine l, parseLines rest with
    | some a, some as => some (a :: as)
    | _, _ => none

/-- Assemble a text for a string memory of `size` bytes; none is an assembly error. -/
def assemble (size : Nat) (text : List Char) : Option Image :=
  (parseLines (splitLines [] text)).bind fun ls => assembleLines size ls { cs := [], str := [] }

end Sys2Proof.Machine
end

