-- ==== Sys2Proof/Machine/Launch.lean ====
section
/-! DEFINITION. What the host does before and between runs: the checks of 60_exceptions R357, the launch
of 70_reset R384, a reset of the block (R380), and the boot stream's launch data (45_display R316). -/

namespace Sys2Proof.Machine

/-- The constraints of 00_scope R6 on a configuration. -/
def configOk (c : Config) : Bool :=
  decide (1 ≤ reload c) && decide (reload c ≤ 0xFFFFFF)
    && decide (4 ≤ ccrVal c) && decide (ccrVal c ≤ 0xFFF)
    && decide (c.pinScl ≠ c.pinSda)
    && decide (1 ≤ c.strmemSize) && decide (c.strmemSize ≤ 65536)

/-- The conditions of 45_display R315 on a command stream. -/
def streamOk (cs : List Word) : Bool :=
  streamWf false false (cs.map fun w => (decode w).instr?)

/-- Launch (R384): refuse a bad configuration or an ill-formed stream (R357; log 20), else release reset with
the launch data loaded. `d` are the values the reset draws. -/
def launch (c : Config) (d : ResetDraws) (cs : List Word) (str : Memory) : Result :=
  if !configOk c then .refused .badConfig
  else if !streamOk cs then .refused .illFormedStream
  else .next { State.powerOn c d with cs := cs, str := str }

/-- A reset of the block (R380): the launch data and the observer stay, everything else takes its reset
value or a new draw. -/
def State.blockReset (s : State) (d : ResetDraws) : State :=
  State.afterReset s.cfg s.cs s.str d s.obs s.env

/-- `CS_BOOT` (R316). -/
def bootStream : List Word :=
  [encode .initBus, encode .lcdInit, encode .clear, encode (.print 0), encode .idle]

/-- The bytes of `STR_BOOT` before its first 0x00: "Hello World!" (R316). -/
def bootText : List Byte :=
  [0x48, 0x65, 0x6C, 0x6C, 0x6F, 0x20, 0x57, 0x6F, 0x72, 0x6C, 0x64, 0x21]

/-- `STR_BOOT` (R316). -/
def bootString : Memory := Memory.load [] 0 (bootText ++ [0x00])

end Sys2Proof.Machine
end

