-- ==== Sys2Proof/Machine/Views.lean ====
section
/-! DEFINITION. What the spec reads off a run: the bus and transaction traces (10_state R57, 43_i2c R234),
the LCD's bytes (44_nybble R276), the source's transaction and display states (43_i2c R221, 45_display
R314), and the bus writes or the bus trace of a run merged with its DELAYs (60_exceptions R365); and the
sends of a list of micro-operations. None of it is state. -/

namespace Sys2Proof.Machine

/-- The `Bus*` events (R57). -/
def Event.isBus : Event → Bool
  | .busStart | .busAddr _ _ | .busData _ _ | .busStop => true
  | .rd _ _ | .wr _ _ | .str _ _ | .underflow | .fault _ => false

/-- The bus trace of a history (R57). -/
def busTrace (h : List Event) : List Event := h.filter Event.isBus

/-- The complete transactions of a bus trace: four adjacent events, valued `(x >> 1, b)` (R234). -/
def transactions : List Event → List (BitVec 7 × Byte)
  | .busStart :: .busAddr x .ack :: .busData b .ack :: .busStop :: rest =>
    (x.extractLsb' 1 7, b) :: transactions rest
  | _ :: rest => transactions rest
  | [] => []

/-- The transaction trace of a history (R57, R234). -/
def transactionTrace (h : List Event) : List (BitVec 7 × Byte) := transactions (busTrace h)

/-- A byte the LCD has received, with its RS (R276). -/
structure LcdByte where
  byte : Byte
  rs : BitVec 1
  deriving DecidableEq, Repr, Inhabited

/-- `pairs` of R276: high nybble first; an unpaired last nybble is pending. -/
def nybPairs : List LcdNyb → List LcdByte
  | h :: l :: rest => { byte := h.d ++ l.d, rs := h.rs } :: nybPairs rest
  | [_] => []
  | [] => []

/-- `lcd_bytes` (R276), meaningful for runs whose first four nybbles are LCDINIT's. -/
def lcdBytes (nybs : List LcdNyb) : List LcdByte := nybPairs (nybs.drop 4)

/-- The source's conceptual transaction states (R221). -/
inductive SourceState where
  | idle | startSent | addressSent | byteTransferring | stopped
  deriving DecidableEq, Repr, Inhabited

/-- The peripheral's phases in a source state: the third column of R221's table. `TX_READY` and `NACKED`
stand in no row; `DATA_DONE` and `IDLE` stand in two. -/
def SourceState.inPhase (st : SourceState) (s : State) : Bool :=
  match st with
  | .idle => s.i2cp.ph == .idle
  | .startSent => s.i2cp.ph == .startDone
  | .addressSent => s.i2cp.ph == .addrTx || s.i2cp.ph == .addrAcked
  | .byteTransferring => s.i2cp.ph == .dataLoaded || s.i2cp.ph == .dataTx || s.i2cp.ph == .dataDone
  | .stopped => (s.i2cp.ph == .dataDone && s.i2c.cr1.getLsbD 9) || s.i2cp.ph == .idle

/-- How many micro-operations of an I2CW are left, by the head of the queue; none outside an I2CW
(R220). -/
def i2cwLeft (c : Config) : List MicroOp → Option Nat
  | .ldt _ :: .stor a m :: _ =>
    if a = regAddr c .i2cCr1 then
      if m = mStart then some 12 else if m = mStop then some 2 else none
    else none
  | .stor a m :: _ =>
    if a = regAddr c .i2cCr1 then
      if m = mStart then some 11 else if m = mStop then some 1 else none
    else none
  | .poll a m :: _ =>
    if a = regAddr c .i2cSr1 then
      if m = mSb then some 10 else if m = mAddr then some 8
      else if m = mTxe then some 5 else if m = mBtf then some 3 else none
    else none
  | .wr a _ :: .poll _ m :: _ =>
    if a = regAddr c .i2cDr then
      if m = mAddr then some 9 else if m = mBtf then some 4 else none
    else none
  | .rd a :: _ =>
    if a = regAddr c .i2cSr1 then some 7 else if a = regAddr c .i2cSr2 then some 6 else none
  | _ => none

/-- A stop request has been written in this run: the peripheral holds it, or the stop is on the bus. -/
def stopRequested (s : State) : Bool :=
  (s.i2cp.ph == .dataDone && s.i2c.cr1.getLsbD 9) || s.hist.contains .busStop

/-- The source's state at a position inside an I2CW (R221, second column). The positions the table leaves
out keep the state before them: the SB poll, the TXE poll (phase `TX_READY`) and the SET of STOP, still to
run. Before its SET of START a transaction is Idle, but for the stop of the one before, still pending, which
is Stopped (log 23, DESIGN CHOICE). -/
def sourceStateWithin (left : Nat) (s : State) : SourceState :=
  if left ≥ 10 then
    if s.i2cp.ph == .dataDone && s.i2c.cr1.getLsbD 9 then .stopped else .idle
  else if left ≥ 8 then .startSent
  else if left ≥ 5 then .addressSent
  else .byteTransferring

/-- The source's transaction state by the sequencer's position (R221). Outside an I2CW it is Stopped once a
transaction's SET of STOP is done, and Idle before; none when a fault of the peripheral has emptied the queue
(log 23, DESIGN CHOICE). -/
def sourceState (s : State) : Option SourceState :=
  match s.status with
  | .faulted (.periphUnmodelled _ _) => none
  | .running | .idle | .faulted _ =>
    match i2cwLeft s.cfg s.mq with
    | some left => some (sourceStateWithin left s)
    | none => some (if stopRequested s then .stopped else .idle)

/-- The source's display states (R314). -/
inductive DisplayPhase where
  | unpowered | poweredWaking | fourBitModeEntered | configured | ready
  deriving DecidableEq, Repr, Inhabited

/-- The phase inside LCDINIT, by how many micro-operations of its expansion are left. -/
def displayPhaseWithin (c : Config) (left : Nat) : DisplayPhase :=
  if left = 0 then .ready
  else if left ≤ (configureOps c).length then .configured
  else if left ≤ (nybOps c (highNyb nyb4Bit) 0 ++ configureOps c).length then .fourBitModeEntered
  else if left < (lcdinitOps c).length then .poweredWaking
  else .unpowered

/-- The display phase, a function of the sequencer's position (R314). An illegal word is fetched only once
LCDINIT is done, so its fault leaves the phase Ready; none when a fault inside LCDINIT has emptied the queue
(log 23, DESIGN CHOICE). -/
def displayPhase (s : State) : Option DisplayPhase :=
  let fetched := s.cs.take s.cp
  if encode .lcdInit ∉ fetched then some .unpowered
  else if fetched.getLast? = some (encode .lcdInit) then
    match s.status with
    | .faulted (.illegalCommand _ _) => some .ready
    | .faulted _ => none
    | .running | .idle =>
      if s.mq = [.halt] then some .ready else some (displayPhaseWithin s.cfg s.mq.length)
  else some .ready

/-- A byte for the bus, or a delay: the entries of the lists below (R365, 95_test_vectors 2.8). -/
inductive Send where
  | byte (b : Byte)
  | delay (ms : Nat)
  deriving DecidableEq, Repr, Inhabited

/-- What a list of micro-operations is to send, in its own order, as 95_test_vectors 2.8 lists it: data
bytes, without the address bytes, and delays. A data byte is the `DR` write after the TXE poll (43_i2c
R220); a delay is what stands between the two `STK.CTRL` writes (41_timer R160). What a RUN has sent is
`State.writesAndDelays` and `State.busTraceAndDelays`. -/
def sends (c : Config) : List MicroOp → List Send
  | .poll _ m :: .wr a v :: rest =>
    if m = mTxe ∧ a = regAddr c .i2cDr then .byte (v.setWidth 8) :: sends c rest else sends c rest
  | .wr a v :: rest =>
    if a = regAddr c .stkCtrl ∧ v = 5 then
      match rest with
      | .tickwait n :: rest' => .delay n :: sends c rest'
      | rest' => .delay 0 :: sends c rest'
    else sends c rest
  | _ :: rest => sends c rest
  | [] => []

/-! ### A run's bus writes and bus trace, merged with its DELAYs (60_exceptions R365) -/

/-- The byte a `Wr` event to `I2C.DR` writes: an address byte or a data byte (43_i2c R226). -/
def Event.drByte (c : Config) : Event → Option Byte
  | .wr a v => if a = regAddr c .i2cDr then some (v.setWidth 8) else none
  | .rd _ _ | .str _ _ | .busStart | .busAddr _ _ | .busData _ _ | .busStop | .underflow | .fault _ => none

/-- The event is a DELAY's arm: its write of 5 to `STK.CTRL` (41_timer R160, R161). -/
def Event.armsDelay (c : Config) (e : Event) : Bool := e == .wr (regAddr c .stkCtrl) 0x0000_0005

/-- The event is a DELAY's last: its write of 0 to `STK.CTRL` (41_timer R160, R162). -/
def Event.endsDelay (c : Config) (e : Event) : Bool := e == .wr (regAddr c .stkCtrl) 0x0000_0000

/-- The event is a read of `STK.CTRL` with COUNTFLAG = 1: one iteration of a DELAY's wait (41_timer R163). -/
def Event.countsMs (c : Config) : Event → Bool
  | .rd a v => a == regAddr c .stkCtrl && v.getLsbD 16
  | .wr _ _ | .str _ _ | .busStart | .busAddr _ _ | .busData _ _ | .busStop | .underflow | .fault _ => false

/-- The `ms` of the DELAY whose arm stands right before these events: its successful reads, exactly `ms` when
it ends (41_timer R163), and `left` more where the events end before it does (log 33). -/
def delayCount (c : Config) (left : Nat) : List Event → Nat
  | [] => left
  | e :: rest =>
    if e.endsDelay c then 0 else (if e.countsMs c then 1 else 0) + delayCount c left rest

/-- The iterations a DELAY in progress still has to wait for (40_microops R139). -/
def waitLeft : List MicroOp → Nat
  | .tickwait k :: _ => k
  | _ => 0

/-- The `Wr` events to `I2C.DR` of a history, merged with its DELAYs (R365): "the exact ordered sequence of
simulated bus writes and delay calls". A DELAY stands where it is armed (log 33). -/
def writesAndDelays (c : Config) (left : Nat) : List Event → List Send
  | [] => []
  | e :: rest =>
    let later := writesAndDelays c left rest
    if e.armsDelay c then .delay (delayCount c left rest) :: later
    else match e.drByte c with
      | some b => .byte b :: later
      | none => later

/-- An entry of the bus trace merged with the DELAYs (R365). -/
inductive Observed where
  | bus (e : Event)
  | delay (ms : Nat)
  deriving DecidableEq, Repr, Inhabited

/-- The bus event of an entry. -/
def Observed.event? : Observed → Option Event
  | .bus e => some e
  | .delay _ => none

/-- The delay of an entry. -/
def Observed.delay? : Observed → Option Nat
  | .bus _ => none
  | .delay n => some n

/-- Whether a transaction's stop is still to come after this event, given whether it was before: it is from
an answered data byte on until `BusStop` (43_i2c R230, R231). -/
def Event.stopToCome (e : Event) (pending : Bool) : Bool :=
  match e with
  | .busData _ .ack => true
  | .busStop => false
  | .busData _ .nack | .busStart | .busAddr _ _ | .rd _ _ | .wr _ _ | .str _ _ | .underflow | .fault _ =>
    pending

/-- The bus events of a history, merged with its DELAYs in expansion order (R365). A transaction's
`BusStop` can come after the arm of the DELAY that follows it in the expansion: a DELAY armed while the stop is
to come is held and stands right after it (log 33, DEDUCED). -/
def busTraceAndDelays (c : Config) (left : Nat) (pending : Bool) (held : List Nat) :
    List Event → List Observed
  | [] => held.map .delay
  | e :: rest =>
    if e.armsDelay c then
      let n := delayCount c left rest
      if pending then busTraceAndDelays c left true (held ++ [n]) rest
      else .delay n :: busTraceAndDelays c left false held rest
    else if e.stopToCome pending then
      (if e.isBus then [.bus e] else []) ++ busTraceAndDelays c left true held rest
    else
      (if e.isBus then [.bus e] else []) ++ held.map .delay ++ busTraceAndDelays c left false [] rest

/-- A run's bus writes and DELAYs, read off the state it has reached (R365). -/
def State.writesAndDelays (s : State) : List Send :=
  Machine.writesAndDelays s.cfg (waitLeft s.mq) s.hist

/-- A run's bus trace and DELAYs, read off the state it has reached (R365). -/
def State.busTraceAndDelays (s : State) : List Observed :=
  Machine.busTraceAndDelays s.cfg (waitLeft s.mq) false [] s.hist

/-- The micro-operations that send bytes to one address and delay, in order (43_i2c R220, 41_timer R160). -/
def sendOps (c : Config) (a : BitVec 7) : List Send → List MicroOp
  | [] => []
  | .byte b :: l => i2cwOps c a b ++ sendOps c a l
  | .delay n :: l => delayOps c n ++ sendOps c a l

/-- The bus events of one complete transaction (43_i2c R234). -/
def transactionEvents (a : BitVec 7) (b : Byte) : List Event :=
  [.busStart, .busAddr (addrByte a) .ack, .busData b .ack, .busStop]

/-- The bytes of a list of sends. -/
def sendBytes (l : List Send) : List Byte :=
  l.filterMap fun x => match x with | .byte b => some b | .delay _ => none

/-- The delays of a list of sends. -/
def sendDelays (l : List Send) : List Nat :=
  l.filterMap fun x => match x with | .byte _ => none | .delay n => some n

end Sys2Proof.Machine
end

