-- ==== Sys2Proof/Safety.lean ====
section
/-! DEFINITION. Runs, and the premises and outcomes claims are stated in: fairness (41_timer R169, 43_i2c
R235), the acknowledge premises (R232, R235), the stop race (R239), hangs and faults (60_exceptions R351,
R356). -/

namespace Sys2Proof.Machine

/-- `n` steps, stopping at the first fault or refusal. -/
def run : Nat → State → Result
  | 0, s => .next s
  | n + 1, s => andThen (step s) (run n)

/-- `t` is reached from `s` by some number of steps. -/
def Reaches (s t : State) : Prop := ∃ n, run n s = .next t

/-- The environment's next choices: the agent that steps and the answer to a byte, if that step draws one
(40_microops R145, 43_i2c R232). -/
def State.choosing (a : Agent) (k : Ack) (s : State) : State :=
  { s with env := { s.env with sched := [a], acks := [k] } }

/-- One step of the chosen agent, with the chosen answer. -/
def stepOf (a : Agent) (k : Ack) (s : State) : Result := step (s.choosing a k)

/-- The counter's fairness (41_timer R169): while the counter stays enabled it takes infinitely many steps. -/
def StkFair (agent : Nat → Agent) (r : Nat → State) : Prop :=
  ∀ n, (∀ m, n ≤ m → (r m).stk.enable = true) → ∃ m, n ≤ m ∧ agent m = .stk

/-- The infinite executions the model admits: every schedule and every answer, with the counter's fairness,
which R169 makes a condition of every one of them (92_eei D17; log 19). -/
def Execution (agent : Nat → Agent) (ack : Nat → Ack) (r : Nat → State) : Prop :=
  (∀ n, stepOf (agent n) (ack n) (r n) = .next (r (n + 1))) ∧ StkFair agent r

/-- The executions of a launch (70_reset R384). -/
def LaunchExecution (c : Config) (d : ResetDraws) (cs : List Word) (str : Memory) (agent : Nat → Agent)
    (ack : Nat → Ack) (r : Nat → State) : Prop :=
  launch c d cs str = .next (r 0) ∧ Execution agent ack r

/-- The peripheral's weak fairness (R235), a premise: a step of `I2CP` continuously enabled is eventually
taken. -/
def I2cpFair (agent : Nat → Agent) (r : Nat → State) : Prop :=
  ∀ n, (∀ m, n ≤ m → i2cpStep (r m) ≠ r m) → ∃ m, n ≤ m ∧ agent m = .i2cp

/-- Every acknowledge in a history is ACK (R235). -/
def allAcked (h : List Event) : Bool :=
  h.all fun e => match e with
    | .busAddr _ k => k == .ack
    | .busData _ k => k == .ack
    | _ => true

/-- `RESPONSIVE` (R235). -/
def Responsive (agent : Nat → Agent) (r : Nat → State) : Prop :=
  (∀ n, allAcked (r n).hist = true) ∧ I2cpFair agent r

/-- Every acknowledge of a transaction addressed to the expander is ACK; `sel` says the current
transaction is (R232). -/
def expanderAcks (sel : Bool) : List Event → Bool
  | [] => true
  | .busAddr x k :: rest =>
    (x != addrByte slaveAddr || k == .ack) && expanderAcks (x == addrByte slaveAddr) rest
  | .busData _ k :: rest => (!sel || k == .ack) && expanderAcks sel rest
  | .busStop :: rest => expanderAcks false rest
  | _ :: rest => expanderAcks sel rest

/-- `EXPANDER_PRESENT` of a history (R232). -/
def expanderPresent (h : List Event) : Bool := expanderAcks false h

/-- A step of the agent is the race of R239: stop generation between the `LDT` and the `STOR` of a start
request. -/
def stopRace (a : Agent) (s : State) : Bool :=
  a == .i2cp && accessible s && s.i2cp.ph == .dataDone && s.i2c.cr1.getLsbD 9
    && s.mq.head? == some (.stor (regAddr s.cfg .i2cCr1) mStart)

/-- `NO_STOP_RACE` of a run (R239). -/
def NoStopRace (agent : Nat → Agent) (r : Nat → State) : Prop := ∀ n, stopRace (agent n) (r n) = false

/-- The sequencer has the next turn, is running, and has `op` at the head of its queue (40_microops R131). -/
def AtHead (s : State) (op : MicroOp) (rest : List MicroOp) : Prop :=
  s.status = .running ∧ nextAgent s = .seq ∧ s.mq = op :: rest

/-- The sequencer has the next turn, is running, and fetches (40_microops R131). -/
def AtFetch (s : State) : Prop :=
  s.status = .running ∧ nextAgent s = .seq ∧ s.mq = []

/-- An `LDT a` before `rest` is fused with the store that follows it (40_microops R142). -/
def fusesWith (s : State) (a : Word) (rest : List MicroOp) : Bool :=
  s.cfg.rmwAtomic && (rest.head?.map fun op => op.storesTo a).getD false

/-- Every store of a read-modify-write directly follows an `LDT` of the same address, and every `LDT` is
directly followed by such a store (40_microops R143). -/
def rmwPaired : List MicroOp → Bool
  | .ldt a :: op :: rest => op.storesTo a && rmwPaired rest
  | .ldt _ :: [] => false
  | .stor _ _ :: _ => false
  | .standn _ _ :: _ => false
  | .stfld _ _ _ :: _ => false
  | _ :: rest => rmwPaired rest
  | [] => true

/-- Where a bus trace stands: between transactions, after its start, after its acknowledged address, after
its acknowledged byte, or after a NACK (43_i2c R224 to R231, R234). -/
inductive BusState where
  | quiet | started | addressed | finished | nacked
  deriving DecidableEq, Repr, Inhabited

/-- One bus event of a trace in which every stop comes before the next start (43_i2c R238). -/
def busNext : BusState → Event → Option BusState
  | .quiet, .busStart => some .started
  | .started, .busAddr _ .ack => some .addressed
  | .started, .busAddr _ .nack => some .nacked
  | .addressed, .busData _ .ack => some .finished
  | .addressed, .busData _ .nack => some .nacked
  | .finished, .busStop => some .quiet
  | _, _ => none

/-- A whole bus trace. -/
def busWalk : BusState → List Event → Option BusState
  | b, [] => some b
  | b, e :: rest => (busNext b e).bind fun b' => busWalk b' rest

/-- Where the bus stands in a phase of the peripheral (43_i2c R221, R224 to R231). -/
def phaseBus : Phase → BusState
  | .idle => .quiet
  | .startDone | .addrTx => .started
  | .addrAcked | .txReady | .dataLoaded | .dataTx => .addressed
  | .dataDone => .finished
  | .nacked => .nacked

/-- What each flag is in each phase (10_state R51, 43_i2c R224 to R231): SB after a start, ADDR after an
acknowledged address, TXE while the data register is empty, BTF after an acknowledged byte, MSL and BUSY
from start to stop, TRA only once an address is acknowledged, AF only after a NACK; `sr1_seen` only while
ADDR, and in reset only the phase IDLE. -/
def flagsMatchPhase (s : State) : Bool :=
  s.flags.sb == (s.i2cp.ph == .startDone)
    && s.flags.addr == (s.i2cp.ph == .addrAcked)
    && s.flags.btf == (s.i2cp.ph == .dataDone)
    && s.flags.msl == (s.i2cp.ph != .idle)
    && s.flags.busy == (s.i2cp.ph != .idle)
    && (s.i2cp.ph == .nacked
      || s.flags.txe == (s.i2cp.ph == .txReady || s.i2cp.ph == .dataTx || s.i2cp.ph == .dataDone))
    && (!s.flags.af || s.i2cp.ph == .nacked)
    && (!s.flags.tra || !(s.i2cp.ph == .idle || s.i2cp.ph == .startDone || s.i2cp.ph == .addrTx))
    && (!s.i2cp.sr1Seen || s.flags.addr)
    && (!s.i2cp.inReset || s.i2cp.ph == .idle)

/-- Reserved bits read as the model holds them: 0, and `AHB1ENR`'s other bits at their reset value
(10_state R27, R28, R29, R34, R40 to R42; log 8). -/
def reservedBitsKept (s : State) : Bool :=
  s.i2c.cr1 &&& ~~~0x0000_BFFB == 0
    && s.i2c.cr2 &&& ~~~0x0000_1F3F == 0
    && s.i2c.ccr &&& ~~~0x0000_CFFF == 0
    && s.rcc.apb1rstr &&& ~~~0x00E0_0000 == 0
    && s.rcc.apb1enr &&& ~~~0x00E0_0000 == 0
    && s.rcc.ahb1enr &&& ~~~0x0000_00FF == 0x0010_0000

/-- The bus is configured and at rest, the premise of 43_i2c R237: `bus_ready`, phase IDLE, every flag 0,
`CR1 = 0x0000_0001`. -/
def busAtRest (s : State) : Bool :=
  busReady s && s.i2cp.ph == .idle && s.flags == I2cFlags.reset && s.i2c.cr1 == 0x0000_0001

/-- The block has faulted (R352). -/
def State.hasFaulted (s : State) : Bool :=
  match s.status with
  | .faulted _ => true
  | .running | .idle => false

/-- The head of the queue is a busy wait (R356). -/
def State.waiting (s : State) : Bool :=
  match s.mq with
  | .poll _ _ :: _ => true
  | .tickwait _ :: _ => true
  | _ => false

/-- A hang (R356): from some point on the same busy wait stays at the head, `CP` stays, and the sequencer
keeps taking turns. -/
def Hangs (agent : Nat → Agent) (r : Nat → State) : Prop :=
  ∃ n, (∀ m, n ≤ m → (r m).mq = (r n).mq ∧ (r m).cp = (r n).cp ∧ (r m).status = .running
      ∧ (r m).waiting = true)
    ∧ ∀ m, n ≤ m → ∃ k, m ≤ k ∧ agent k = .seq

/-- The run reaches IDLE, the source's success (R350, R358). -/
def Finishes (r : Nat → State) : Prop := ∃ n, (r n).status = .idle

end Sys2Proof.Machine
end

