-- ==== Sys2Proof/Certificates/Slice0/Obligations.lean ====
section
/-! DEFINITION. The statements for the provers. Each docstring names the rule it formalises. -/

open Sys2Proof Sys2Proof.Machine

/-! ### Encoding -/

/-- 30_encoding R112: `encode` is the inverse of `decode` on legal commands, in both directions. -/
def Obligations.DecodeEncodeRoundTrip : Prop :=
  (∀ i : Instr, i.wf = true → decode (encode i) = .command i) ∧
  (∀ (w : Word) (i : Instr), decode w = .command i → i.wf = true ∧ encode i = w)

/-- 30_encoding R109: a word decodes to a command of a row exactly when `(W & mask) = match`; no word
selects two rows; a word no row selects is illegal. -/
def Obligations.DecodeMatchesOpcodeTable : Prop :=
  (∀ w : Word, ∀ r ∈ opcodeTable,
    w &&& r.mask = r.matchWord ↔ ∃ i, decode w = .command i ∧ i.mnemonic = r.mnemonic) ∧
  (∀ w : Word, ∀ r ∈ opcodeTable, ∀ q ∈ opcodeTable,
    w &&& r.mask = r.matchWord → w &&& q.mask = q.matchWord → r = q) ∧
  (∀ w : Word, (∀ r ∈ opcodeTable, w &&& r.mask ≠ r.matchWord) ↔ ∃ why, decode w = .illegal why)

/-- 30_encoding R110: which words are illegal, and that fetching one raises `ILLEGAL_COMMAND` with the index
and the word, nothing of it executing; the all-zero word is one. -/
def Obligations.IllegalWordsFaultAtFetch : Prop :=
  (∀ w : Word, (∃ why, decode w = .illegal why) ↔
    (let op := w.extractLsb' 28 4
     (op = 0x0 ∨ op = 0xA ∨ op = 0xB ∨ op = 0xC ∨ op = 0xD ∨ op = 0xE) ∨
     (op = 0x2 ∧ w.extractLsb' 15 13 ≠ 0) ∨
     (op = 0x3 ∧ (w.extractLsb' 9 19 ≠ 0 ∨ w.extractLsb' 0 4 ≠ 0)) ∨
     ((op = 0x4 ∨ op = 0x5) ∧ w.extractLsb' 8 20 ≠ 0) ∨
     ((op = 0x6 ∨ op = 0x7 ∨ op = 0x8 ∨ op = 0xF) ∧ w.extractLsb' 0 28 ≠ 0) ∨
     (op = 0x9 ∧ w.extractLsb' 16 12 ≠ 0))) ∧
  (∀ (s : State) (w : Word) (why : IllegalWord), AtFetch s → s.cs[s.cp]? = some w →
    decode w = .illegal why →
    step s = .next { s.takeTurn with
      status := .faulted (.illegalCommand s.cp w)
      mq := []
      hist := s.hist ++ [.fault (.illegalCommand s.cp w)] }) ∧
  (∃ why, decode 0x0000_0000 = .illegal why)

/-- 30_encoding R102 to R107, 95_test_vectors 2.1: words written out from the formats. -/
def Obligations.SampleWordsDecode : Prop :=
  decode 0b0001_0000_0000_0000_0000_0000_0010_1001#32 = .command (.delay 41) ∧
  decode 0b0010_0000_0000_0000_0_0100111_00111100#32 = .command (.i2cw 0x27 0x3C) ∧
  decode 0b0011_0000000000000000000_1_0010_0000#32 = .command (.nyb 2 1) ∧
  decode 0b0100_00000000000000000000_00000001#32 = .command (.cmd 0x01) ∧
  decode 0b0101_00000000000000000000_01001000#32 = .command (.data 0x48) ∧
  decode 0b0110_0000000000000000000000000000#32 = .command .initBus ∧
  decode 0b1001_000000000000_1111111111111111#32 = .command (.print 0xFFFF)

/-! ### Fetch and step -/

/-- 40_microops R131: when the sequencer fetches a word that decodes to a command, the step is `exec` of
that command, with the turn used up. -/
def Obligations.StepRunsTheFetchedCommand : Prop :=
  ∀ (s : State) (w : Word) (i : Instr), AtFetch s → s.cs[s.cp]? = some w → decode w = .command i →
    step s = exec i s.takeTurn

/-- 10_state R23: `CP` is 0 at reset, advances by exactly 1 when a command word is fetched with an empty
queue, and in no other way; at the end of the stream the sequencer behaves as if it had fetched IDLE. -/
def Obligations.CommandPointerAdvancesOnlyAtFetch : Prop :=
  State.reset.cp = 0 ∧
  (∀ s t : State, step s = .next t →
    let fetches := AtFetch s ∧ ∃ w i, s.cs[s.cp]? = some w ∧ decode w = .command i
    (fetches → t.cp = s.cp + 1) ∧ (¬ fetches → t.cp = s.cp)) ∧
  (∀ s : State, AtFetch s → s.cs.length ≤ s.cp →
    step s = .next { s.takeTurn with mq := [.halt] })

/-! ### Every command completes: the next state of its own step -/

/-- 41_timer R160, R161, R162: DELAY puts its arm, wait and disarm in the queue and advances `CP`; nothing
else changes. -/
def Obligations.DelayStarts : Prop :=
  ∀ (ms : Nat) (s : State), exec (.delay ms) s = .next { s with
    cp := s.cp + 1
    mq := [.wr 0xE000_E014 (BitVec.ofNat 32 (s.cfg.fSys / 1000 - 1))]
      ++ (if s.cfg.armClearsVal then [.wr 0xE000_E018 0] else [])
      ++ [.wr 0xE000_E010 5]
      ++ (if ms = 0 then [] else [.tickwait ms])
      ++ [.wr 0xE000_E010 0] }

/-- 43_i2c R220: I2CW puts its start, address, status reads, data and stop in the queue and advances `CP`;
nothing else changes. -/
def Obligations.I2cwStarts : Prop :=
  ∀ (a : BitVec 7) (b : Byte) (s : State),
    let base : Word := i2cBase s.cfg.i2cInst
    exec (.i2cw a b) s = .next { s with
      cp := s.cp + 1
      mq := [.ldt base, .stor base 0x100, .poll (base + 0x14) 0x1,
        .wr (base + 0x10) (a.setWidth 32 <<< 1), .poll (base + 0x14) 0x2,
        .rd (base + 0x14), .rd (base + 0x18), .poll (base + 0x14) 0x80,
        .wr (base + 0x10) (b.setWidth 32), .poll (base + 0x14) 0x4, .ldt base, .stor base 0x200] }

/-- 44_nybble R271, R272, R273: NYB queues the enable-high byte, a delay of 1 and the enable-low byte, to
address 0x27; CMD and DATA queue two nybbles, high first, with RS 0 and 1. Nothing but the queue and `CP`
changes. -/
def Obligations.NybbleCommandsStart : Prop :=
  let nybble (c : Config) (d : BitVec 4) (rs : BitVec 1) : List MicroOp :=
    sendOps c 0x27 [.byte (d ++ 0b1#1 ++ 1#1 ++ 0#1 ++ rs), .delay 1, .byte (d ++ 0b1#1 ++ 0#1 ++ 0#1 ++ rs)]
  (∀ (d : BitVec 4) (rs : BitVec 1) (s : State),
    exec (.nyb d rs) s = .next { s with cp := s.cp + 1, mq := nybble s.cfg d rs }) ∧
  (∀ (b : Byte) (s : State), exec (.cmd b) s = .next { s with
    cp := s.cp + 1
    mq := nybble s.cfg (b.extractLsb' 4 4) 0 ++ nybble s.cfg (b.extractLsb' 0 4) 0 }) ∧
  (∀ (b : Byte) (s : State), exec (.data b) s = .next { s with
    cp := s.cp + 1
    mq := nybble s.cfg (b.extractLsb' 4 4) 1 ++ nybble s.cfg (b.extractLsb' 0 4) 1 })

/-- 42_businit R190 to R194: INIT_BUS queues its fourteen read-modify-writes in order, 28 accesses, and
advances `CP`; nothing else changes. -/
def Obligations.InitBusStarts : Prop :=
  ∀ s : State,
    let c := s.cfg
    let gpio : Word := 0x4002_0000 + 0x400 * BitVec.ofNat 32 (portIndex c.gpioPort)
    let i2c : Word := i2cBase c.i2cInst
    let mI2c : Word := 1 <<< (20 + instNumber c.i2cInst)
    let scl := c.pinScl.val
    let sda := c.pinSda.val
    let both (v : Word) : Word := (v <<< (2 * scl)) ||| (v <<< (2 * sda))
    let rmwSet (a m : Word) : List MicroOp := [.ldt a, .stor a m]
    let rmwClear (a m : Word) : List MicroOp := [.ldt a, .standn a m]
    let rmwField (a m v : Word) : List MicroOp := [.ldt a, .stfld a m v]
    let afr (n : Nat) : List MicroOp :=
      rmwField (gpio + if n < 8 then 0x20 else 0x24) (0xF <<< (4 * (n % 8)))
        (c.afNum.setWidth 32 <<< (4 * (n % 8)))
    let ops := rmwSet 0x4002_3830 (1 <<< portIndex c.gpioPort)
      ++ rmwSet 0x4002_3840 mI2c
      ++ (if c.resetStyle = .rcc then rmwSet 0x4002_3820 mI2c ++ rmwClear 0x4002_3820 mI2c
        else rmwSet i2c 0x8000 ++ rmwClear i2c 0x8000)
      ++ rmwField gpio (both 3) (both 2)
      ++ afr scl ++ afr sda
      ++ rmwSet (gpio + 0x04) ((1 <<< scl) ||| (1 <<< sda))
      ++ rmwField (gpio + 0x08) (both 3) (both 3)
      ++ rmwField (gpio + 0x0C) (both 3) (both 1)
      ++ rmwClear i2c 0x1
      ++ rmwClear (i2c + 0x1C) 0x8000
      ++ rmwField (i2c + 0x1C) 0xFFF (BitVec.ofNat 32 (c.fSys / 200000))
      ++ rmwSet i2c 0x1
    exec .initBus s = .next { s with cp := s.cp + 1, mq := ops } ∧ ops.length = 28

/-- 45_display R310 to R313: LCDINIT, CLEAR, PRINT and IDLE queue their expansions and advance `CP`;
nothing else changes. LCDINIT is the delay of 41, three reset nybbles each with a delay of 10, the 4-bit
nybble and the three configuration commands: the twenty bytes and fourteen delays of 95_test_vectors
V-LCDINIT-1, with the cursor and blink bits in the display-control byte. -/
def Obligations.DisplayCommandsStart : Prop :=
  let nybble (d : BitVec 4) : List Send :=
    [.byte (d ++ 0xC#4), .delay 1, .byte (d ++ 0x8#4)]
  (∀ s : State, exec .lcdInit s = .next { s with
    cp := s.cp + 1
    mq := sendOps s.cfg 0x27 ([.delay 41] ++ nybble 3 ++ [.delay 10] ++ nybble 3 ++ [.delay 10]
      ++ nybble 3 ++ [.delay 10] ++ nybble 2 ++ nybble 2 ++ nybble 8
      ++ nybble 0 ++ nybble (0b11#2 ++ s.cfg.cursor ++ s.cfg.blink) ++ nybble 0 ++ nybble 6) }) ∧
  (∀ s : State, exec .clear s = .next { s with
    cp := s.cp + 1
    mq := sendOps s.cfg 0x27 (nybble 0 ++ nybble 1 ++ [.delay 2]) }) ∧
  (∀ (p : Nat) (s : State), exec (.print p) s = .next { s with cp := s.cp + 1, mq := [.strch p] }) ∧
  (∀ s : State, exec .idle s = .next { s with cp := s.cp + 1, mq := [.halt] })

/-- 40_microops R143: in every command's expansion every `LDT` is immediately followed by a store on the
same address, and no other store stands in it. -/
def Obligations.EveryStoreFollowsItsLoad : Prop :=
  ∀ (i : Instr) (s t : State), exec i s = .next t → rmwPaired t.mq = true

/-! ### Micro-operations -/

/-- 40_microops R132, R134: `RD` and an unfused `LDT` perform one read, with its effect and its event;
`LDT` puts the value in `TMP`. -/
def Obligations.ReadMicroOpsRun : Prop :=
  ∀ (s : State) (r : Reg) (rest : List MicroOp),
    (AtHead s (.rd (regAddr s.cfg r)) rest →
      step s = .next { readEffect r s.takeTurn with
        mq := rest
        hist := s.hist ++ [.rd (regAddr s.cfg r) (readValue r s)] }) ∧
    (AtHead s (.ldt (regAddr s.cfg r)) rest → fusesWith s (regAddr s.cfg r) rest = false →
      step s = .next { readEffect r s.takeTurn with
        mq := rest
        tmp := readValue r s
        hist := s.hist ++ [.rd (regAddr s.cfg r) (readValue r s)] })

/-- 40_microops R133, R135, R136, R137, 60_exceptions R352: the value each store writes; a write is recorded
with its effect, or its fault is raised in its place. -/
def Obligations.StoreMicroOpsRun : Prop :=
  ∀ (s : State) (r : Reg) (rest : List MicroOp) (op : MicroOp) (v : Word),
    let a := regAddr s.cfg r
    AtHead s op rest →
    (op = .wr a v ∨ (∃ m, op = .stor a m ∧ v = s.tmp ||| m) ∨ (∃ m, op = .standn a m ∧ v = s.tmp &&& ~~~m) ∨
      (∃ m x, op = .stfld a m x ∧ v = (s.tmp &&& ~~~m) ||| (x &&& m))) →
    (∀ u, writeReg r v { s.takeTurn with mq := rest } = .done u →
      step s = .next { u with hist := u.hist ++ [.wr a v] }) ∧
    (∀ f, writeReg r v { s.takeTurn with mq := rest } = .raises f →
      step s = .next { s.takeTurn with
        status := .faulted f
        mq := []
        hist := s.hist ++ [.fault f] })

/-- 40_microops R138: `POLL` reads once; it is removed when every bit of the mask reads 1, and stays
otherwise. -/
def Obligations.PollPopsOrStays : Prop :=
  ∀ (s : State) (r : Reg) (m : Word) (rest : List MicroOp),
    AtHead s (.poll (regAddr s.cfg r) m) rest →
    step s = .next { readEffect r s.takeTurn with
      mq := if readValue r s &&& m = m then rest else s.mq
      hist := s.hist ++ [.rd (regAddr s.cfg r) (readValue r s)] }

/-- 40_microops R139: `TICKWAIT k` reads `STK.CTRL` once, clearing COUNTFLAG; a read of 1 counts one. -/
def Obligations.TickwaitCountsTheFlag : Prop :=
  ∀ (s : State) (k : Nat) (rest : List MicroOp), AtHead s (.tickwait k) rest →
    step s = .next { s.takeTurn with
      stk := { s.stk with countflag := false }
      mq := if s.stk.countflag then (if k = 1 then rest else .tickwait (k - 1) :: rest) else s.mq
      hist := s.hist ++ [.rd 0xE000_E010 (ctrlView s.stk)] }

/-- 40_microops R140: `STRCH p` faults past the end of string memory; it reads the byte, ends at 0x00, and
otherwise queues the character, its delay of 10 and the next address. -/
def Obligations.StrchFetchesTheCharacter : Prop :=
  ∀ (s : State) (p : Nat) (rest : List MicroOp), AtHead s (.strch p) rest →
    (s.cfg.strmemSize ≤ p → step s = .next { s.takeTurn with
      status := .faulted (.stringOverrun (s.cp - 1) p)
      mq := []
      hist := s.hist ++ [.fault (.stringOverrun (s.cp - 1) p)] }) ∧
    (p < s.cfg.strmemSize → s.str.read p = 0 → step s = .next { s.takeTurn with
      mq := rest
      hist := s.hist ++ [.str p 0] }) ∧
    (p < s.cfg.strmemSize → s.str.read p ≠ 0 → step s = .next { s.takeTurn with
      mq := dataOps s.cfg (s.str.read p) ++ delayOps s.cfg 10 ++ [.strch (p + 1)] ++ rest
      hist := s.hist ++ [.str p (s.str.read p)] })

/-- 40_microops R141: `HALT` makes the status Idle, touches nothing else, and leaves itself in the queue;
afterwards a turn of the sequencer changes nothing. -/
def Obligations.HaltEntersIdle : Prop :=
  (∀ (s : State) (rest : List MicroOp), AtHead s .halt rest →
    step s = .next { s.takeTurn with status := .idle }) ∧
  (∀ s : State, s.status = .idle → nextAgent s = .seq → step s = .next s.takeTurn)

/-- 40_microops R142: with `RMW_ATOMIC` an `LDT` and the store after it run in one step, no agent between;
without it the `LDT` is a step of its own. -/
def Obligations.RmwAtomicFusesThePair : Prop :=
  ∀ (s : State) (r : Reg) (rest : List MicroOp) (op : MicroOp) (m x : Word),
    let a := regAddr s.cfg r
    let v := readValue r s
    let loaded : State := { readEffect r s.takeTurn with tmp := v, hist := s.hist ++ [.rd a v] }
    AtHead s (.ldt a) (op :: rest) →
    (s.cfg.rmwAtomic = true →
      (op = .stor a m → step s = memWrite a (v ||| m) { loaded with mq := rest }) ∧
      (op = .standn a m → step s = memWrite a (v &&& ~~~m) { loaded with mq := rest }) ∧
      (op = .stfld a m x → step s = memWrite a ((v &&& ~~~m) ||| (x &&& m)) { loaded with mq := rest })) ∧
    (s.cfg.rmwAtomic = false → step s = .next { loaded with mq := op :: rest })

/-! ### Registers -/

/-- 41_timer R165 to R168, 10_state R37, R38: reads and writes of the counter's registers. -/
def Obligations.CounterRegisterAccesses : Prop :=
  ∀ (s : State) (v : Word),
    memRead 0xE000_E010 s = .next (ctrlView s.stk, { s with
      stk := { s.stk with countflag := false }
      hist := s.hist ++ [.rd 0xE000_E010 (ctrlView s.stk)] }) ∧
    (∀ i, i < 32 → (ctrlView s.stk).getLsbD i =
      ((i == 0 && s.stk.enable) || (i == 1 && s.stk.tickint) || (i == 2 && s.stk.clksource)
        || (i == 16 && s.stk.countflag))) ∧
    memWrite 0xE000_E010 v s = .next { s with
      stk := { s.stk with enable := v.getLsbD 0, tickint := v.getLsbD 1, clksource := v.getLsbD 2 }
      hist := s.hist ++ [.wr 0xE000_E010 v] } ∧
    (∀ t, memWrite 0xE000_E010 v s = .next t → v.getLsbD 0 = false → stkStep t = t) ∧
    memWrite 0xE000_E014 v s = .next { s with
      stk := { s.stk with load := v.extractLsb' 0 24 }
      hist := s.hist ++ [.wr 0xE000_E014 v] } ∧
    memWrite 0xE000_E018 v s = .next { s with
      stk := { s.stk with val := 0, countflag := false }
      hist := s.hist ++ [.wr 0xE000_E018 v] } ∧
    memRead 0xE000_E014 s = .next (s.stk.load.setWidth 32, { s with
      hist := s.hist ++ [.rd 0xE000_E014 (s.stk.load.setWidth 32)] }) ∧
    memRead 0xE000_E018 s = .next (s.stk.val.setWidth 32, { s with
      hist := s.hist ++ [.rd 0xE000_E018 (s.stk.val.setWidth 32)] })

/-- 43_i2c R225, R228: what a read of `SR1` and of `SR2` returns, and that ADDR is cleared only by an `SR2`
read after an `SR1` read that saw it. -/
def Obligations.StatusReadsAndAddrClearing : Prop :=
  ∀ s : State, i2cClocked s = true → s.i2cp.inReset = false →
    (∀ i, i < 32 → (readValue .i2cSr1 s).getLsbD i =
      ((i == 0 && s.flags.sb) || (i == 1 && s.flags.addr) || (i == 2 && s.flags.btf)
        || (i == 7 && s.flags.txe) || (i == 10 && s.flags.af))) ∧
    readEffect .i2cSr1 s = { s with i2cp := { s.i2cp with sr1Seen := s.i2cp.sr1Seen || s.flags.addr } } ∧
    (∀ i, i < 32 → (readValue .i2cSr2 s).getLsbD i =
      ((i == 0 && s.flags.msl) || (i == 1 && s.flags.busy) || (i == 2 && s.flags.tra))) ∧
    (s.flags.addr = true → s.i2cp.sr1Seen = true → readEffect .i2cSr2 s = { s with
      flags := { s.flags with addr := false, txe := true }
      i2cp := { s.i2cp with sr1Seen := false, ph := .txReady } }) ∧
    ((s.flags.addr && s.i2cp.sr1Seen) = false → readEffect .i2cSr2 s = s)

/-- 43_i2c R226: a write of `DR` begins the address byte, loads the data byte, or faults. That the write is
accessible with PE = 0 too is the model's reading (log 13, DEDUCED), and so is the fault in START_DONE
without SB and in TX_READY without TXE (log 32, DESIGN CHOICE). -/
def Obligations.DataRegisterWrite : Prop :=
  ∀ (s : State) (v : Word), i2cClocked s = true → s.i2cp.inReset = false →
    (s.i2cp.ph = .startDone → s.flags.sb = true → writeReg .i2cDr v s = .done { s with
      i2c := { s.i2c with dr := v.extractLsb' 0 8 }
      i2cp := { s.i2cp with shift := v.extractLsb' 0 8, ph := .addrTx }
      flags := { s.flags with sb := false } }) ∧
    (s.i2cp.ph = .txReady → s.flags.txe = true → writeReg .i2cDr v s = .done { s with
      i2c := { s.i2c with dr := v.extractLsb' 0 8 }
      i2cp := { s.i2cp with ph := .dataLoaded }
      flags := { s.flags with txe := false } }) ∧
    (¬ (s.i2cp.ph = .startDone ∧ s.flags.sb = true) → ¬ (s.i2cp.ph = .txReady ∧ s.flags.txe = true) →
      writeReg .i2cDr v s = .raises (.periphUnmodelled (s.cp - 1) .drWriteInPhase))

/-- 43_i2c R223, 60_exceptions R355: the effect of a write to `CR1`, item by item, the first fault that
holds in the rule's order. Three clauses are the model's readings, DEDUCED: the stored value is masked to
CR1's fields (log 8); a gated or RCC-held block ignores a software-reset write too, without a start check
(log 12); and the shift register stays in a software reset (log 27). -/
def Obligations.ControlRegisterWrite : Prop :=
  ∀ (s : State) (v : Word),
    let old := s.i2c.cr1
    let asIf := { s with i2c := { s.i2c with cr1 := v &&& 0x0000_BFFB } }
    let fault (why : PeriphReason) := WriteResult.raises (.periphUnmodelled (s.cp - 1) why)
    let swrst := v.getLsbD 15 = true ∨ (s.i2cp.inReset = true ∧ s.cfg.resetStyle = .swrst)
    let gated := i2cClocked s = false ∨ (s.i2cp.inReset = true ∧ s.cfg.resetStyle = .rcc)
    let notReady := v.getLsbD 8 = true ∧ busReady asIf = false
    let spurious := v.getLsbD 9 = true ∧ old.getLsbD 9 = false ∧ s.i2cp.ph ≠ .dataDone
    let repeated := v.getLsbD 8 = true ∧ old.getLsbD 8 = false ∧
      ((s.i2cp.ph ≠ .idle ∧ s.i2cp.ph ≠ .dataDone) ∨ (s.i2cp.ph = .dataDone ∧ v.getLsbD 9 = false))
    let withdrawn := (old.getLsbD 8 = true ∧ v.getLsbD 8 = false) ∨
      (old.getLsbD 9 = true ∧ v.getLsbD 9 = false)
    let disabled := v.getLsbD 0 = false ∧ s.i2cp.ph ≠ .idle
    (swrst → gated → writeReg .i2cCr1 v s = .done s) ∧
    (swrst → ¬ gated →
      (v.getLsbD 15 = true → s.i2cp.ph = .idle → writeReg .i2cCr1 v s = .done { s with
        i2c := { I2cRegs.reset with cr1 := 0x0000_8000 }
        flags := I2cFlags.reset
        i2cp := { s.i2cp with ph := .idle, sr1Seen := false, inReset := true } }) ∧
      (v.getLsbD 15 = true → s.i2cp.ph ≠ .idle → writeReg .i2cCr1 v s = fault .resetDuringTransaction) ∧
      (v.getLsbD 15 = false → writeReg .i2cCr1 v s = .done { s with
        i2c := { s.i2c with cr1 := v &&& 0x0000_BFFB }
        i2cp := { s.i2cp with inReset := false } })) ∧
    (¬ swrst → notReady → writeReg .i2cCr1 v s = .raises (.busNotReady (s.cp - 1) v)) ∧
    (¬ swrst → ¬ notReady → gated → writeReg .i2cCr1 v s = .done s) ∧
    (¬ swrst → ¬ notReady → ¬ gated →
      (spurious → writeReg .i2cCr1 v s = fault .spuriousStop) ∧
      (¬ spurious → repeated → writeReg .i2cCr1 v s = fault .repeatedStart) ∧
      (¬ spurious → ¬ repeated → withdrawn → writeReg .i2cCr1 v s = fault .requestWithdrawn) ∧
      (¬ spurious → ¬ repeated → ¬ withdrawn → disabled →
        writeReg .i2cCr1 v s = fault .disableDuringTransaction) ∧
      (¬ spurious → ¬ repeated → ¬ withdrawn → ¬ disabled → writeReg .i2cCr1 v s = .done asIf))

/-- 42_businit R197, R198: asserting either reset bit puts every I2C register, flag and the phase at the
reset value and holds them, or faults while a transaction is open, unless the bit is SWRST and the block is
gated, its clock off or its RCC reset asserted: it ignores that write (log 12, DEDUCED). Releasing the bit
ends the hold. While held, writes to the other I2C registers are ignored and reads of them return 0; `CR1`
reads 0x0000_8000 under SWRST and 0 under RCC (log 16). Reserved bits are masked (log 8), the shift register
stays (log 27) and either style's hold ends at the APB1RSTR write (log 29): the model's readings, DEDUCED. -/
def Obligations.PeripheralResetBits : Prop :=
  ∀ (s : State) (v : Word),
    let held := { s with
      i2c := I2cRegs.reset
      flags := I2cFlags.reset
      i2cp := { s.i2cp with ph := .idle, sr1Seen := false, inReset := true } }
    let rstr := { s.rcc with apb1rstr := (s.rcc.apb1rstr &&& ~~~0x00E0_0000) ||| (v &&& 0x00E0_0000) }
    let fault := WriteResult.raises (.periphUnmodelled (s.cp - 1) .resetDuringTransaction)
    let gated := i2cClocked s = false ∨ (s.i2cp.inReset = true ∧ s.cfg.resetStyle = .rcc)
    (v.getLsbD (20 + instNumber s.cfg.i2cInst) = true → s.i2cp.ph = .idle →
      writeReg .rccApb1rstr v s = .done { held with rcc := rstr }) ∧
    (v.getLsbD (20 + instNumber s.cfg.i2cInst) = true → s.i2cp.ph ≠ .idle →
      writeReg .rccApb1rstr v s = fault) ∧
    (v.getLsbD (20 + instNumber s.cfg.i2cInst) = false →
      writeReg .rccApb1rstr v s = .done { s with
        rcc := rstr
        i2cp := { s.i2cp with inReset := false } }) ∧
    (v.getLsbD 15 = true → gated → writeReg .i2cCr1 v s = .done s) ∧
    (v.getLsbD 15 = true → ¬ gated → s.i2cp.ph = .idle →
      writeReg .i2cCr1 v s = .done { held with i2c := { I2cRegs.reset with cr1 := 0x0000_8000 } } ∧
      (s.cfg.resetStyle = .swrst →
        readValue .i2cCr1 { held with i2c := { I2cRegs.reset with cr1 := 0x0000_8000 } } = 0x0000_8000)) ∧
    (v.getLsbD 15 = true → ¬ gated → s.i2cp.ph ≠ .idle → writeReg .i2cCr1 v s = fault) ∧
    (s.i2cp.inReset = true → s.cfg.resetStyle = .rcc → readValue .i2cCr1 s = 0) ∧
    (v.getLsbD 15 = false → i2cClocked s = true → s.i2cp.inReset = true → s.cfg.resetStyle = .swrst →
      writeReg .i2cCr1 v s = .done { s with
        i2c := { s.i2c with cr1 := v &&& 0x0000_BFFB }
        i2cp := { s.i2cp with inReset := false } }) ∧
    (s.i2cp.inReset = true →
      ∀ r ∈ [Reg.i2cCr2, .i2cOar1, .i2cOar2, .i2cDr, .i2cSr1, .i2cSr2, .i2cCcr, .i2cTrise, .i2cFltr],
        writeReg r v s = .done s ∧ readValue r s = 0 ∧ readEffect r s = s)

/-- 10_state R43, 20_memory R85, 42_businit R196, R199: a register of a gated block reads 0 without effect
and a write to it changes nothing, but for a start request to an unclocked `CR1` that is no software-reset
write and meets no reset in progress, which faults (43_i2c R223 item 3; `ControlRegisterWrite` has the held
case). A software-reset write to an unclocked `CR1` is ignored even with bit 8 set, the model's reading (log
12, DEDUCED). A clocked GPIO register stores the value written, and reads it back. `OTYPER` has 16 pins: its
bits 31:16 read 0 and are left as they are (R27, R45; the model's reading, log 9, DEDUCED). -/
def Obligations.GatedBlocksReadZeroAndIgnoreWrites : Prop :=
  ∀ (s : State) (v : Word),
    (i2cClocked s = false →
      ∀ r ∈ [Reg.i2cCr1, .i2cCr2, .i2cOar1, .i2cOar2, .i2cDr, .i2cSr1, .i2cSr2, .i2cCcr, .i2cTrise, .i2cFltr],
        readValue r s = 0 ∧ readEffect r s = s ∧
        (r ≠ .i2cCr1 ∨ v.getLsbD 8 = false ∨ v.getLsbD 15 = true → writeReg r v s = .done s)) ∧
    (i2cClocked s = false → v.getLsbD 8 = true → v.getLsbD 15 = false → s.i2cp.inReset = false →
      writeReg .i2cCr1 v s = .raises (.busNotReady (s.cp - 1) v)) ∧
    (gpioClocked s = false →
      ∀ r ∈ [Reg.gpioModer, .gpioOtyper, .gpioOspeedr, .gpioPupdr, .gpioAfrl, .gpioAfrh],
        readValue r s = 0 ∧ readEffect r s = s ∧ writeReg r v s = .done s) ∧
    (gpioClocked s = true →
      ∀ r ∈ [Reg.gpioModer, .gpioOtyper, .gpioOspeedr, .gpioPupdr, .gpioAfrl, .gpioAfrh],
        ∃ t, writeReg r v s = .done t ∧
          readValue r t = (if r = .gpioOtyper then v &&& 0x0000_FFFF else v) ∧
          t.gpio.otyper &&& 0xFFFF_0000 = (if r = .gpioOtyper then s else t).gpio.otyper &&& 0xFFFF_0000 ∧
          { t with gpio := s.gpio } = s ∧
          ∀ q ∈ [Reg.gpioModer, .gpioOtyper, .gpioOspeedr, .gpioPupdr, .gpioAfrl, .gpioAfrh],
            q ≠ r → readValue q t = readValue q s)

/-- 42_businit R200: `CCR` is stored only while PE is 0, and the write faults while PE is 1. The
stored value is masked to CCR's fields, the model's reading (log 8, DEDUCED). -/
def Obligations.DividerOnlyWhileDisabled : Prop :=
  ∀ (s : State) (v : Word), i2cClocked s = true → s.i2cp.inReset = false →
    (s.i2c.cr1.getLsbD 0 = true →
      writeReg .i2cCcr v s = .raises (.periphUnmodelled (s.cp - 1) .ccrWhileEnabled)) ∧
    (s.i2c.cr1.getLsbD 0 = false →
      writeReg .i2cCcr v s = .done { s with i2c := { s.i2c with ccr := v &&& 0x0000_CFFF } })

/-- 20_memory R76, 40_microops R144: a register access changes its own block and the named side effects,
and nothing else: never the launch data, the sequencer, the tick count, the observer or the history. A read
changes only what R76 lists (SR1, SR2, CTRL), and an accessible `CR1`, `CCR` or `DR` reads as stored
(43_i2c R240). -/
def Obligations.AccessFrame : Prop :=
  (∀ (r : Reg) (s : State),
    (r ∉ [Reg.i2cSr1, .i2cSr2, .stkCtrl] → readEffect r s = s) ∧
    readEffect r s = { s with
      i2cp := (readEffect r s).i2cp, flags := (readEffect r s).flags, stk := (readEffect r s).stk } ∧
    (r ≠ .stkCtrl → (readEffect r s).stk = s.stk) ∧
    (r ≠ .i2cSr2 → (readEffect r s).flags = s.flags ∧ (readEffect r s).i2cp.ph = s.i2cp.ph)) ∧
  (∀ s : State, i2cClocked s = true → s.i2cp.inReset = false →
    readValue .i2cCr1 s = s.i2c.cr1 ∧ readValue .i2cCcr s = s.i2c.ccr ∧
    readValue .i2cDr s = s.i2c.dr.setWidth 32) ∧
  ∀ (r : Reg) (v : Word) (s t : State), writeReg r v s = .done t →
    (t.cfg = s.cfg ∧ t.cs = s.cs ∧ t.str = s.str ∧ t.cp = s.cp ∧ t.mq = s.mq ∧ t.status = s.status ∧
      t.tmp = s.tmp ∧ t.ticks = s.ticks ∧ t.obs = s.obs ∧ t.hist = s.hist ∧ t.env = s.env) ∧
    (r ∉ [Reg.stkCtrl, .stkLoad, .stkVal] → t.stk = s.stk) ∧
    (r ∉ [Reg.gpioModer, .gpioOtyper, .gpioOspeedr, .gpioPupdr, .gpioAfrl, .gpioAfrh] → t.gpio = s.gpio) ∧
    (r ∉ [Reg.rccApb1rstr, .rccAhb1enr, .rccApb1enr] → t.rcc = s.rcc) ∧
    (r ∉ [Reg.i2cCr1, .i2cDr, .rccApb1rstr] → t.i2cp = s.i2cp ∧ (r ≠ .i2cSr1 → t.flags = s.flags)) ∧
    (r ∉ [Reg.i2cCr1, .i2cCr2, .i2cOar1, .i2cOar2, .i2cDr, .i2cCcr, .i2cTrise, .i2cFltr, .rccApb1rstr] →
      t.i2c = s.i2c) ∧
    (t.stk.calib = s.stk.calib)

/-! ### Faults -/

/-- 60_exceptions R352: a fault sets the status, empties the queue and appends its event in the step that
raises it, changes nothing else, and after it no agent takes a step. -/
def Obligations.FaultEntryIsPreciseAndTerminal : Prop :=
  (∀ (s : State) (f : BlockFault), s.raise f = { s with
    status := .faulted f, mq := [], hist := s.hist ++ [.fault f] }) ∧
  (∀ (r : Reg) (v : Word) (s : State) (f : BlockFault), writeReg r v s = .raises f →
    memWrite (regAddr s.cfg r) v s = .next (s.raise f)) ∧
  (∀ (s : State) (f : BlockFault), s.status = .faulted f → step s = .fault (.stopped f)) ∧
  (∀ (s t : State) (f : BlockFault), step s = .next t → t.status = .faulted f →
    t.mq = [] ∧ t.hist.getLast? = some (.fault f) ∧ t.cp = s.cp)

/-- 10_state R25: the status is Running at reset; it becomes Idle only by the IDLE micro-operation and
Faulted only by a fault's entry; Idle and Faulted are never left. -/
def Obligations.StatusIsLeftOnlyByHaltOrFault : Prop :=
  State.reset.status = .running ∧
  (∀ s t : State, step s = .next t → s.status = .idle → t.status = .idle) ∧
  (∀ (s : State) (f : BlockFault), s.status = .faulted f → ∀ t, step s ≠ .next t) ∧
  (∀ s t : State, step s = .next t → s.status = .running → t.status = .idle →
    ∃ rest, AtHead s .halt rest) ∧
  (∀ (s t : State) (f : BlockFault), step s = .next t → s.status = .running → t.status = .faulted f →
    nextAgent s = .seq ∧ t.mq = [] ∧ t.hist.getLast? = some (.fault f))

/-! ### Devices -/

/-- 43_i2c R224, R231: start generation and stop generation; no step leaves the phase NACKED. -/
def Obligations.StartAndStopGeneration : Prop :=
  (∀ s t : State, flagsMatchPhase s = true → s.i2cp.ph = .nacked → step s = .next t →
    t.i2cp.ph = .nacked) ∧
  ∀ s : State, s.hasFaulted = false → nextAgent s = .i2cp → accessible s = true →
    (s.i2c.cr1.getLsbD 8 = true → s.i2cp.ph = .idle → step s = .next { s.takeTurn with
      i2c := { s.i2c with cr1 := s.i2c.cr1 &&& ~~~0x100 }
      flags := { s.flags with sb := true, msl := true, busy := true }
      i2cp := { s.i2cp with ph := .startDone }
      hist := s.hist ++ [.busStart] }) ∧
    (s.i2c.cr1.getLsbD 9 = true → s.i2cp.ph = .dataDone → step s = .next { s.takeTurn with
      i2c := { s.i2c with cr1 := s.i2c.cr1 &&& ~~~0x200 }
      flags := { s.flags with msl := false, busy := false, tra := false, btf := false, txe := false }
      i2cp := { s.i2cp with ph := .idle }
      obs := { s.obs with sel := false }
      hist := s.hist ++ [.busStop] })

/-- 43_i2c R227, R229, R230, 44_nybble R274: the address phase, the shift-register load and the data phase,
for both answers, with what the observer of the bus does; the answer is the environment's next draw. -/
def Obligations.AddressAndDataPhases : Prop :=
  ∀ s : State, s.hasFaulted = false → nextAgent s = .i2cp → accessible s = true →
    let drawn := { s.takeTurn with
      env := { s.takeTurn.env with acks := s.env.acks.tail, ackPos := s.env.ackPos + 1 } }
    (s.i2cp.ph = .addrTx → nextAck s = .ack → step s = .next { drawn with
      flags := { s.flags with addr := true, tra := !s.i2cp.shift.getLsbD 0 }
      i2cp := { s.i2cp with ph := .addrAcked }
      obs := { s.obs with sel := s.i2cp.shift == 0x4E }
      hist := s.hist ++ [.busAddr s.i2cp.shift .ack] }) ∧
    (s.i2cp.ph = .addrTx → nextAck s = .nack → step s = .next { drawn with
      flags := { s.flags with af := true }
      i2cp := { s.i2cp with ph := .nacked }
      obs := { s.obs with sel := false }
      hist := s.hist ++ [.busAddr s.i2cp.shift .nack] }) ∧
    (s.i2cp.ph = .dataLoaded → step s = .next { s.takeTurn with
      flags := { s.flags with txe := true }
      i2cp := { s.i2cp with shift := s.i2c.dr, ph := .dataTx } }) ∧
    (s.i2cp.ph = .dataTx → nextAck s = .ack → step s = .next { drawn with
      flags := { s.flags with btf := true }
      i2cp := { s.i2cp with ph := .dataDone }
      obs := if s.obs.sel then { s.obs with
          port := s.i2cp.shift
          nybs := if s.obs.port.getLsbD 2 && !s.i2cp.shift.getLsbD 2
            then s.obs.nybs ++ [{ d := s.i2cp.shift.extractLsb' 4 4, rs := s.i2cp.shift.extractLsb' 0 1 }]
            else s.obs.nybs }
        else s.obs
      hist := s.hist ++ [.busData s.i2cp.shift .ack] }) ∧
    (s.i2cp.ph = .dataTx → nextAck s = .nack → step s = .next { drawn with
      flags := { s.flags with af := true }
      i2cp := { s.i2cp with ph := .nacked }
      hist := s.hist ++ [.busData s.i2cp.shift .nack] })

/-- 43_i2c R222, R224 to R231: a turn of the peripheral that no guard admits changes nothing. -/
def Obligations.PeripheralIdlesWithoutItsGuard : Prop :=
  ∀ s : State, s.hasFaulted = false → nextAgent s = .i2cp →
    (accessible s = false ∨ s.i2cp.ph ∈ [Phase.startDone, .addrAcked, .txReady, .nacked] ∨
      (s.i2cp.ph = .idle ∧ s.i2c.cr1.getLsbD 8 = false) ∨
      (s.i2cp.ph = .dataDone ∧ s.i2c.cr1.getLsbD 9 = false)) →
    step s = .next s.takeTurn

/-- 41_timer R164: one step of the counter, enabled exactly when ENABLE is 1; with `LOAD = L ≥ 1` and
`VAL = 0`, underflow j happens at counter step j * (L + 1); that is `F_SYS / 1000` cycles when
`L = RELOAD`. -/
def Obligations.CounterStepAndUnderflowPeriod : Prop :=
  (∀ s : State, s.hasFaulted = false → nextAgent s = .stk →
    (s.stk.enable = false → step s = .next s.takeTurn) ∧
    (s.stk.enable = true → s.stk.val = 0 → step s = .next { s.takeTurn with
      ticks := s.ticks + 1, stk := { s.stk with val := s.stk.load } }) ∧
    (s.stk.enable = true → s.stk.val = 1 → step s = .next { s.takeTurn with
      ticks := s.ticks + 1
      stk := { s.stk with val := 0, countflag := true }
      hist := s.hist ++ [.underflow] }) ∧
    (s.stk.enable = true → s.stk.val ≠ 0 → s.stk.val ≠ 1 → step s = .next { s.takeTurn with
      ticks := s.ticks + 1, stk := { s.stk with val := s.stk.val - 1 } })) ∧
  (∀ (s : State) (k : Nat), s.stk.enable = true → 1 ≤ s.stk.load.toNat → s.stk.val = 0 →
    (stkStep^[k] s).ticks = s.ticks + k ∧
    ((stkStep^[k] s).hist.count .underflow : Nat)
      = s.hist.count .underflow + k / (s.stk.load.toNat + 1)) ∧
  (∀ c : Config, 1000 ≤ c.fSys → reload c + 1 = c.fSys / 1000)

/-- 41_timer R171: with `STK.LOAD = 0` and the counter cleared, COUNTFLAG is never set and `TICKWAIT` never
ends, under every schedule; an admitted configuration never reloads 0. -/
def Obligations.ReloadZeroHangs : Prop :=
  (∀ (s : State) (k : Nat) (rest : List MicroOp) (n : Nat), s.status = .running →
    s.mq = .tickwait k :: rest → s.stk.load = 0 → s.stk.val = 0 → s.stk.countflag = false →
    ∃ t, run n s = .next t ∧ t.mq = s.mq ∧ t.cp = s.cp ∧ t.status = .running ∧ t.stk.countflag = false) ∧
  (∀ c : Config, configOk c = true → BitVec.ofNat 24 (reload c) ≠ 0)

/-- 41_timer R170, 40_microops R139: from the state the enabling write leaves to the state in which
`TICKWAIT n` has been popped, under every schedule. With the counter cleared at the arm: at least n
underflows and `n * (LOAD + 1)` counter steps. With any counter value and any stale flag, and n ≥ 2: at
least n - 1 underflows and `(n - 2) * (LOAD + 1) + 1` counter steps. -/
def Obligations.DelayElapsedTime : Prop :=
  ∀ (s t : State) (n k : Nat) (rest : List MicroOp), 1 ≤ n → s.status = .running →
    s.mq = .tickwait n :: rest → s.stk.enable = true → 1 ≤ s.stk.load.toNat →
    run k s = .next t → t.mq = rest →
    (s.stk.val = 0 → s.stk.countflag = false →
      s.hist.count .underflow + n ≤ t.hist.count .underflow ∧
      s.ticks + n * (s.stk.load.toNat + 1) ≤ t.ticks) ∧
    (2 ≤ n →
      s.hist.count .underflow + (n - 1) ≤ t.hist.count .underflow ∧
      s.ticks + (n - 2) * (s.stk.load.toNat + 1) + 1 ≤ t.ticks)

/-- 10_state R20, 40_microops R145: a device's turn leaves the sequencer and the other device alone, and a
sequencer's turn never moves the tick count. -/
def Obligations.DeviceFrames : Prop :=
  ∀ s t : State, step s = .next t →
    (nextAgent s ≠ .seq → t.cp = s.cp ∧ t.mq = s.mq ∧ t.status = s.status ∧ t.tmp = s.tmp ∧
      t.rcc = s.rcc ∧ t.gpio = s.gpio) ∧
    (nextAgent s = .i2cp → t.stk = s.stk ∧ t.ticks = s.ticks) ∧
    (nextAgent s = .stk → t.i2c = s.i2c ∧ t.i2cp = s.i2cp ∧ t.flags = s.flags ∧ t.obs = s.obs ∧
      t.env.acks = s.env.acks ∧ t.env.ackPos = s.env.ackPos) ∧
    (nextAgent s = .seq → t.ticks = s.ticks ∧ t.obs = s.obs)

/-! ### Invariants every step keeps -/

/-- 10_state R55, 20_memory R80, R83: no agent writes the command stream or the string memory, and none
changes the configuration. -/
def Obligations.LaunchDataNeverChanges : Prop :=
  ∀ s t : State, step s = .next t → t.cs = s.cs ∧ t.str = s.str ∧ t.cfg = s.cfg

/-- 10_state R57, 40_microops R145, 20_memory R75: the history only grows, by at most one event a step, two
when a read-modify-write is fused. -/
def Obligations.HistoryOnlyGrows : Prop :=
  ∀ s t : State, step s = .next t →
    ∃ es, t.hist = s.hist ++ es ∧ es.length ≤ (if s.cfg.rmwAtomic then 2 else 1)

/-- 10_state R51, 43_i2c R224 to R231: in every phase the status flags are the ones the phase gives, and
every step keeps that, whatever micro-operations stand in the queue. -/
def Obligations.FlagsMatchPhaseIsKept : Prop :=
  ∀ s t : State, flagsMatchPhase s = true → step s = .next t → flagsMatchPhase t = true

/-- 43_i2c R234, R238: the bus trace is always a sequence of complete transactions, the last possibly not
yet stopped or ended by a NACK, standing where the phase says; so every stop comes before the next start.
Every step keeps that, whatever micro-operations stand in the queue. -/
def Obligations.BusTraceMatchesPhaseIsKept : Prop :=
  ∀ s t : State, busWalk .quiet (busTrace s.hist) = some (phaseBus s.i2cp.ph) →
    flagsMatchPhase s = true → step s = .next t →
    busWalk .quiet (busTrace t.hist) = some (phaseBus t.i2cp.ph)

/-- 10_state R27, R28, R29, R34, R40 to R42, as log 8 reads them (DEDUCED): reserved bits of the control and
clock registers are never changed by any step. -/
def Obligations.ReservedBitsAreKept : Prop :=
  ∀ s t : State, reservedBitsKept s = true → step s = .next t → reservedBitsKept t = true

/-- 44_nybble R274, R275: the observer is a function of the bus events alone: it is always what the bus
trace makes of its starting value, so no other event moves it. -/
def Obligations.ObserverFollowsTheHistory : Prop :=
  ∀ (o : Observer) (s t : State), s.obs = (busTrace s.hist).foldl observe o →
    step s = .next t → t.obs = (busTrace t.hist).foldl observe o

/-- The invariants above hold at reset (10_state R58). -/
def Obligations.ResetMeetsTheInvariants : Prop :=
  flagsMatchPhase State.reset = true ∧
  busWalk .quiet (busTrace State.reset.hist) = some (phaseBus State.reset.i2cp.ph) ∧
  reservedBitsKept State.reset = true ∧
  State.reset.obs = (busTrace State.reset.hist).foldl observe State.reset.obs ∧
  Memory.wf State.reset.str = true

/-! ### Whole commands, under every schedule -/

/-- 42_businit R190 to R195, R199: from any state at rest INIT_BUS's expansion, run to its end, leaves the
bus ready: clocks on, reset released, `CR1 = 1`, the divider programmed, every other pin's fields and every
other clock and reset bit as before, the instance's RCC reset bit 0 under RESET_STYLE RCC, the observer as
before, no bus event. Stated for the sequencer's own turns, 28 steps, or 14 when
read-modify-writes are fused. -/
def Obligations.InitBusMakesTheBusReady : Prop :=
  ∀ (s : State) (later : List Agent), configOk s.cfg = true → s.status = .running →
    s.mq = initbusOps s.cfg → s.i2cp.ph = .idle →
    let n := if s.cfg.rmwAtomic then 14 else 28
    s.env.sched = List.replicate n .seq ++ later →
    ∃ t, run n s = .next t ∧ t.mq = [] ∧ t.status = .running ∧ t.cp = s.cp ∧ busAtRest t = true ∧
      t.i2c.ccr = BitVec.ofNat 32 (ccrVal s.cfg) ∧ busTrace t.hist = busTrace s.hist ∧
      t.hist.length = s.hist.length + 28 ∧
      t.rcc.ahb1enr = s.rcc.ahb1enr ||| (1 <<< portIndex s.cfg.gpioPort) ∧
      t.rcc.apb1enr = s.rcc.apb1enr ||| (1 <<< (20 + instNumber s.cfg.i2cInst)) ∧
      t.rcc.apb1rstr = (if s.cfg.resetStyle = .rcc
        then s.rcc.apb1rstr &&& ~~~((1 : Word) <<< (20 + instNumber s.cfg.i2cInst)) else s.rcc.apb1rstr) ∧
      t.obs = s.obs ∧
      (∀ p : Fin 16, p ≠ s.cfg.pinScl → p ≠ s.cfg.pinSda →
        pinField2 t.gpio.moder p = pinField2 s.gpio.moder p ∧ afrField t.gpio p = afrField s.gpio p ∧
        t.gpio.otyper.getLsbD p.val = s.gpio.otyper.getLsbD p.val ∧
        pinField2 t.gpio.ospeedr p = pinField2 s.gpio.ospeedr p ∧
        pinField2 t.gpio.pupdr p = pinField2 s.gpio.pupdr p) ∧
      pinField2 t.gpio.ospeedr s.cfg.pinScl = 0b11 ∧ pinField2 t.gpio.ospeedr s.cfg.pinSda = 0b11 ∧
      t.stk = s.stk ∧ t.ticks = s.ticks

/-- 43_i2c R237, 95_test_vectors V-I2CW-1: one transaction with no unsuccessful poll: its register events
and bus events in order, and the registers it leaves. -/
def Obligations.I2cwMinimalTransaction : Prop :=
  ∀ (s : State) (a : BitVec 7) (b : Byte) (later : List Agent) (acks : List Ack),
    s.status = .running → s.cfg.rmwAtomic = false → s.mq = i2cwOps s.cfg a b → busAtRest s = true →
    s.env.sched = [.seq, .seq, .i2cp, .seq, .seq, .i2cp, .seq, .seq, .seq, .seq, .seq, .i2cp, .i2cp,
      .seq, .seq, .seq, .i2cp] ++ later →
    s.env.acks = .ack :: .ack :: acks →
    let x : Byte := a.setWidth 8 <<< 1
    let cr1 := regAddr s.cfg .i2cCr1
    let dr := regAddr s.cfg .i2cDr
    let sr1 := regAddr s.cfg .i2cSr1
    let sr2 := regAddr s.cfg .i2cSr2
    ∃ t, run 17 s = .next t ∧ t.mq = [] ∧ t.status = .running ∧ t.cp = s.cp ∧
      t.hist = s.hist ++ [.rd cr1 0x1, .wr cr1 0x101, .busStart, .rd sr1 0x1, .wr dr (x.setWidth 32),
        .busAddr x .ack, .rd sr1 0x2, .rd sr1 0x2, .rd sr2 0x7, .rd sr1 0x80, .wr dr (b.setWidth 32),
        .busData b .ack, .rd sr1 0x84, .rd cr1 0x1, .wr cr1 0x201, .busStop] ∧
      t.i2c = { s.i2c with dr := b } ∧ t.flags = I2cFlags.reset ∧ t.i2cp.ph = .idle ∧
      t.stk = s.stk ∧ t.rcc = s.rcc ∧ t.gpio = s.gpio ∧ t.ticks = s.ticks

/-- 43_i2c R234, R237, R238, 41_timer R170, 00_scope R14: a queue of sends, run under ANY schedule and any
acknowledge draws from a bus at rest, puts on the bus exactly the complete transactions of its bytes, in
order, by the time the queue is empty without a fault (the last stop may still be pending), and, when the
arm clears the counter, takes at least its delays' counter steps. Read-modify-writes may be fused or not:
where the race of R239 strikes, the run has faulted. -/
def Obligations.QueuedSendsReachTheBus : Prop :=
  ∀ (s t : State) (a : BitVec 7) (l : List Send) (n : Nat),
    reload s.cfg ≤ 0xFFFFFF → s.status = .running → s.mq = sendOps s.cfg a l →
    busAtRest s = true → run n s = .next t → t.mq = [] → t.cp = s.cp → t.status = .running →
    (∃ pending, busTrace t.hist ++ pending
        = busTrace s.hist ++ (sendBytes l).flatMap (transactionEvents a) ∧
      ((t.i2cp.ph = .idle ∧ pending = []) ∨
        (t.i2cp.ph = .dataDone ∧ t.i2c.cr1.getLsbD 9 = true ∧ pending = [.busStop]))) ∧
    (s.cfg.armClearsVal = true → s.ticks + (sendDelays l).sum * (reload s.cfg + 1) ≤ t.ticks)

/-- 44_nybble R271 to R277: started on a bus at rest, NYB, CMD and DATA that run to their end without a fault
add exactly their two or four complete transactions to 0x27, under any schedule, and the LCD latches
exactly the nybble or the two nybbles of the byte, high first, with the command's RS. -/
def Obligations.NybbleCommandsSendAndLatch : Prop :=
  let high (d : BitVec 4) (rs : BitVec 1) : Byte := d ++ 0b11#2 ++ 0#1 ++ rs
  let low (d : BitVec 4) (rs : BitVec 1) : Byte := d ++ 0b10#2 ++ 0#1 ++ rs
  let sendsAndLatches (i : Instr) (bytes : List Byte) (latched : List LcdNyb) : Prop :=
    ∀ (s₀ s t : State) (n : Nat), reload s₀.cfg ≤ 0xFFFFFF →
      s₀.status = .running → busAtRest s₀ = true → exec i s₀ = .next s →
      run n s = .next t → t.mq = [] → t.cp = s.cp → t.status = .running →
      (∃ pending, busTrace t.hist ++ pending
          = busTrace s₀.hist ++ bytes.flatMap (transactionEvents 0x27) ∧
        (pending = [] ∨ pending = [.busStop])) ∧
      t.obs.nybs = s₀.obs.nybs ++ latched
  (∀ (d : BitVec 4) (rs : BitVec 1), sendsAndLatches (.nyb d rs) [high d rs, low d rs] [⟨d, rs⟩]) ∧
  (∀ b : Byte,
    let h := b.extractLsb' 4 4
    let l := b.extractLsb' 0 4
    sendsAndLatches (.cmd b) [high h 0, low h 0, high l 0, low l 0] [⟨h, 0⟩, ⟨l, 0⟩] ∧
    sendsAndLatches (.data b) [high h 1, low h 1, high l 1, low l 1] [⟨h, 1⟩, ⟨l, 1⟩])

/-- 45_display R312, 40_microops R140: PRINT sends the string at its address and nothing else: the four
bytes of each character's DATA, left to right, up to the first 0x00, under any schedule that
brings it to its end without a fault; the empty string sends nothing. -/
def Obligations.PrintSendsItsString : Prop :=
  ∀ (s t : State) (p k n : Nat), reload s.cfg ≤ 0xFFFFFF →
    s.status = .running → s.mq = [.strch p] → busAtRest s = true →
    p + k < s.cfg.strmemSize → (∀ j < k, s.str.read (p + j) ≠ 0) → s.str.read (p + k) = 0 →
    run n s = .next t → t.mq = [] → t.cp = s.cp → t.status = .running →
    let dataBytes (b : Byte) : List Byte :=
      let h : BitVec 4 := b.extractLsb' 4 4
      let l : BitVec 4 := b.extractLsb' 0 4
      [h ++ 0xD#4, h ++ 0x9#4, l ++ 0xD#4, l ++ 0x9#4]
    ∃ pending, busTrace t.hist ++ pending = busTrace s.hist ++
        ((List.range k).flatMap fun j => dataBytes (s.str.read (p + j))).flatMap (transactionEvents 0x27) ∧
      (pending = [] ∨ pending = [.busStop])

/-- 43_i2c R227, R230, R236, 60_exceptions R356: after a NACK the poll for ADDR or for BTF never ends, under
any schedule: the run goes on for ever with `CP` and the queue unchanged, and no fault. -/
def Obligations.NackHangsThePoll : Prop :=
  ∀ (s : State) (m : Word) (rest : List MicroOp) (n : Nat), s.status = .running →
    (m = mAddr ∨ m = mBtf) → s.mq = .poll (regAddr s.cfg .i2cSr1) m :: rest →
    s.i2cp.ph = .nacked → s.flags.addr = false → s.flags.btf = false →
    ∃ t, run n s = .next t ∧ t.mq = s.mq ∧ t.cp = s.cp ∧ t.status = .running ∧ t.i2cp.ph = .nacked

/-- 43_i2c R239: the read-modify-write race. When stop generation falls between the `LDT` that read a
pending stop and the `STOR` of a start request, that store faults with `spurious_stop`. -/
def Obligations.StopRaceFaults : Prop :=
  ∀ (s : State) (rest : List MicroOp) (later : List Agent), s.status = .running → busReady s = true →
    s.i2cp.ph = .dataDone → s.i2c.cr1 = 0x201 → s.tmp = 0x201 →
    s.mq = .stor (regAddr s.cfg .i2cCr1) mStart :: rest → s.env.sched = .i2cp :: .seq :: later →
    ∃ t, run 2 s = .next t ∧ t.status = .faulted (.periphUnmodelled (s.cp - 1) .spuriousStop) ∧
      t.hist = s.hist ++ [.busStop, .fault (.periphUnmodelled (s.cp - 1) .spuriousStop)] ∧
      t.i2c.cr1 = 0x001 ∧ t.mq = []

/-! ### Admitted runs -/

/-- 43_i2c R223, R226, R239, 42_businit R190, R197, R200: in every run of every admitted configuration and
stream, under every schedule and every acknowledge draw, the only `PERIPH_UNMODELLED` fault is the
spurious stop of the race, and with fused read-modify-writes there is none. -/
def Obligations.OnlyTheStopRaceIsUnmodelled : Prop :=
  ∀ (c : Config) (d : ResetDraws) (cs : List Word) (str : Memory) (e : Env) (s t : State) (n : Nat),
    launch c d cs str = .next s → run n { s with env := e } = .next t →
    match t.status with
    | .faulted (.periphUnmodelled _ why) => why = .spuriousStop ∧ c.rmwAtomic = false
    | _ => True

/-- 20_memory R71, 10_state R29, R30, R35, R39, 60_exceptions R354: no run of an admitted configuration and
stream ends at an address that is no register of the machine (so "their registers"), and CR2, OAR1, OAR2,
TRISE, FLTR and TICKINT keep their reset values, CALIB the value drawn for it (log 5). -/
def Obligations.AdmittedRunsUseOnlyTheirRegisters : Prop :=
  ∀ (c : Config) (d : ResetDraws) (cs : List Word) (str : Memory) (e : Env) (s : State) (n : Nat),
    launch c d cs str = .next s →
    (∀ a, run n { s with env := e } ≠ .fault (.unmappedRegister a)) ∧
    (∀ t, run n { s with env := e } = .next t →
      t.i2c.cr2 = 0 ∧ t.i2c.oar1 = 0 ∧ t.i2c.oar2 = 0 ∧ t.i2c.trise = 2 ∧ t.i2c.fltr = 0 ∧
      t.stk.tickint = false ∧ t.stk.calib = d.calib)

/-- 70_reset R383, 43_i2c R223: a stream with no INIT_BUS never puts anything on the bus, whatever its
other commands, the schedule and the draws. -/
def Obligations.NoBusTrafficWithoutInitBus : Prop :=
  ∀ (c : Config) (d : ResetDraws) (cs : List Word) (str : Memory) (e : Env) (s t : State) (n : Nat),
    launch c d cs str = .next s → (∀ w ∈ cs, decode w ≠ .command .initBus) →
    run n { s with env := e } = .next t →
    busTrace t.hist = [] ∧ t.rcc.apb1enr = 0 ∧ t.obs = s.obs

/-! ### Launch and reset -/

/-- 00_scope R6, 60_exceptions R357: a configuration outside the constraints, or an ill-formed stream, is
refused; every other launch is the reset state with the launch data loaded. -/
def Obligations.LaunchRefusesOrStarts : Prop :=
  ∀ (c : Config) (d : ResetDraws) (cs : List Word) (str : Memory),
    let reloadVal := c.fSys / 1000 - 1
    let divider := c.fSys / (2 * 100000)
    let constraints := 1 ≤ reloadVal ∧ reloadVal ≤ 0xFFFFFF ∧ 4 ≤ divider ∧ divider ≤ 0xFFF ∧
      c.pinScl ≠ c.pinSda ∧ 1 ≤ c.strmemSize ∧ c.strmemSize ≤ 65536
    (¬ constraints → launch c d cs str = .refused .badConfig) ∧
    (constraints → streamOk cs = false → launch c d cs str = .refused .illFormedStream) ∧
    (constraints → streamOk cs = true →
      launch c d cs str = .next { State.powerOn c d with cs := cs, str := str })

/-- 45_display R315: a stream is admitted exactly when, up to its first IDLE word, it has at most one
INIT_BUS, at most one LCDINIT, and after an LCDINIT only CMD, DATA, PRINT, CLEAR, DELAY and IDLE; illegal
words and words after the first IDLE are no ground for refusal. -/
def Obligations.StreamAdmission : Prop :=
  ∀ cs : List Word,
    let ds := (cs.map decode).takeWhile (· ≠ .command .idle)
    streamOk cs = true ↔
      ds.count (.command .initBus) ≤ 1 ∧ ds.count (.command .lcdInit) ≤ 1 ∧
      ∀ (before after : List Decoded), ds = before ++ .command .lcdInit :: after →
        ∀ x ∈ after, (∃ why, x = .illegal why) ∨ ∃ i, x = .command i ∧
          (i.mnemonic = "CMD" ∨ i.mnemonic = "DATA" ∨ i.mnemonic = "PRINT" ∨ i.mnemonic = "CLEAR" ∨
            i.mnemonic = "DELAY" ∨ i.mnemonic = "IDLE")

/-- 70_reset R381, 10_state R58: the state after reset, for every configuration and every draw. That
`State.reset` takes uninterpreted constants for the OPEN parameters and the draws is the model's (log 4,
log 5, DESIGN CHOICE). -/
def Obligations.ResetState : Prop :=
  ∀ (c : Config) (d : ResetDraws),
    let s := State.powerOn c d
    s.cp = 0 ∧ s.mq = [] ∧ s.status = .running ∧
    s.i2c.cr1 = 0 ∧ s.i2c.cr2 = 0 ∧ s.i2c.oar1 = 0 ∧ s.i2c.oar2 = 0 ∧ s.i2c.dr = 0 ∧ s.i2c.ccr = 0 ∧
    s.i2c.fltr = 0 ∧ s.i2c.trise = 0x0000_0002 ∧ sr1View s.flags = 0 ∧ sr2View s.flags = 0 ∧
    s.i2cp.ph = .idle ∧ s.i2cp.sr1Seen = false ∧ s.i2cp.inReset = false ∧
    ctrlView s.stk = 0 ∧ s.stk.load = d.stkLoad ∧ s.stk.val = d.stkVal ∧
    s.rcc.ahb1enr = 0x0010_0000 ∧ s.rcc.apb1enr = 0 ∧ s.rcc.apb1rstr = 0 ∧
    gpioClocked s = false ∧ i2cClocked s = false ∧
    s.gpio = ⟨d.moder, d.otyper, d.ospeedr, d.pupdr, d.afrl, d.afrh⟩ ∧
    s.tmp = d.tmp ∧ s.i2cp.shift = d.shift ∧
    s.obs.port = c.expInit ∧ s.obs.sel = false ∧ s.obs.nybs = [] ∧
    s.ticks = 0 ∧ s.hist = [] ∧ State.reset = State.powerOn Config.board Config.resetDraws

/-- 70_reset R380: a reset of the block puts the block in the reset state with new draws, from any state,
and leaves the launch data and the observer as they were. -/
def Obligations.BlockResetKeepsLaunchDataAndObserver : Prop :=
  ∀ (s : State) (d : ResetDraws),
    (s.blockReset d).cs = s.cs ∧ (s.blockReset d).str = s.str ∧ (s.blockReset d).cfg = s.cfg ∧
    (s.blockReset d).obs = s.obs ∧
    s.blockReset d = { State.powerOn s.cfg d with
      cs := s.cs, str := s.str, obs := s.obs, env := s.env }

/-! ### Bus bytes and assembler -/

/-- 30_encoding R113, 44_nybble R270: the address byte and the expander byte, bit for bit, and the
expander's own address byte. -/
def Obligations.BusBytesBitForBit : Prop :=
  (∀ a : BitVec 7, (addrByte a).extractLsb' 1 7 = a ∧ (addrByte a).getLsbD 0 = false) ∧
  addrByte 0x27 = 0x4E ∧
  (∀ (d : BitVec 4) (en rs : BitVec 1),
    (pack d en rs).extractLsb' 4 4 = d ∧ (pack d en rs).getLsbD 3 = true ∧
    (pack d en rs).extractLsb' 2 1 = en ∧ (pack d en rs).getLsbD 1 = false ∧
    (pack d en rs).extractLsb' 0 1 = rs)

/-- 30_encoding R117, R118: every line the assembler accepts emits well-formed commands, an operand outside
its constraint is an assembly error that emits nothing, and PUTC, BOOT and `.str` expand as stated. That a
`.str` holds over bytes an earlier one has placed is the model's (log 22, DESIGN CHOICE). -/
def Obligations.AssemblerLines : Prop :=
  (∀ (l : AsmLine) (is : List Instr), l.commands = some is → ∀ i ∈ is, i.wf = true) ∧
  (∀ ms, (AsmLine.delay ms).commands = if ms < 2 ^ 28 then some [.delay ms] else none) ∧
  (∀ a b, (AsmLine.i2cw a b).commands =
    if a < 0x80 ∧ b < 0x100 then some [.i2cw (BitVec.ofNat 7 a) (BitVec.ofNat 8 b)] else none) ∧
  (∀ v r, (AsmLine.nyb v r).commands =
    if v < 0x100 ∧ v % 16 = 0 ∧ (r = 0 ∨ r = 1) then some [.nyb (BitVec.ofNat 4 (v >>> 4)) (BitVec.ofNat 1 r)]
    else none) ∧
  (∀ b, (AsmLine.cmd b).commands = if b < 0x100 then some [.cmd (BitVec.ofNat 8 b)] else none) ∧
  (∀ b, (AsmLine.data b).commands = if b < 0x100 then some [.data (BitVec.ofNat 8 b)] else none) ∧
  (∀ p, (AsmLine.print p).commands = if p < 0x10000 then some [.print p] else none) ∧
  (AsmLine.initBus.commands = some [.initBus] ∧ AsmLine.lcdInit.commands = some [.lcdInit] ∧
    AsmLine.clear.commands = some [.clear] ∧ AsmLine.idle.commands = some [.idle]) ∧
  (∀ b, (AsmLine.putc b).commands =
    if b < 0x100 then some [.data (BitVec.ofNat 8 b), .delay 10] else none) ∧
  (∀ p, (AsmLine.boot p).commands =
    if p < 0x10000 then some [.initBus, .lcdInit, .clear, .print p, .idle] else none) ∧
  (∀ (size : Nat) (ls : List AsmLine) (img : Image),
    (∃ l ∈ ls, l.commands = none) → assembleLines size ls img = none) ∧
  (∀ (size : Nat) (img : Image) (p : Nat) (text : List Byte), p + text.length < size →
    Memory.wf img.str = true →
    ∃ out, assembleLines size [.str p text] img = some out ∧ out.cs = img.cs ∧
      Memory.wf out.str = true ∧
      ∀ q, out.str.read q = if q < p ∨ p + text.length < q then img.str.read q
        else text.getD (q - p) 0x00)

/-! ### Infinite executions -/

/-- 41_timer R169: in every execution the model admits (`Execution`, which holds the fairness R169 demands by
its definition, log 19), if the counter stays enabled from some point on, it
takes infinitely many steps: its count of steps grows without bound. So a `TICKWAIT` at the head, with a
reload of at least 1, ends in every execution in which the sequencer takes infinitely many turns (R164,
40_microops R139). -/
def Obligations.EveryExecutionIsFairToTheCounter : Prop :=
  ∀ (agent : Nat → Agent) (ack : Nat → Ack) (r : Nat → State), Execution agent ack r →
    (∀ n, (∀ m, n ≤ m → (r m).stk.enable = true) →
      ∀ k, ∃ m, n ≤ m ∧ (r n).ticks + k ≤ (r m).ticks) ∧
    (∀ (n k : Nat) (rest : List MicroOp), (∀ m, ∃ j, m ≤ j ∧ agent j = .seq) → 1 ≤ k →
      (r n).status = .running → (r n).mq = .tickwait k :: rest → (r n).stk.enable = true →
      1 ≤ (r n).stk.load.toNat → ∃ m, n ≤ m ∧ (r m).mq = rest)
end

