-- ==== Sys2Proof/Laws/Decode.lean ====
section
/-! SUPPORT. Fields of a word, bit by bit, and the byte image of a word. -/

namespace Sys2Proof

theorem getLsbD_field (w : Word) (lo len i : Nat) :
    (field w lo len).getLsbD i = (decide (i < len) && w.getLsbD (lo + i)) := by
  simp [field]

/-- A field is known by its bits. -/
theorem field_eq {w : Word} {lo len : Nat} {v : BitVec len}
    (h : ∀ i, i < len → w.getLsbD (lo + i) = v.getLsbD i) : field w lo len = v := by
  apply BitVec.eq_of_getLsbD_eq
  intro i hi
  rw [getLsbD_field, h i hi, decide_eq_true hi, Bool.true_and]

/-- Four bytes of a word put together are the word. -/
theorem bytesWord_wordBytes (w : Word) :
    bytesWord (field w 0 8) (field w 8 8) (field w 16 8) (field w 24 8) = w := by
  apply BitVec.eq_of_getLsbD_eq
  intro i hi
  simp only [bytesWord, BitVec.getLsbD_or, BitVec.getLsbD_shiftLeft, BitVec.getLsbD_setWidth,
    getLsbD_field]
  have : i < 8 ∨ (8 ≤ i ∧ i < 16) ∨ (16 ≤ i ∧ i < 24) ∨ (24 ≤ i ∧ i < 32) := by omega
  rcases this with h | h | h | h
  · simp [h, hi, show i < 16 by omega, show i < 24 by omega]
  · simp [h, hi, show ¬ i < 8 by omega, show i < 24 by omega, show i - 8 < 8 by omega,
      show i - 8 < 32 by omega, show 8 + (i - 8) = i by omega]
  · simp [h, hi, show ¬ i < 8 by omega, show ¬ i < 16 by omega, show ¬ i - 8 < 8 by omega,
      show i - 16 < 8 by omega, show i - 16 < 32 by omega, show 16 + (i - 16) = i by omega]
  · simp [h, show ¬ i < 8 by omega, show ¬ i < 16 by omega, show ¬ i < 24 by omega,
      show ¬ i - 8 < 8 by omega, show ¬ i - 16 < 8 by omega,
      show i - 24 < 8 by omega, show i - 24 < 32 by omega, show 24 + (i - 24) = i by omega]

/-- Decoding the byte image of a word is decoding the word. -/
theorem decodeBytes_wordBytes (w : Word) (rest : List Byte) :
    decodeBytes (wordBytes w ++ rest) = (decode w, rest) := by
  simp [wordBytes, decodeBytes, bytesWord_wordBytes]

end Sys2Proof
end

