-- ==== Sys2Proof/Laws/State.lean ====
section
/-! SUPPORT. One lemma per field per update of the state: what the update puts there. -/

namespace Sys2Proof.Machine

/-! ### `emit` -/

@[simp] theorem emit_cfg (s : State) (e : Event) : (s.emit e).cfg = s.cfg := rfl
@[simp] theorem emit_cs (s : State) (e : Event) : (s.emit e).cs = s.cs := rfl
@[simp] theorem emit_str (s : State) (e : Event) : (s.emit e).str = s.str := rfl
@[simp] theorem emit_cp (s : State) (e : Event) : (s.emit e).cp = s.cp := rfl
@[simp] theorem emit_mq (s : State) (e : Event) : (s.emit e).mq = s.mq := rfl
@[simp] theorem emit_status (s : State) (e : Event) : (s.emit e).status = s.status := rfl
@[simp] theorem emit_tmp (s : State) (e : Event) : (s.emit e).tmp = s.tmp := rfl
@[simp] theorem emit_i2c (s : State) (e : Event) : (s.emit e).i2c = s.i2c := rfl
@[simp] theorem emit_i2cp (s : State) (e : Event) : (s.emit e).i2cp = s.i2cp := rfl
@[simp] theorem emit_flags (s : State) (e : Event) : (s.emit e).flags = s.flags := rfl
@[simp] theorem emit_stk (s : State) (e : Event) : (s.emit e).stk = s.stk := rfl
@[simp] theorem emit_rcc (s : State) (e : Event) : (s.emit e).rcc = s.rcc := rfl
@[simp] theorem emit_gpio (s : State) (e : Event) : (s.emit e).gpio = s.gpio := rfl
@[simp] theorem emit_ticks (s : State) (e : Event) : (s.emit e).ticks = s.ticks := rfl
@[simp] theorem emit_obs (s : State) (e : Event) : (s.emit e).obs = observe s.obs e := rfl
@[simp] theorem emit_hist (s : State) (e : Event) : (s.emit e).hist = s.hist ++ [e] := rfl
@[simp] theorem emit_env (s : State) (e : Event) : (s.emit e).env = s.env := rfl

/-! ### `raise` -/

@[simp] theorem raise_cfg (s : State) (f : BlockFault) : (s.raise f).cfg = s.cfg := rfl
@[simp] theorem raise_cs (s : State) (f : BlockFault) : (s.raise f).cs = s.cs := rfl
@[simp] theorem raise_str (s : State) (f : BlockFault) : (s.raise f).str = s.str := rfl
@[simp] theorem raise_cp (s : State) (f : BlockFault) : (s.raise f).cp = s.cp := rfl
@[simp] theorem raise_mq (s : State) (f : BlockFault) : (s.raise f).mq = [] := rfl
@[simp] theorem raise_status (s : State) (f : BlockFault) : (s.raise f).status = .faulted f := rfl
@[simp] theorem raise_tmp (s : State) (f : BlockFault) : (s.raise f).tmp = s.tmp := rfl
@[simp] theorem raise_i2c (s : State) (f : BlockFault) : (s.raise f).i2c = s.i2c := rfl
@[simp] theorem raise_i2cp (s : State) (f : BlockFault) : (s.raise f).i2cp = s.i2cp := rfl
@[simp] theorem raise_flags (s : State) (f : BlockFault) : (s.raise f).flags = s.flags := rfl
@[simp] theorem raise_stk (s : State) (f : BlockFault) : (s.raise f).stk = s.stk := rfl
@[simp] theorem raise_rcc (s : State) (f : BlockFault) : (s.raise f).rcc = s.rcc := rfl
@[simp] theorem raise_gpio (s : State) (f : BlockFault) : (s.raise f).gpio = s.gpio := rfl
@[simp] theorem raise_ticks (s : State) (f : BlockFault) : (s.raise f).ticks = s.ticks := rfl
@[simp] theorem raise_obs (s : State) (f : BlockFault) : (s.raise f).obs = s.obs := rfl
@[simp] theorem raise_hist (s : State) (f : BlockFault) : (s.raise f).hist = s.hist ++ [.fault f] := rfl
@[simp] theorem raise_env (s : State) (f : BlockFault) : (s.raise f).env = s.env := rfl

/-! ### `startCommand` -/

@[simp] theorem startCommand_cfg (s : State) (ops : List MicroOp) : (s.startCommand ops).cfg = s.cfg := rfl
@[simp] theorem startCommand_cs (s : State) (ops : List MicroOp) : (s.startCommand ops).cs = s.cs := rfl
@[simp] theorem startCommand_str (s : State) (ops : List MicroOp) : (s.startCommand ops).str = s.str := rfl
@[simp] theorem startCommand_cp (s : State) (ops : List MicroOp) : (s.startCommand ops).cp = s.cp + 1 := rfl
@[simp] theorem startCommand_mq (s : State) (ops : List MicroOp) : (s.startCommand ops).mq = ops := rfl
@[simp] theorem startCommand_status (s : State) (ops : List MicroOp) : (s.startCommand ops).status = s.status := rfl
@[simp] theorem startCommand_tmp (s : State) (ops : List MicroOp) : (s.startCommand ops).tmp = s.tmp := rfl
@[simp] theorem startCommand_i2c (s : State) (ops : List MicroOp) : (s.startCommand ops).i2c = s.i2c := rfl
@[simp] theorem startCommand_i2cp (s : State) (ops : List MicroOp) : (s.startCommand ops).i2cp = s.i2cp := rfl
@[simp] theorem startCommand_flags (s : State) (ops : List MicroOp) : (s.startCommand ops).flags = s.flags := rfl
@[simp] theorem startCommand_stk (s : State) (ops : List MicroOp) : (s.startCommand ops).stk = s.stk := rfl
@[simp] theorem startCommand_rcc (s : State) (ops : List MicroOp) : (s.startCommand ops).rcc = s.rcc := rfl
@[simp] theorem startCommand_gpio (s : State) (ops : List MicroOp) : (s.startCommand ops).gpio = s.gpio := rfl
@[simp] theorem startCommand_ticks (s : State) (ops : List MicroOp) : (s.startCommand ops).ticks = s.ticks := rfl
@[simp] theorem startCommand_obs (s : State) (ops : List MicroOp) : (s.startCommand ops).obs = s.obs := rfl
@[simp] theorem startCommand_hist (s : State) (ops : List MicroOp) : (s.startCommand ops).hist = s.hist := rfl
@[simp] theorem startCommand_env (s : State) (ops : List MicroOp) : (s.startCommand ops).env = s.env := rfl

/-! ### `pop` -/

@[simp] theorem pop_cfg (s : State) : (s.pop).cfg = s.cfg := rfl
@[simp] theorem pop_cs (s : State) : (s.pop).cs = s.cs := rfl
@[simp] theorem pop_str (s : State) : (s.pop).str = s.str := rfl
@[simp] theorem pop_cp (s : State) : (s.pop).cp = s.cp := rfl
@[simp] theorem pop_mq (s : State) : (s.pop).mq = s.mq.tail := rfl
@[simp] theorem pop_status (s : State) : (s.pop).status = s.status := rfl
@[simp] theorem pop_tmp (s : State) : (s.pop).tmp = s.tmp := rfl
@[simp] theorem pop_i2c (s : State) : (s.pop).i2c = s.i2c := rfl
@[simp] theorem pop_i2cp (s : State) : (s.pop).i2cp = s.i2cp := rfl
@[simp] theorem pop_flags (s : State) : (s.pop).flags = s.flags := rfl
@[simp] theorem pop_stk (s : State) : (s.pop).stk = s.stk := rfl
@[simp] theorem pop_rcc (s : State) : (s.pop).rcc = s.rcc := rfl
@[simp] theorem pop_gpio (s : State) : (s.pop).gpio = s.gpio := rfl
@[simp] theorem pop_ticks (s : State) : (s.pop).ticks = s.ticks := rfl
@[simp] theorem pop_obs (s : State) : (s.pop).obs = s.obs := rfl
@[simp] theorem pop_hist (s : State) : (s.pop).hist = s.hist := rfl
@[simp] theorem pop_env (s : State) : (s.pop).env = s.env := rfl

/-! ### `takeTurn` -/

@[simp] theorem takeTurn_cfg (s : State) : (s.takeTurn).cfg = s.cfg := rfl
@[simp] theorem takeTurn_cs (s : State) : (s.takeTurn).cs = s.cs := rfl
@[simp] theorem takeTurn_str (s : State) : (s.takeTurn).str = s.str := rfl
@[simp] theorem takeTurn_cp (s : State) : (s.takeTurn).cp = s.cp := rfl
@[simp] theorem takeTurn_mq (s : State) : (s.takeTurn).mq = s.mq := rfl
@[simp] theorem takeTurn_status (s : State) : (s.takeTurn).status = s.status := rfl
@[simp] theorem takeTurn_tmp (s : State) : (s.takeTurn).tmp = s.tmp := rfl
@[simp] theorem takeTurn_i2c (s : State) : (s.takeTurn).i2c = s.i2c := rfl
@[simp] theorem takeTurn_i2cp (s : State) : (s.takeTurn).i2cp = s.i2cp := rfl
@[simp] theorem takeTurn_flags (s : State) : (s.takeTurn).flags = s.flags := rfl
@[simp] theorem takeTurn_stk (s : State) : (s.takeTurn).stk = s.stk := rfl
@[simp] theorem takeTurn_rcc (s : State) : (s.takeTurn).rcc = s.rcc := rfl
@[simp] theorem takeTurn_gpio (s : State) : (s.takeTurn).gpio = s.gpio := rfl
@[simp] theorem takeTurn_ticks (s : State) : (s.takeTurn).ticks = s.ticks := rfl
@[simp] theorem takeTurn_obs (s : State) : (s.takeTurn).obs = s.obs := rfl
@[simp] theorem takeTurn_hist (s : State) : (s.takeTurn).hist = s.hist := rfl
@[simp] theorem takeTurn_env (s : State) : (s.takeTurn).env = { s.env with sched := s.env.sched.tail, schedPos := s.env.schedPos + 1 } := rfl

/-! ### `takeAck` -/

@[simp] theorem takeAck_cfg (s : State) : (s.takeAck).cfg = s.cfg := rfl
@[simp] theorem takeAck_cs (s : State) : (s.takeAck).cs = s.cs := rfl
@[simp] theorem takeAck_str (s : State) : (s.takeAck).str = s.str := rfl
@[simp] theorem takeAck_cp (s : State) : (s.takeAck).cp = s.cp := rfl
@[simp] theorem takeAck_mq (s : State) : (s.takeAck).mq = s.mq := rfl
@[simp] theorem takeAck_status (s : State) : (s.takeAck).status = s.status := rfl
@[simp] theorem takeAck_tmp (s : State) : (s.takeAck).tmp = s.tmp := rfl
@[simp] theorem takeAck_i2c (s : State) : (s.takeAck).i2c = s.i2c := rfl
@[simp] theorem takeAck_i2cp (s : State) : (s.takeAck).i2cp = s.i2cp := rfl
@[simp] theorem takeAck_flags (s : State) : (s.takeAck).flags = s.flags := rfl
@[simp] theorem takeAck_stk (s : State) : (s.takeAck).stk = s.stk := rfl
@[simp] theorem takeAck_rcc (s : State) : (s.takeAck).rcc = s.rcc := rfl
@[simp] theorem takeAck_gpio (s : State) : (s.takeAck).gpio = s.gpio := rfl
@[simp] theorem takeAck_ticks (s : State) : (s.takeAck).ticks = s.ticks := rfl
@[simp] theorem takeAck_obs (s : State) : (s.takeAck).obs = s.obs := rfl
@[simp] theorem takeAck_hist (s : State) : (s.takeAck).hist = s.hist := rfl
@[simp] theorem takeAck_env (s : State) : (s.takeAck).env = { s.env with acks := s.env.acks.tail, ackPos := s.env.ackPos + 1 } := rfl

/-! ### `setCr1` -/

@[simp] theorem setCr1_cfg (v : Word) (s : State) : (setCr1 v s).cfg = s.cfg := rfl
@[simp] theorem setCr1_cs (v : Word) (s : State) : (setCr1 v s).cs = s.cs := rfl
@[simp] theorem setCr1_str (v : Word) (s : State) : (setCr1 v s).str = s.str := rfl
@[simp] theorem setCr1_cp (v : Word) (s : State) : (setCr1 v s).cp = s.cp := rfl
@[simp] theorem setCr1_mq (v : Word) (s : State) : (setCr1 v s).mq = s.mq := rfl
@[simp] theorem setCr1_status (v : Word) (s : State) : (setCr1 v s).status = s.status := rfl
@[simp] theorem setCr1_tmp (v : Word) (s : State) : (setCr1 v s).tmp = s.tmp := rfl
@[simp] theorem setCr1_i2c (v : Word) (s : State) : (setCr1 v s).i2c = { s.i2c with cr1 := v &&& cr1Fields } := rfl
@[simp] theorem setCr1_i2cp (v : Word) (s : State) : (setCr1 v s).i2cp = s.i2cp := rfl
@[simp] theorem setCr1_flags (v : Word) (s : State) : (setCr1 v s).flags = s.flags := rfl
@[simp] theorem setCr1_stk (v : Word) (s : State) : (setCr1 v s).stk = s.stk := rfl
@[simp] theorem setCr1_rcc (v : Word) (s : State) : (setCr1 v s).rcc = s.rcc := rfl
@[simp] theorem setCr1_gpio (v : Word) (s : State) : (setCr1 v s).gpio = s.gpio := rfl
@[simp] theorem setCr1_ticks (v : Word) (s : State) : (setCr1 v s).ticks = s.ticks := rfl
@[simp] theorem setCr1_obs (v : Word) (s : State) : (setCr1 v s).obs = s.obs := rfl
@[simp] theorem setCr1_hist (v : Word) (s : State) : (setCr1 v s).hist = s.hist := rfl
@[simp] theorem setCr1_env (v : Word) (s : State) : (setCr1 v s).env = s.env := rfl

/-! ### `holdI2cReset` -/

@[simp] theorem holdI2cReset_cfg (s : State) : (holdI2cReset s).cfg = s.cfg := rfl
@[simp] theorem holdI2cReset_cs (s : State) : (holdI2cReset s).cs = s.cs := rfl
@[simp] theorem holdI2cReset_str (s : State) : (holdI2cReset s).str = s.str := rfl
@[simp] theorem holdI2cReset_cp (s : State) : (holdI2cReset s).cp = s.cp := rfl
@[simp] theorem holdI2cReset_mq (s : State) : (holdI2cReset s).mq = s.mq := rfl
@[simp] theorem holdI2cReset_status (s : State) : (holdI2cReset s).status = s.status := rfl
@[simp] theorem holdI2cReset_tmp (s : State) : (holdI2cReset s).tmp = s.tmp := rfl
@[simp] theorem holdI2cReset_i2c (s : State) : (holdI2cReset s).i2c = I2cRegs.reset := rfl
@[simp] theorem holdI2cReset_i2cp (s : State) : (holdI2cReset s).i2cp = { s.i2cp with ph := .idle, sr1Seen := false, inReset := true } := rfl
@[simp] theorem holdI2cReset_flags (s : State) : (holdI2cReset s).flags = I2cFlags.reset := rfl
@[simp] theorem holdI2cReset_stk (s : State) : (holdI2cReset s).stk = s.stk := rfl
@[simp] theorem holdI2cReset_rcc (s : State) : (holdI2cReset s).rcc = s.rcc := rfl
@[simp] theorem holdI2cReset_gpio (s : State) : (holdI2cReset s).gpio = s.gpio := rfl
@[simp] theorem holdI2cReset_ticks (s : State) : (holdI2cReset s).ticks = s.ticks := rfl
@[simp] theorem holdI2cReset_obs (s : State) : (holdI2cReset s).obs = s.obs := rfl
@[simp] theorem holdI2cReset_hist (s : State) : (holdI2cReset s).hist = s.hist := rfl
@[simp] theorem holdI2cReset_env (s : State) : (holdI2cReset s).env = s.env := rfl

/-! ### `blockReset` -/

@[simp] theorem blockReset_cfg (s : State) (d : ResetDraws) : (s.blockReset d).cfg = s.cfg := rfl
@[simp] theorem blockReset_cs (s : State) (d : ResetDraws) : (s.blockReset d).cs = s.cs := rfl
@[simp] theorem blockReset_str (s : State) (d : ResetDraws) : (s.blockReset d).str = s.str := rfl
@[simp] theorem blockReset_cp (s : State) (d : ResetDraws) : (s.blockReset d).cp = 0 := rfl
@[simp] theorem blockReset_mq (s : State) (d : ResetDraws) : (s.blockReset d).mq = [] := rfl
@[simp] theorem blockReset_status (s : State) (d : ResetDraws) : (s.blockReset d).status = .running := rfl
@[simp] theorem blockReset_tmp (s : State) (d : ResetDraws) : (s.blockReset d).tmp = d.tmp := rfl
@[simp] theorem blockReset_i2c (s : State) (d : ResetDraws) : (s.blockReset d).i2c = I2cRegs.reset := rfl
@[simp] theorem blockReset_i2cp (s : State) (d : ResetDraws) : (s.blockReset d).i2cp = { ph := .idle, shift := d.shift, sr1Seen := false, inReset := false } := rfl
@[simp] theorem blockReset_flags (s : State) (d : ResetDraws) : (s.blockReset d).flags = I2cFlags.reset := rfl
@[simp] theorem blockReset_ticks (s : State) (d : ResetDraws) : (s.blockReset d).ticks = 0 := rfl
@[simp] theorem blockReset_obs (s : State) (d : ResetDraws) : (s.blockReset d).obs = s.obs := rfl
@[simp] theorem blockReset_hist (s : State) (d : ResetDraws) : (s.blockReset d).hist = [] := rfl
@[simp] theorem blockReset_env (s : State) (d : ResetDraws) : (s.blockReset d).env = s.env := rfl

end Sys2Proof.Machine
end

