-- ==== Sys2Proof/Laws/Devices.lean ====
section
/-! SUPPORT. What a turn of a device can change. -/

namespace Sys2Proof.Machine

/-- All a turn of the I2C peripheral can change. -/
theorem i2cpStep_eq (s : State) :
    i2cpStep s = { s with
      i2c := (i2cpStep s).i2c
      i2cp := (i2cpStep s).i2cp
      flags := (i2cpStep s).flags
      obs := (i2cpStep s).obs
      hist := (i2cpStep s).hist
      env := (i2cpStep s).env } := by
  unfold i2cpStep
  split
  · split
    · split <;> rfl
    · cases nextAck s <;> rfl
    · rfl
    · cases nextAck s <;> rfl
    · split <;> rfl
    all_goals rfl
  · rfl

/-- All a turn of the counter can change. -/
theorem stkStep_eq (s : State) :
    stkStep s = { s with stk := (stkStep s).stk, ticks := (stkStep s).ticks, hist := (stkStep s).hist } := by
  unfold stkStep countStep
  split
  · dsimp only
    split
    · rfl
    · split <;> rfl
  · rfl

/-- A turn of the counter changes only its value and COUNTFLAG among its fields. -/
theorem stkStep_stk (s : State) :
    (stkStep s).stk = { s.stk with val := (stkStep s).stk.val, countflag := (stkStep s).stk.countflag } := by
  unfold stkStep countStep
  split
  · dsimp only
    split
    · rfl
    · split <;> rfl
  · rfl

@[simp] theorem stkStep_enable (s : State) : (stkStep s).stk.enable = s.stk.enable := by rw [stkStep_stk]
@[simp] theorem stkStep_load (s : State) : (stkStep s).stk.load = s.stk.load := by rw [stkStep_stk]

/-- A turn of the peripheral that is not `accessible` changes nothing. -/
theorem i2cpStep_inaccessible {s : State} (h : accessible s = false) : i2cpStep s = s := by
  simp [i2cpStep, h]

/-- A turn of a disabled counter changes nothing. -/
theorem stkStep_disabled {s : State} (h : s.stk.enable = false) : stkStep s = s := by
  simp [stkStep, h]

end Sys2Proof.Machine
end

