-- ==== Sys2Proof/Laws/Memory.lean ====
section
/-! SUPPORT. The string memory: every operation keeps the canonical form, and what is read after a write. -/

namespace Sys2Proof.Machine

/-- Every entry of a canonical memory lies above `lo`. -/
def Memory.above (lo : Nat) : Memory → Prop
  | [] => True
  | (p, _) :: _ => lo < p

theorem Memory.wf_cons (p : Nat) (b : Byte) (m : Memory) :
    Memory.wf ((p, b) :: m) = true ↔ b ≠ Memory.unlisted ∧ Memory.above p m ∧ Memory.wf m = true := by
  cases m with
  | nil => simp [Memory.wf, Memory.above]
  | cons c rest => obtain ⟨q, d⟩ := c; simp [Memory.wf, Memory.above, and_assoc]

theorem Memory.wf_entry {p : Nat} {b : Byte} {m : Memory} (hm : Memory.wf m = true)
    (ha : Memory.above p m) : Memory.wf (Memory.entry p b m) = true := by
  unfold Memory.entry
  split
  · exact hm
  · exact (Memory.wf_cons p b m).2 ⟨‹_›, ha, hm⟩

theorem Memory.above_mono {lo p : Nat} {m : Memory} (h : Memory.above p m) (hp : lo < p) :
    Memory.above lo m := by
  cases m with
  | nil => trivial
  | cons c rest => exact Nat.lt_trans hp h

theorem Memory.above_entry {lo p : Nat} {b : Byte} {m : Memory} (hp : lo < p)
    (hm : Memory.above lo m) : Memory.above lo (Memory.entry p b m) := by
  unfold Memory.entry
  split
  · exact hm
  · exact hp

theorem Memory.above_write {lo : Nat} (m : Memory) (p : Nat) (b : Byte) (hp : lo < p)
    (hm : Memory.above lo m) (hw : Memory.wf m = true) : Memory.above lo (m.write p b) := by
  cases m with
  | nil => exact Memory.above_entry hp hm
  | cons c rest =>
    obtain ⟨q, d⟩ := c
    have hq := (Memory.wf_cons q d rest).1 hw
    simp only [Memory.write]
    split
    · exact Memory.above_entry hp hm
    · split
      · exact Memory.above_entry hp (Memory.above_mono hq.2.1 hm)
      · exact hm

/-- A write keeps the canonical form. -/
theorem Memory.wf_write (m : Memory) (p : Nat) (b : Byte) (hw : Memory.wf m = true) :
    Memory.wf (m.write p b) = true := by
  induction m with
  | nil => exact Memory.wf_entry rfl trivial
  | cons c rest ih =>
    obtain ⟨q, d⟩ := c
    have hq := (Memory.wf_cons q d rest).1 hw
    simp only [Memory.write]
    split
    · exact Memory.wf_entry hw ‹_›
    · split
      · rename_i h; subst h; exact Memory.wf_entry hq.2.2 hq.2.1
      · exact (Memory.wf_cons _ _ _).2
          ⟨hq.1, Memory.above_write rest p b (by omega) hq.2.1 hq.2.2, ih hq.2.2⟩

/-- Loading bytes keeps the canonical form. -/
theorem Memory.wf_load (bs : List Byte) (m : Memory) (p : Nat) (hw : Memory.wf m = true) :
    Memory.wf (m.load p bs) = true := by
  induction bs generalizing m p with
  | nil => exact hw
  | cons b bs ih => exact ih _ _ (Memory.wf_write m p b hw)

theorem Memory.read_above {p : Nat} {m : Memory} (ha : Memory.above p m) (hw : Memory.wf m = true) :
    m.read p = Memory.unlisted := by
  induction m with
  | nil => rfl
  | cons c rest ih =>
    obtain ⟨q, d⟩ := c
    have hq := (Memory.wf_cons q d rest).1 hw
    have hpq : p < q := ha
    rw [Memory.read, if_neg (by omega)]
    exact ih (Memory.above_mono hq.2.1 hpq) hq.2.2

/-- A canonical memory reads a written byte back, and every other byte as before. -/
theorem Memory.read_write (m : Memory) (p q : Nat) (b : Byte) (hw : Memory.wf m = true) :
    (m.write p b).read q = if q = p then b else m.read q := by
  have entry_read : ∀ rest : Memory, Memory.above p rest → Memory.wf rest = true →
      (Memory.entry p b rest).read q = if q = p then b else rest.read q := by
    intro rest ha hr
    unfold Memory.entry
    by_cases hb : b = Memory.unlisted
    · by_cases hq : q = p
      · subst hq; simp [hb, Memory.read_above ha hr]
      · simp [hb, hq]
    · by_cases hq : q = p
      · simp [hb, hq, Memory.read]
      · simp [hb, hq, Memory.read, Ne.symm hq]
  induction m with
  | nil => exact entry_read [] trivial rfl
  | cons c rest ih =>
    obtain ⟨r, d⟩ := c
    have hr := (Memory.wf_cons r d rest).1 hw
    simp only [Memory.write]
    split
    · exact entry_read _ ‹_› hw
    · split
      · rename_i h; subst h
        rw [entry_read _ hr.2.1 hr.2.2]
        by_cases hq : q = p
        · simp [hq]
        · simp [hq, Memory.read, Ne.symm hq]
      · rename_i h1 h2
        simp only [Memory.read]
        by_cases hq : r = q
        · subst hq; simp [Ne.symm h2]
        · simp [hq, ih hr.2.2]

end Sys2Proof.Machine
end

