-- ==== Sys2Proof/Laws/PerInstr.lean ====
section
/-! SUPPORT. The per-instruction family `RoundTrip`: decoding the encoding of a well-formed command gives
it back (30_encoding R112). -/

namespace Sys2Proof.Laws.RoundTrip

/-- What the family says of a command. -/
def Statement (i : Instr) : Prop := i.wf = true → decode (encode i) = .command i

theorem delay (ms : Nat) : Statement (.delay ms) := by
  intro h
  have hms : ms < 2 ^ 28 := of_decide_eq_true h
  have hop : field (encode (.delay ms)) 28 4 = 1#4 :=
    field_eq fun i hi => by interval_cases i <;> simp [encode]
  have hargs : field (encode (.delay ms)) 0 28 = BitVec.ofNat 28 ms :=
    field_eq fun i hi => by interval_cases i <;> simp [encode]
  simp only [decode, hop, hargs, BitVec.toNat_ofNat, Nat.mod_eq_of_lt hms]

theorem i2cw (addr : BitVec 7) (byte : Byte) : Statement (.i2cw addr byte) := by
  intro _
  have hop : field (encode (.i2cw addr byte)) 28 4 = 2#4 :=
    field_eq fun i hi => by interval_cases i <;> simp [encode]
  have hres : field (encode (.i2cw addr byte)) 15 13 = 0#13 :=
    field_eq fun i hi => by interval_cases i <;> simp [encode]
  have haddr : field (encode (.i2cw addr byte)) 8 7 = addr :=
    field_eq fun i hi => by interval_cases i <;> simp [encode]
  have hbyte : field (encode (.i2cw addr byte)) 0 8 = byte :=
    field_eq fun i hi => by interval_cases i <;> simp [encode]
  simp only [decode, hop, hres, haddr, hbyte]
  rfl

theorem nyb (nyb : BitVec 4) (rs : BitVec 1) : Statement (.nyb nyb rs) := by
  intro _
  have hop : field (encode (.nyb nyb rs)) 28 4 = 3#4 :=
    field_eq fun i hi => by interval_cases i <;> simp [encode]
  have hhigh : field (encode (.nyb nyb rs)) 9 19 = 0#19 :=
    field_eq fun i hi => by interval_cases i <;> simp [encode]
  have hlow : field (encode (.nyb nyb rs)) 0 4 = 0#4 :=
    field_eq fun i hi => by interval_cases i <;> simp [encode]
  have hnyb : field (encode (.nyb nyb rs)) 4 4 = nyb :=
    field_eq fun i hi => by interval_cases i <;> simp [encode]
  have hrs : field (encode (.nyb nyb rs)) 8 1 = rs :=
    field_eq fun i hi => by interval_cases i; simp [encode]
  simp only [decode, hop, hhigh, hlow, hnyb, hrs]
  rfl

theorem cmd (b : Byte) : Statement (.cmd b) := by
  intro _
  have hop : field (encode (.cmd b)) 28 4 = 4#4 :=
    field_eq fun i hi => by interval_cases i <;> simp [encode]
  have hres : field (encode (.cmd b)) 8 20 = 0#20 :=
    field_eq fun i hi => by interval_cases i <;> simp [encode]
  have hb : field (encode (.cmd b)) 0 8 = b :=
    field_eq fun i hi => by interval_cases i <;> simp [encode]
  simp only [decode, hop, hres, hb]
  rfl

theorem data (b : Byte) : Statement (.data b) := by
  intro _
  have hop : field (encode (.data b)) 28 4 = 5#4 :=
    field_eq fun i hi => by interval_cases i <;> simp [encode]
  have hres : field (encode (.data b)) 8 20 = 0#20 :=
    field_eq fun i hi => by interval_cases i <;> simp [encode]
  have hb : field (encode (.data b)) 0 8 = b :=
    field_eq fun i hi => by interval_cases i <;> simp [encode]
  simp only [decode, hop, hres, hb]
  rfl

theorem initBus : Statement .initBus := fun _ => rfl

theorem lcdInit : Statement .lcdInit := fun _ => rfl

theorem clear : Statement .clear := fun _ => rfl

theorem print (p : Nat) : Statement (.print p) := by
  intro h
  have hp : p < 2 ^ 16 := of_decide_eq_true h
  have hop : field (encode (.print p)) 28 4 = 9#4 :=
    field_eq fun i hi => by interval_cases i <;> simp [encode]
  have hres : field (encode (.print p)) 16 12 = 0#12 :=
    field_eq fun i hi => by interval_cases i <;> simp [encode]
  have hargs : field (encode (.print p)) 0 16 = BitVec.ofNat 16 p :=
    field_eq fun i hi => by interval_cases i <;> simp [encode]
  simp only [decode, hop, hres, hargs, BitVec.toNat_ofNat, Nat.mod_eq_of_lt hp]
  rfl

theorem idle : Statement .idle := fun _ => rfl

end Sys2Proof.Laws.RoundTrip
end

