-- ==== Sys2Proof/Laws/Registers.lean ====
section
/-! SUPPORT. Addresses, views and accesses: what a read returns and touches, what a write can do. -/

namespace Sys2Proof.Machine

/-! ### Addresses -/

theorem regOf_addrOf (inst : I2cInst) (port : GpioPort) (r : Reg) :
    regOf inst port (addrOf inst port r) = some r := by
  cases inst <;> cases port <;> cases r <;> decide

/-- Every register is found at its own address. -/
@[simp] theorem regAt_regAddr (c : Config) (r : Reg) : regAt c (regAddr c r) = some r :=
  regOf_addrOf _ _ _

/-- What is found at an address is the register with that address. -/
theorem regAddr_of_regAt {c : Config} {a : Word} {r : Reg} (h : regAt c a = some r) :
    regAddr c r = a := by
  have := List.find?_some h
  simpa [regAddr] using this

/-! ### Views -/

theorem flagBit_getLsbD (b : Bool) (n i : Nat) (hn : n < 32) :
    (flagBit b n).getLsbD i = (b && decide (i = n)) := by
  cases b
  · simp [flagBit]
  · simp only [flagBit, BitVec.ofBool_true, BitVec.getLsbD_shiftLeft, BitVec.getLsbD_setWidth,
      Bool.true_and]
    by_cases hi : i = n
    · subst hi; simp [hn]
    · by_cases hlt : i < n
      · simp [hlt, hi]
      · simp only [hi, decide_false]
        simp
        omega

theorem sr1View_sb (f : I2cFlags) : (sr1View f &&& mSb = mSb) ↔ f.sb = true := by
  obtain ⟨sb, addr, btf, txe, af, _, _, _⟩ := f
  cases sb <;> cases addr <;> cases btf <;> cases txe <;> cases af <;> simp [sr1View, flagBit, mSb]

theorem sr1View_addr (f : I2cFlags) : (sr1View f &&& mAddr = mAddr) ↔ f.addr = true := by
  obtain ⟨sb, addr, btf, txe, af, _, _, _⟩ := f
  cases sb <;> cases addr <;> cases btf <;> cases txe <;> cases af <;> simp [sr1View, flagBit, mAddr]

theorem sr1View_txe (f : I2cFlags) : (sr1View f &&& mTxe = mTxe) ↔ f.txe = true := by
  obtain ⟨sb, addr, btf, txe, af, _, _, _⟩ := f
  cases sb <;> cases addr <;> cases btf <;> cases txe <;> cases af <;> simp [sr1View, flagBit, mTxe]

theorem sr1View_btf (f : I2cFlags) : (sr1View f &&& mBtf = mBtf) ↔ f.btf = true := by
  obtain ⟨sb, addr, btf, txe, af, _, _, _⟩ := f
  cases sb <;> cases addr <;> cases btf <;> cases txe <;> cases af <;> simp [sr1View, flagBit, mBtf]

theorem ctrlView_countflag (k : Stk) : (ctrlView k).getLsbD 16 = k.countflag := by
  obtain ⟨enable, tickint, clksource, countflag, _, _, _⟩ := k
  cases enable <;> cases tickint <;> cases clksource <;> cases countflag <;> simp [ctrlView, flagBit]

theorem getLsbD_maskedInto (m old v : Word) (i : Nat) :
    (maskedInto m old v).getLsbD i
      = if m.getLsbD i then v.getLsbD i else old.getLsbD i := by
  by_cases hi : i < 32
  · simp only [maskedInto, BitVec.getLsbD_or, BitVec.getLsbD_and, BitVec.getLsbD_not]
    cases m.getLsbD i <;> simp [hi]
  · simp [BitVec.getLsbD_of_ge _ _ (Nat.le_of_not_lt hi)]

/-! ### Reads -/

/-- All a read can change: the phase group, the flags and the counter. -/
theorem readEffect_eq (r : Reg) (s : State) :
    readEffect r s = { s with
      i2cp := (readEffect r s).i2cp
      flags := (readEffect r s).flags
      stk := (readEffect r s).stk } := by
  cases r <;> simp only [readEffect, sr1ReadEffect, sr2ReadEffect] <;> (try split) <;> rfl

/-- A read does not see the environment, the queue, `TMP` or the history. -/
@[simp] theorem readValue_env (r : Reg) (s : State) (mq : List MicroOp) (tmp : Word) (hist : List Event)
    (env : Env) : readValue r { s with mq := mq, tmp := tmp, hist := hist, env := env } = readValue r s := by
  cases r <;> rfl

@[simp] theorem readValue_takeTurn (r : Reg) (s : State) : readValue r s.takeTurn = readValue r s := by
  cases r <;> rfl

/-- A register other than `SR1`, `SR2` and `STK.CTRL` reads without effect (20_memory R76). -/
theorem readEffect_none {r : Reg} (s : State) (h1 : r ≠ .i2cSr1) (h2 : r ≠ .i2cSr2) (h3 : r ≠ .stkCtrl) :
    readEffect r s = s := by
  cases r <;> first | rfl | contradiction

@[simp] theorem readEffect_cfg (r : Reg) (s : State) : (readEffect r s).cfg = s.cfg := by
  rw [readEffect_eq]
@[simp] theorem readEffect_cs (r : Reg) (s : State) : (readEffect r s).cs = s.cs := by
  rw [readEffect_eq]
@[simp] theorem readEffect_str (r : Reg) (s : State) : (readEffect r s).str = s.str := by
  rw [readEffect_eq]
@[simp] theorem readEffect_cp (r : Reg) (s : State) : (readEffect r s).cp = s.cp := by
  rw [readEffect_eq]
@[simp] theorem readEffect_mq (r : Reg) (s : State) : (readEffect r s).mq = s.mq := by
  rw [readEffect_eq]
@[simp] theorem readEffect_status (r : Reg) (s : State) : (readEffect r s).status = s.status := by
  rw [readEffect_eq]
@[simp] theorem readEffect_tmp (r : Reg) (s : State) : (readEffect r s).tmp = s.tmp := by
  rw [readEffect_eq]
@[simp] theorem readEffect_i2c (r : Reg) (s : State) : (readEffect r s).i2c = s.i2c := by
  rw [readEffect_eq]
@[simp] theorem readEffect_rcc (r : Reg) (s : State) : (readEffect r s).rcc = s.rcc := by
  rw [readEffect_eq]
@[simp] theorem readEffect_gpio (r : Reg) (s : State) : (readEffect r s).gpio = s.gpio := by
  rw [readEffect_eq]
@[simp] theorem readEffect_ticks (r : Reg) (s : State) : (readEffect r s).ticks = s.ticks := by
  rw [readEffect_eq]
@[simp] theorem readEffect_obs (r : Reg) (s : State) : (readEffect r s).obs = s.obs := by
  rw [readEffect_eq]
@[simp] theorem readEffect_hist (r : Reg) (s : State) : (readEffect r s).hist = s.hist := by
  rw [readEffect_eq]
@[simp] theorem readEffect_env (r : Reg) (s : State) : (readEffect r s).env = s.env := by
  rw [readEffect_eq]

/-- A read of a register by its address. -/
@[simp] theorem memRead_regAddr (r : Reg) (s : State) :
    memRead (regAddr s.cfg r) s
      = .next (readValue r s, (readEffect r s).emit (.rd (regAddr s.cfg r) (readValue r s))) := by
  simp [memRead]

/-- All a read can answer. -/
theorem memRead_cases {a : Word} {s : State} {p : Word × State} (h : memRead a s = .next p) :
    ∃ r, regAt s.cfg a = some r ∧ p = (readValue r s, (readEffect r s).emit (.rd a (readValue r s))) := by
  unfold memRead at h
  split at h
  · cases h; exact ⟨_, ‹_›, rfl⟩
  · cases h

/-! ### Writes -/

/-- All a completed write can change: the registers, the peripheral's state and the flags. -/
theorem writeReg_eq {r : Reg} {v : Word} {s t : State} (h : writeReg r v s = .done t) :
    t = { s with i2c := t.i2c, i2cp := t.i2cp, flags := t.flags, stk := t.stk, rcc := t.rcc, gpio := t.gpio } := by
  cases r <;>
    simp only [writeReg, writeCr1, writeSwrst, writeDr, writeCcr, writeApb1rstr, writeI2cPlain, writeGpio,
      periphFault] at h <;>
    (repeat' split at h) <;> cases h <;> rfl

/-- A write that raises a fault gives the fault of the current command, and no state at all. -/
theorem writeReg_raises_cases {r : Reg} {v : Word} {s : State} {f : BlockFault}
    (h : writeReg r v s = .raises f) :
    f = .busNotReady (currentCommand s) v ∨ ∃ why, f = .periphUnmodelled (currentCommand s) why := by
  cases r <;>
    simp only [writeReg, writeCr1, writeSwrst, writeDr, writeCcr, writeApb1rstr, writeI2cPlain, writeGpio,
      periphFault] at h <;>
    (repeat' split at h) <;> cases h <;> first | exact .inl rfl | exact .inr ⟨_, rfl⟩

/-- All a write by address can answer: the write done and recorded, or the fault taken in its place. -/
theorem memWrite_cases {a v : Word} {s t : State} (h : memWrite a v s = .next t) :
    (∃ r u, regAt s.cfg a = some r ∧ writeReg r v s = .done u ∧ t = u.emit (.wr a v)) ∨
    (∃ r f, regAt s.cfg a = some r ∧ writeReg r v s = .raises f ∧ t = s.raise f) := by
  unfold memWrite at h
  split at h
  · split at h
    · cases h; exact .inl ⟨_, _, ‹_›, ‹_›, rfl⟩
    · cases h; exact .inr ⟨_, _, ‹_›, ‹_›, rfl⟩
  · cases h

end Sys2Proof.Machine
end

