-- ==== Sys2Proof/Laws/Steps.lean ====
section
/-! SUPPORT. What a micro-operation, a fetch, a device and a step can answer, said once each. -/

namespace Sys2Proof.Machine

/-! ### Chaining -/

@[simp] theorem andThen_next {α β φ ρ : Type} (a : α) (k : α → Host.Outcome β φ ρ) :
    andThen (.next a) k = k a := rfl

theorem andThen_eq_next {α β φ ρ : Type} {x : Host.Outcome α φ ρ} {k : α → Host.Outcome β φ ρ} {b : β}
    (h : andThen x k = .next b) : ∃ a, x = .next a ∧ k a = .next b := by
  cases x with
  | next a => exact ⟨a, rfl, h⟩
  | fault r => cases h
  | refused r => cases h

/-! ### Micro-operations -/

/-- A read by a micro-operation, before what the micro-operation does with the value. -/
def readTo (s : State) (r : Reg) (a : Word) : State := (readEffect r s).emit (.rd a (readValue r s))

/-- A store by a micro-operation: the popped queue, then the write done and recorded, or its fault. -/
def Stores (a v : Word) (s t : State) : Prop :=
  (∃ r u, regAt s.cfg a = some r ∧ writeReg r v s.pop = .done u ∧ t = u.emit (.wr a v)) ∨
  (∃ r f, regAt s.cfg a = some r ∧ writeReg r v s.pop = .raises f ∧ t = s.pop.raise f)

theorem runRd_cases {a : Word} {s t : State} (h : runRd a s = .next t) :
    ∃ r, regAt s.cfg a = some r ∧ t = (readTo s r a).pop := by
  obtain ⟨p, hp, hk⟩ := andThen_eq_next h
  obtain ⟨r, hr, rfl⟩ := memRead_cases hp
  cases hk
  exact ⟨r, hr, rfl⟩

theorem runLdt_cases {a : Word} {s t : State} (h : runLdt a s = .next t) :
    ∃ r, regAt s.cfg a = some r ∧ t = { (readTo s r a).pop with tmp := readValue r s } := by
  obtain ⟨p, hp, hk⟩ := andThen_eq_next h
  obtain ⟨r, hr, rfl⟩ := memRead_cases hp
  cases hk
  exact ⟨r, hr, rfl⟩

theorem runPoll_cases {a m : Word} {s t : State} (h : runPoll a m s = .next t) :
    ∃ r, regAt s.cfg a = some r ∧
      t = if readValue r s &&& m = m then (readTo s r a).pop else readTo s r a := by
  obtain ⟨p, hp, hk⟩ := andThen_eq_next h
  obtain ⟨r, hr, rfl⟩ := memRead_cases hp
  cases hk
  exact ⟨r, hr, rfl⟩

/-- A TICKWAIT always runs: its address is a register. -/
theorem runTickwait_eq (k : Nat) (s : State) :
    runTickwait k s = .next (if s.stk.countflag then
      if k = 1 then (readTo s .stkCtrl (regAddr s.cfg .stkCtrl)).pop
      else { readTo s .stkCtrl (regAddr s.cfg .stkCtrl) with mq := .tickwait (k - 1) :: s.mq.tail }
    else readTo s .stkCtrl (regAddr s.cfg .stkCtrl)) := by
  simp only [runTickwait, memRead_regAddr, andThen_next, readValue, ctrlView_countflag]
  rfl

theorem memWrite_pop {a v : Word} {s t : State} (h : memWrite a v s.pop = .next t) : Stores a v s t :=
  memWrite_cases h

theorem runWr_cases {a v : Word} {s t : State} (h : runWr a v s = .next t) : Stores a v s t :=
  memWrite_pop h
theorem runStor_cases {a m : Word} {s t : State} (h : runStor a m s = .next t) :
    Stores a (s.tmp ||| m) s t := memWrite_pop h
theorem runStandn_cases {a m : Word} {s t : State} (h : runStandn a m s = .next t) :
    Stores a (s.tmp &&& ~~~m) s t := memWrite_pop h
theorem runStfld_cases {a m v : Word} {s t : State} (h : runStfld a m v s = .next t) :
    Stores a ((s.tmp &&& ~~~m) ||| (v &&& m)) s t := memWrite_pop h

/-- A nonempty queue runs its head, or an `LDT` and the store after it in one step (40_microops R142). -/
theorem runQueue_cases {s t : State} {op : MicroOp} {rest : List MicroOp} (hq : s.mq = op :: rest)
    (h : runQueue s = .next t) :
    runOp op s = .next t ∨
    (s.cfg.rmwAtomic = true ∧ ∃ a st tl u, op = .ldt a ∧ rest = st :: tl ∧ st.storesTo a = true ∧
      runLdt a s = .next u ∧ runOp st u = .next t) := by
  unfold runQueue at h
  rw [hq] at h
  cases op with
  | ldt a =>
    cases rest with
    | nil => exact .inl h
    | cons st tl =>
      simp only at h
      split at h
      · rename_i hc
        obtain ⟨u, hu, ht⟩ := andThen_eq_next h
        simp only [Bool.and_eq_true] at hc
        exact .inr ⟨hc.1, a, st, tl, u, rfl, rfl, hc.2, hu, ht⟩
      · exact .inl h
  | rd | wr | stor | standn | stfld | poll | tickwait | strch | halt => exact .inl h

/-! ### Fetch -/

/-- All a fetch can answer (40_microops R131). -/
theorem fetchStep_cases {s t : State} (h : fetchStep s = .next t) :
    (s.cs.length ≤ s.cp ∧ t = { s with mq := [.halt] }) ∨
    (∃ w why, s.cs[s.cp]? = some w ∧ decode w = .illegal why ∧ t = s.raise (.illegalCommand s.cp w)) ∨
    (∃ w i, s.cs[s.cp]? = some w ∧ decode w = .command i ∧ exec i s = .next t) := by
  unfold fetchStep fetchWord at h
  split at h
  · cases h; exact .inl ⟨List.getElem?_eq_none_iff.1 ‹_›, rfl⟩
  · split at h
    · cases h; exact .inr (.inl ⟨_, _, ‹_›, ‹_›, rfl⟩)
    · exact .inr (.inr ⟨_, _, ‹_›, ‹_›, h⟩)

/-- Every command starts: its expansion in the queue, `CP` advanced, nothing else changed. -/
theorem exec_starts (i : Instr) (s : State) : ∃ ops, exec i s = .next (s.startCommand ops) := by
  cases i <;> exact ⟨_, rfl⟩

/-! ### Steps -/

/-- A faulted block takes no step (60_exceptions R352). -/
theorem step_faulted {s : State} {f : BlockFault} (h : s.status = .faulted f) :
    step s = .fault (.stopped f) := by simp [step, h]

/-- Unless the block has faulted, a step is the turn of the agent the schedule picks. -/
theorem step_eq {s : State} (h : s.hasFaulted = false) :
    step s = agentStep (nextAgent s) s.takeTurn := by
  unfold step
  cases hs : s.status with
  | faulted f => simp [State.hasFaulted, hs] at h
  | running => rfl
  | idle => rfl

/-- All a step can answer: one turn of the agent the schedule picks. -/
theorem step_cases {s t : State} (h : step s = .next t) :
    (nextAgent s = .seq ∧ s.status = .running ∧ s.mq = [] ∧ fetchStep s.takeTurn = .next t) ∨
    (nextAgent s = .seq ∧ s.status = .running ∧ s.mq ≠ [] ∧ runQueue s.takeTurn = .next t) ∨
    (nextAgent s = .seq ∧ s.status = .idle ∧ t = s.takeTurn) ∨
    (nextAgent s = .i2cp ∧ s.hasFaulted = false ∧ t = i2cpStep s.takeTurn) ∨
    (nextAgent s = .stk ∧ s.hasFaulted = false ∧ t = stkStep s.takeTurn) := by
  have seq_running : s.status = .running → seqStep s.takeTurn =
      if s.mq = [] then fetchStep s.takeTurn else runQueue s.takeTurn := by
    intro hs
    simp only [seqStep, takeTurn_status, hs]
    rfl
  have seq_idle : s.status = .idle → seqStep s.takeTurn = .next s.takeTurn := by
    intro hs
    simp only [seqStep, takeTurn_status, hs]
  cases hs : s.status with
  | faulted f => rw [step_faulted hs] at h; cases h
  | running =>
    have hf : s.hasFaulted = false := by simp [State.hasFaulted, hs]
    rw [step_eq hf] at h
    cases ha : nextAgent s <;> rw [ha] at h
    · rw [agentStep, seq_running hs] at h
      by_cases hq : s.mq = []
      · rw [if_pos hq] at h; exact .inl ⟨rfl, rfl, hq, h⟩
      · rw [if_neg hq] at h; exact .inr (.inl ⟨rfl, rfl, hq, h⟩)
    · cases h; exact .inr (.inr (.inr (.inl ⟨rfl, hf, rfl⟩)))
    · cases h; exact .inr (.inr (.inr (.inr ⟨rfl, hf, rfl⟩)))
  | idle =>
    have hf : s.hasFaulted = false := by simp [State.hasFaulted, hs]
    rw [step_eq hf] at h
    cases ha : nextAgent s <;> rw [ha] at h
    · rw [agentStep, seq_idle hs] at h
      cases h; exact .inr (.inr (.inl ⟨rfl, rfl, rfl⟩))
    · cases h; exact .inr (.inr (.inr (.inl ⟨rfl, hf, rfl⟩)))
    · cases h; exact .inr (.inr (.inr (.inr ⟨rfl, hf, rfl⟩)))

/-! ### Runs -/

theorem run_add (m n : Nat) (s : State) : run (m + n) s = andThen (run m s) (run n) := by
  induction m generalizing s with
  | zero => simp [run]
  | succ m ih =>
    rw [Nat.succ_add]
    simp only [run]
    cases step s with
    | next t => exact ih t
    | fault r => rfl
    | refused r => rfl

theorem run_succ {n : Nat} {s t : State} (h : run (n + 1) s = .next t) :
    ∃ u, step s = .next u ∧ run n u = .next t := andThen_eq_next h

/-- What every step keeps, every run keeps. -/
theorem run_keeps {P : State → Prop} (hstep : ∀ s t, P s → step s = .next t → P t) :
    ∀ n s t, P s → run n s = .next t → P t := by
  intro n
  induction n with
  | zero => intro s t hs h; cases h; exact hs
  | succ n ih =>
    intro s t hs h
    obtain ⟨u, hu, ht⟩ := run_succ h
    exact ih u t (hstep s u hs hu) ht

end Sys2Proof.Machine
end

