-- ==== Sys2Proof/Laws/Views.lean ====
section
/-! SUPPORT. What a run's two merged lists hold (60_exceptions R365): the same DELAYs in the same order, and
every bus write or bus event of the history in its order. -/

namespace Sys2Proof.Machine

@[simp] theorem Observed.event?_bus (e : Event) : (Observed.bus e).event? = some e := rfl
@[simp] theorem Observed.event?_delay (n : Nat) : (Observed.delay n).event? = none := rfl
@[simp] theorem Observed.delay?_bus (e : Event) : (Observed.bus e).delay? = none := rfl
@[simp] theorem Observed.delay?_delay (n : Nat) : (Observed.delay n).delay? = some n := rfl

@[simp] theorem event?_comp_delay : Observed.event? ∘ Observed.delay = fun _ => none := rfl
@[simp] theorem delay?_comp_delay : Observed.delay? ∘ Observed.delay = some := rfl

/-- An arm is no `DR` write. -/
theorem armsDelay_drByte {c : Config} {e : Event} (h : e.armsDelay c = true) : e.drByte c = none := by
  obtain rfl := eq_of_beq h
  have hne : regAddr c .stkCtrl ≠ regAddr c .i2cDr := by unfold regAddr; cases c.i2cInst <;> simp [addrOf, i2cBase]
  simp [Event.drByte, hne]

/-- An arm is no bus event. -/
theorem armsDelay_isBus {c : Config} {e : Event} (h : e.armsDelay c = true) : e.isBus = false := by
  obtain rfl := eq_of_beq h; rfl

/-- The bytes of the first list are the history's `DR` writes. -/
theorem sendBytes_writesAndDelays (c : Config) (left : Nat) (h : List Event) :
    sendBytes (writesAndDelays c left h) = h.filterMap (Event.drByte c) := by
  induction h with
  | nil => rfl
  | cons e rest ih =>
    simp only [sendBytes, writesAndDelays, List.filterMap_cons] at ih ⊢
    split
    · rename_i he; simp [armsDelay_drByte he, ih]
    · cases e.drByte c <;> simp [ih]

/-- The bus events of the second list are the bus trace. -/
theorem busEvents_busTraceAndDelays (c : Config) (left : Nat) (pending : Bool) (held : List Nat)
    (h : List Event) :
    (busTraceAndDelays c left pending held h).filterMap Observed.event? = busTrace h := by
  induction h generalizing pending held with
  | nil => simp [busTraceAndDelays, busTrace]
  | cons e rest ih =>
    simp only [busTrace, busTraceAndDelays, List.filter_cons] at ih ⊢
    split
    · rename_i he
      rw [armsDelay_isBus he]
      split <;> simp [List.filterMap_cons, ih]
    · split <;> cases e.isBus <;> simp [ih]

/-- The two lists hold the same delays in the same order. -/
theorem delays_busTraceAndDelays (c : Config) (left : Nat) (pending : Bool) (held : List Nat)
    (h : List Event) (hheld : pending = true ∨ held = []) :
    (busTraceAndDelays c left pending held h).filterMap Observed.delay?
      = held ++ sendDelays (writesAndDelays c left h) := by
  induction h generalizing pending held with
  | nil => simp [busTraceAndDelays, writesAndDelays, sendDelays]
  | cons e rest ih =>
    have hf := ih false [] (.inr rfl)
    have ht (l : List Nat) := ih true l (.inl rfl)
    simp only [sendDelays, writesAndDelays, busTraceAndDelays] at hf ht ⊢
    split
    · split
      · simp [ht]
      · obtain rfl := hheld.resolve_left ‹_›
        simp [hf]
    · split <;> cases e.isBus <;> cases e.drByte c <;> simp [List.filterMap_cons, hf, ht]

end Sys2Proof.Machine
end

