-- ==== Sys2Proof/Tests/Slice0.lean ====
section
/-! SUPPORT. Tests with expected results from 95_test_vectors and from the rules' own examples, and for
every obligation with hypotheses a concrete state that meets them together. -/

namespace Sys2Proof.Tests

open Sys2Proof Sys2Proof.Machine

/-! ### Helpers -/

/-- The example configuration of 95_test_vectors. -/
def vectorCfg : Config where
  fSys := 16000000
  i2cInst := .i2c1
  gpioPort := .b
  pinScl := 8
  pinSda := 9
  afNum := 4
  resetStyle := .rcc
  cursor := 0
  blink := 0
  expInit := 0xFF
  strmemSize := 65536
  armClearsVal := true
  rmwAtomic := false

/-- A configuration whose counter reloads 1, so that a delay is short. R6 refuses it; no statement about
whole commands needs more than the 24-bit reload. -/
def shortCfg : Config := { vectorCfg with fSys := 2000 }

/-- The GPIO values of V-INIT-1, the other draws arbitrary. -/
def vectorDraws : ResetDraws where
  tmp := 0xDEAD_BEEF
  shift := 0xA5
  stkLoad := 7
  stkVal := 3
  calib := 0x4000_493D
  moder := 0x0000_0280
  otyper := 0
  ospeedr := 0x0000_00C0
  pupdr := 0x0000_0100
  afrl := 0
  afrh := 0

/-- Reset under the vector configuration. -/
def fresh : State := State.powerOn vectorCfg vectorDraws

/-- A configured bus at rest: the registers INIT_BUS leaves (V-INIT-1), for a configuration on GPIOB and
I2C1. -/
def atRest (c : Config) : State :=
  { State.powerOn c vectorDraws with
    i2c := { I2cRegs.reset with cr1 := 0x0000_0001, ccr := BitVec.ofNat 32 (ccrVal c) }
    rcc := { apb1rstr := 0, ahb1enr := 0x0010_0002, apb1enr := 0x0020_0000 }
    gpio := { moder := 0x000A_0280, otyper := 0x0000_0300, ospeedr := 0x000F_00C0, pupdr := 0x0005_0100,
              afrl := 0, afrh := 0x0000_0044 } }

/-- A state with a queue and a schedule. -/
def queued (s : State) (mq : List MicroOp) (sched : List Agent) : State :=
  { s with mq := mq, env := { s.env with sched := sched } }

/-- A state with a phase and flags. -/
def inPhase (s : State) (ph : Phase) (f : I2cFlags) : State :=
  { s with i2cp := { s.i2cp with ph := ph }, flags := f }

/-- The flags while a master transaction is open. -/
def openFlags : I2cFlags := { I2cFlags.reset with msl := true, busy := true }

/-- The outcome is a next state. -/
def isNext : Result → Bool
  | .next _ => true
  | .fault _ => false
  | .refused _ => false

/-- The next state of an outcome, or reset. -/
def nextOf : Result → State
  | .next t => t
  | .fault _ => fresh
  | .refused _ => fresh

theorem eq_next {x : Result} (h : isNext x = true) : x = .next (nextOf x) := by
  cases x
  · rfl
  · cases h
  · cases h

/-- The outcome is a refusal for the reason. -/
def refusedWith : Result → Refusal → Bool
  | .refused r, q => decide (r = q)
  | .next _, _ => false
  | .fault _, _ => false

/-- A write result's state, or reset. -/
def doneOf : WriteResult → State
  | .done t => t
  | .raises _ => fresh

/-! ### WellFormed smoke tests: an ill-formed term for each check -/

theorem test_wf_delay_too_long : (Instr.delay (2 ^ 28)).wf = false := by decide
theorem test_wf_print_too_high : (Instr.print 0x10000).wf = false := by decide
theorem test_stream_two_initbus : streamOk [0x6000_0000, 0x6000_0000] = false := by decide
theorem test_stream_two_lcdinit : streamOk [0x7000_0000, 0x7000_0000] = false := by decide
theorem test_stream_nyb_after_lcdinit : streamOk [0x7000_0000, 0x3000_0030] = false := by decide
theorem test_stream_i2cw_after_lcdinit : streamOk [0x7000_0000, 0x2000_273C] = false := by decide
/-- An illegal word and words after the first IDLE are no ground for refusal (45_display R315 item 4). -/
theorem test_stream_after_idle : streamOk [0x7000_0000, 0, 0xF000_0000, 0x7000_0000] = true := by decide
/-- 95_test_vectors 2.2. -/
theorem test_config_bounds :
    ([1000, 799999, 16777216000].map fun f => configOk { vectorCfg with fSys := f }) = [false, false, false] ∧
    ([800000, 8000000, 180000000].map fun f => configOk { vectorCfg with fSys := f }) = [true, true, true] := by
  decide
theorem test_config_pins : configOk { vectorCfg with pinSda := 8 } = false := by decide
theorem test_config_strmem :
    configOk { vectorCfg with strmemSize := 0 } = false ∧
    configOk { vectorCfg with strmemSize := 65537 } = false := by decide
theorem test_launch_refuses :
    refusedWith (launch { vectorCfg with fSys := 1000 } vectorDraws [] []) .badConfig = true ∧
    refusedWith (launch vectorCfg vectorDraws [0x6000_0000, 0x6000_0000] []) .illFormedStream = true := by
  decide

/-! ### Decoding: 95_test_vectors 2.1 -/

theorem test_decode_delay :
    decode 0x1000_0000 = .command (.delay 0) ∧ decode 0x1000_0029 = .command (.delay 41) ∧
    decode 0x1FFF_FFFF = .command (.delay 268435455) := by decide
theorem test_decode_i2cw :
    decode 0x2000_273C = .command (.i2cw 0x27 0x3C) ∧ decode 0x2000_7FFF = .command (.i2cw 0x7F 0xFF) ∧
    decode 0x2000_8000 = .illegal .reservedBits ∧ decode 0x2800_0000 = .illegal .reservedBits := by decide
theorem test_decode_nyb :
    decode 0x3000_0030 = .command (.nyb 3 0) ∧ decode 0x3000_0120 = .command (.nyb 2 1) ∧
    decode 0x3000_0031 = .illegal .reservedBits ∧ decode 0x3000_0200 = .illegal .reservedBits := by decide
theorem test_decode_cmd :
    decode 0x4000_0001 = .command (.cmd 0x01) ∧ decode 0x4000_0100 = .illegal .reservedBits := by decide
theorem test_decode_data : decode 0x5000_0048 = .command (.data 0x48) := by decide
theorem test_decode_initbus :
    decode 0x6000_0000 = .command .initBus ∧ decode 0x6000_0001 = .illegal .reservedBits := by decide
theorem test_decode_lcdinit : decode 0x7000_0000 = .command .lcdInit := by decide
theorem test_decode_clear : decode 0x8000_0000 = .command .clear := by decide
theorem test_decode_print :
    decode 0x9000_0000 = .command (.print 0) ∧ decode 0x9000_FFFF = .command (.print 0xFFFF) ∧
    decode 0x9001_0000 = .illegal .reservedBits := by decide
theorem test_decode_idle :
    decode 0xF000_0000 = .command .idle ∧ decode 0xF000_0001 = .illegal .reservedBits := by decide
theorem test_decode_illegal :
    ([0x0000_0000, 0xA000_0000, 0xB000_0000, 0xC000_0000, 0xD000_0000, 0xEFFF_FFFF].map decode)
      = List.replicate 6 (.illegal .reservedOpcode) := by decide

/-- The little-endian byte image of 20_memory R73, and an image too short to hold a word. -/
theorem test_decode_bytes :
    decodeBytes [0x3C, 0x27, 0x00, 0x20, 0x99] = (.command (.i2cw 0x27 0x3C), [0x99]) ∧
    decodeBytes [0x3C, 0x27, 0x00] = (.illegal .truncated, []) := by decide
theorem test_decode_table_word : decodeTableWord 32 0x2000_273C = some (.i2cw 0x27 0x3C) := by decide

/-- The assembler's example lines (30_encoding R117, R118). -/
theorem test_assemble :
    assemble 65536 "NYB 0x30, 0\nI2CW 0x27, 0x3C\nPUTC 'H'".toList
      = some { cs := [0x3000_0030, 0x2000_273C, 0x5000_0048, 0x1000_000A], str := [] } := by decide

/-- V-DELAY-6's spelling is a command; a `_` that stands between no two digits is an error (log 22). -/
theorem test_digit_groups :
    assemble 65536 "DELAY 0x0FFF_FFFF".toList = some { cs := [0x1FFF_FFFF], str := [] } ∧
    [number "0x_F".toList, number "1_".toList, number "1__0".toList] = [none, none, none] := by decide

/-! ### Steps -/

/-- A word placed at the fetch runs as the first command after reset. -/
theorem test_fetch_first_command :
    isNext (step (State.reset.withFetchWord 32 0x1000_0029)) = true ∧
    (nextOf (step (State.reset.withFetchWord 32 0x6000_0000))).cp = 1 := by decide

/-- V-DELAY-1: DELAY 0 writes LOAD, VAL, CTRL, CTRL and reads nothing. -/
theorem test_delay_zero :
    (nextOf (exec (.delay 0) fresh)).mq
      = [.wr 0xE000_E014 15999, .wr 0xE000_E018 0, .wr 0xE000_E010 5, .wr 0xE000_E010 0] := by decide
/-- 40_microops R139's example: `TICKWAIT 2` at 0x0001_0005 becomes `TICKWAIT 1` and clears the flag. -/
theorem test_tickwait :
    let s := queued { fresh with stk := { fresh.stk with enable := true, clksource := true, countflag := true } }
      [.tickwait 2] [.seq]
    (nextOf (step s)).mq = [.tickwait 1] ∧ (nextOf (step s)).stk.countflag = false ∧
    (nextOf (step s)).hist = [.rd 0xE000_E010 0x0001_0005] := by decide
/-- V-I2CW-1's first write data: the address byte of 0x27 is 0x4E. -/
theorem test_i2cw_address_byte :
    (nextOf (exec (.i2cw 0x27 0x3C) fresh)).mq[3]? = some (.wr 0x4000_5410 0x4E) := by decide
/-- 44_nybble R271's example: NYB 0x30, 0 sends 0x3C, waits 1, sends 0x38. -/
theorem test_nyb :
    sends vectorCfg (nextOf (exec (.nyb 3 0) fresh)).mq = [.byte 0x3C, .delay 1, .byte 0x38] := by decide
/-- 44_nybble R272's example. -/
theorem test_cmd :
    sends vectorCfg (nextOf (exec (.cmd 0x01) fresh)).mq
      = [.byte 0x0C, .delay 1, .byte 0x08, .byte 0x1C, .delay 1, .byte 0x18] := by decide
/-- 44_nybble R273's example. -/
theorem test_data :
    sends vectorCfg (nextOf (exec (.data 0x48) fresh)).mq
      = [.byte 0x4D, .delay 1, .byte 0x49, .byte 0x8D, .delay 1, .byte 0x89] := by decide
/-- V-INIT-1, first pair. -/
theorem test_initbus :
    (nextOf (exec .initBus fresh)).mq.take 2 = [.ldt 0x4002_3830, .stor 0x4002_3830 0x2] := by decide
/-- V-INIT-3: with pins 6 and 7 both alternate-function fields lie in AFRL. -/
theorem test_initbus_low_pins :
    let c := { vectorCfg with pinScl := 6, pinSda := 7 }
    ((initbusOps c).drop 10).take 4 = [.ldt 0x4002_0420, .stfld 0x4002_0420 0x0F00_0000 0x0400_0000,
      .ldt 0x4002_0420, .stfld 0x4002_0420 0xF000_0000 0x4000_0000] := by decide
/-- 45_display R310: the first delay of LCDINIT is 41 ms. -/
theorem test_lcdinit :
    (sends vectorCfg (nextOf (exec .lcdInit fresh)).mq).take 5
      = [.delay 41, .byte 0x3C, .delay 1, .byte 0x38, .delay 10] := by decide
/-- 45_display R311: CLEAR is command 0x01 and a delay of 2 ms. -/
theorem test_clear :
    sends vectorCfg (nextOf (exec .clear fresh)).mq
      = [.byte 0x0C, .delay 1, .byte 0x08, .byte 0x1C, .delay 1, .byte 0x18, .delay 2] := by decide
/-- 40_microops R140: the empty string is one read. -/
theorem test_print_empty :
    let s := queued fresh [.strch 0] [.seq]
    (nextOf (step s)).mq = [] ∧ (nextOf (step s)).hist = [.str 0 0] := by decide
/-- 45_display R316: the boot text's first character. -/
theorem test_boot_string : bootString.read 0 = 0x48 ∧ bootString.read 11 = 0x21 ∧ bootString.read 12 = 0 := by
  decide
theorem test_idle : (nextOf (exec .idle fresh)).mq = [.halt] := by decide

/-- 40_microops R135 to R137: the values of the rules' own examples. -/
theorem test_store_values :
    (nextOf (step (queued { atRest vectorCfg with tmp := 0x0001 } [.stor 0x4000_5400 0x0100] [.seq]))).i2c.cr1
      = 0x0101 ∧
    (nextOf (step (queued { atRest vectorCfg with tmp := 0x0001 } [.standn 0x4000_5400 0x0001] [.seq]))).i2c.cr1
      = 0x0000 ∧
    (nextOf (step (queued { atRest vectorCfg with tmp := 0x0280 }
      [.stfld 0x4002_0400 (3 <<< 16) (2 <<< 16)] [.seq]))).gpio.moder = 0x0002_0280 := by decide

/-- 20_memory R85, 92_eei D38: with the clock off a CR1 write with SWRST writes nothing and is recorded. -/
theorem test_gated_swrst :
    (nextOf (step (queued fresh [.wr 0x4000_5400 0x8100] [.seq]))).i2c.cr1 = 0 ∧
    (nextOf (step (queued fresh [.wr 0x4000_5400 0x8100] [.seq]))).i2cp.inReset = false ∧
    (nextOf (step (queued fresh [.wr 0x4000_5400 0x8100] [.seq]))).hist = [.wr 0x4000_5400 0x8100] := by
  decide

/-- 10_state R27: a drawn OTYPER reads its 16 pins only, and a write leaves the other bits. -/
theorem test_otyper_reserved :
    let s := atRest vectorCfg
    let s := { s with gpio := { s.gpio with otyper := 0xABCD_0000 } }
    readValue .gpioOtyper s = 0 ∧
    (nextOf (step (queued s [.wr 0x4002_0404 0xFFFF_0300] [.seq]))).gpio.otyper = 0xABCD_0300 := by decide

/-! ### Witnesses: for each obligation with hypotheses, a state that meets them -/

theorem witness_DecodeEncodeRoundTrip :
    (Instr.delay (2 ^ 28 - 1)).wf = true ∧ decode 0x9000_FFFF = .command (.print 0xFFFF) := by decide

theorem witness_DecodeMatchesOpcodeTable :
    ∃ r ∈ opcodeTable, (0x1FFF_FFFF : Word) &&& r.mask = r.matchWord := by decide

/-- A stream whose first word is illegal, and one whose first word is IDLE, at the fetch. -/
def atFetch (w : Word) : State := { queued fresh [] [.seq] with cs := [w] }

theorem witness_IllegalWordsFaultAtFetch :
    AtFetch (atFetch 0x9001_0000) ∧ (atFetch 0x9001_0000).cs[0]? = some 0x9001_0000 ∧
    decode 0x9001_0000 = .illegal .reservedBits := ⟨⟨rfl, rfl, rfl⟩, rfl, by decide⟩

theorem witness_StepRunsTheFetchedCommand :
    AtFetch (atFetch 0xF000_0000) ∧ (atFetch 0xF000_0000).cs[0]? = some 0xF000_0000 ∧
    decode 0xF000_0000 = .command .idle := ⟨⟨rfl, rfl, rfl⟩, rfl, by decide⟩

/-- The fetch of a command, a step that fetches none, and the end of the stream. -/
theorem witness_CommandPointerAdvancesOnlyAtFetch :
    (isNext (step (atFetch 0xF000_0000)) = true ∧ (nextOf (step (atFetch 0xF000_0000))).cp = 1) ∧
    (isNext (step (queued fresh [.halt] [.seq])) = true ∧
      (nextOf (step (queued fresh [.halt] [.seq]))).cp = 0) ∧
    (AtFetch (queued fresh [] [.seq]) ∧ (queued fresh [] [.seq]).cs.length ≤ (queued fresh [] [.seq]).cp) :=
  ⟨by decide, by decide, ⟨rfl, rfl, rfl⟩, by decide⟩

theorem witness_EveryStoreFollowsItsLoad : isNext (exec .initBus fresh) = true := by decide

theorem witness_ReadMicroOpsRun :
    let c := vectorCfg
    let ops : List MicroOp := [.ldt (regAddr c .i2cCr1), .stor (regAddr c .i2cCr1) mStart]
    AtHead (queued (atRest c) [.rd (regAddr c .i2cSr1)] [.seq]) (.rd (regAddr c .i2cSr1)) [] ∧
    AtHead (queued (atRest c) ops [.seq]) (.ldt (regAddr c .i2cCr1)) ops.tail ∧
    fusesWith (queued (atRest c) ops [.seq]) (regAddr c .i2cCr1) ops.tail = false :=
  ⟨⟨rfl, rfl, rfl⟩, ⟨rfl, rfl, rfl⟩, by decide⟩

/-- A store whose write is done and one whose write raises a fault. -/
theorem witness_StoreMicroOpsRun :
    let c := vectorCfg
    let s := queued (atRest c) [.wr (regAddr c .stkVal) 7] [.seq]
    let q := queued (atRest c) [.wr (regAddr c .i2cDr) 7] [.seq]
    (AtHead s (.wr (regAddr c .stkVal) 7) [] ∧ ∃ u, writeReg .stkVal 7 { s.takeTurn with mq := [] } = .done u) ∧
    (AtHead q (.wr (regAddr c .i2cDr) 7) [] ∧
      ∃ f, writeReg .i2cDr 7 { q.takeTurn with mq := [] } = .raises f) :=
  ⟨⟨⟨rfl, rfl, rfl⟩, _, rfl⟩, ⟨rfl, rfl, rfl⟩, .periphUnmodelled 0 .drWriteInPhase, by decide⟩

theorem witness_PollPopsOrStays :
    AtHead (queued (atRest vectorCfg) [.poll (regAddr vectorCfg .i2cSr1) mSb] [.seq])
      (.poll (regAddr vectorCfg .i2cSr1) mSb) [] := ⟨rfl, rfl, rfl⟩

theorem witness_TickwaitCountsTheFlag :
    AtHead (queued fresh [.tickwait 1] [.seq]) (.tickwait 1) [] := ⟨rfl, rfl, rfl⟩

/-- One address past the end of a string memory of 4 bytes, the 0x00 byte at its last address, and a
character before it. -/
theorem witness_StrchFetchesTheCharacter :
    let s (p : Nat) : State :=
      { queued fresh [.strch p] [.seq] with str := [(2, 0x48)], cfg := { vectorCfg with strmemSize := 4 } }
    (AtHead (s 4) (.strch 4) [] ∧ (s 4).cfg.strmemSize ≤ 4) ∧
    (AtHead (s 3) (.strch 3) [] ∧ 3 < (s 3).cfg.strmemSize ∧ (s 3).str.read 3 = 0) ∧
    (AtHead (s 2) (.strch 2) [] ∧ 2 < (s 2).cfg.strmemSize ∧ (s 2).str.read 2 ≠ 0) :=
  ⟨⟨⟨rfl, rfl, rfl⟩, by decide⟩, ⟨⟨rfl, rfl, rfl⟩, by decide⟩, ⟨rfl, rfl, rfl⟩, by decide⟩

theorem witness_HaltEntersIdle :
    AtHead (queued fresh [.halt] [.seq]) .halt [] ∧
    ({ queued fresh [.halt] [.seq] with status := .idle }).status = .idle ∧
    nextAgent { queued fresh [.halt] [.seq] with status := .idle } = .seq := ⟨⟨rfl, rfl, rfl⟩, rfl, rfl⟩

theorem witness_RmwAtomicFusesThePair :
    let c := { vectorCfg with rmwAtomic := true }
    let a := regAddr c .i2cCr1
    let s (op : MicroOp) := queued (atRest c) [.ldt a, op] [.seq]
    (∀ op ∈ [MicroOp.stor a mStart, .standn a mPe, .stfld a mCcr 4], AtHead (s op) (.ldt a) [op]) ∧
    AtHead (queued (atRest vectorCfg) [.ldt a, .stor a mStart] [.seq]) (.ldt a) [.stor a mStart] :=
  ⟨fun _ _ => ⟨rfl, rfl, rfl⟩, rfl, rfl, rfl⟩

/-- ADDR seen, ADDR not seen, and no ADDR. -/
theorem witness_StatusReadsAndAddrClearing :
    let s := inPhase (atRest vectorCfg) .addrAcked { openFlags with addr := true }
    let seen := { s with i2cp := { s.i2cp with sr1Seen := true } }
    (i2cClocked s = true ∧ s.i2cp.inReset = false ∧ (s.flags.addr && s.i2cp.sr1Seen) = false) ∧
    (i2cClocked seen = true ∧ seen.i2cp.inReset = false ∧ seen.flags.addr = true ∧
      seen.i2cp.sr1Seen = true) := by decide

theorem witness_DataRegisterWrite :
    let started := inPhase (atRest vectorCfg) .startDone { openFlags with sb := true }
    let ready := inPhase (atRest vectorCfg) .txReady { openFlags with txe := true }
    let rest := atRest vectorCfg
    (i2cClocked rest = true ∧ rest.i2cp.inReset = false) ∧
    (started.i2cp.ph = .startDone ∧ started.flags.sb = true) ∧
    (ready.i2cp.ph = .txReady ∧ ready.flags.txe = true) ∧
    (¬ (rest.i2cp.ph = .startDone ∧ rest.flags.sb = true) ∧
      ¬ (rest.i2cp.ph = .txReady ∧ rest.flags.txe = true)) := by decide

/-- One write per item of 43_i2c R223: each clause's own result. -/
theorem witness_ControlRegisterWrite :
    let rest := atRest vectorCfg
    let sent := inPhase rest .dataDone { openFlags with btf := true, txe := true }
    let pending := { sent with i2c := { sent.i2c with cr1 := 0x201 } }
    let held := { rest with
      i2cp := { rest.i2cp with inReset := true }, cfg := { vectorCfg with resetStyle := .swrst } }
    writeReg .i2cCr1 0x8000 sent = .raises (.periphUnmodelled 0 .resetDuringTransaction) ∧
    (doneOf (writeReg .i2cCr1 0x8001 rest)).i2c.cr1 = 0x8000 ∧
    (doneOf (writeReg .i2cCr1 0x0001 held)).i2cp.inReset = false ∧
    writeReg .i2cCr1 0x8101 fresh = .done fresh ∧
    writeReg .i2cCr1 0x0101 fresh = .raises (.busNotReady 0 0x0101) ∧
    writeReg .i2cCr1 0x0001 fresh = .done fresh ∧
    writeReg .i2cCr1 0x0301 rest = .raises (.periphUnmodelled 0 .spuriousStop) ∧
    writeReg .i2cCr1 0x0101 sent = .raises (.periphUnmodelled 0 .repeatedStart) ∧
    writeReg .i2cCr1 0x0001 pending = .raises (.periphUnmodelled 0 .requestWithdrawn) ∧
    writeReg .i2cCr1 0x0000 sent = .raises (.periphUnmodelled 0 .disableDuringTransaction) ∧
    (doneOf (writeReg .i2cCr1 0x0301 pending)).i2c.cr1 = 0x0301 := by decide

theorem witness_PeripheralResetBits :
    let rest := atRest vectorCfg
    let held := { rest with
      i2cp := { rest.i2cp with inReset := true }, cfg := { vectorCfg with resetStyle := .swrst } }
    ((0x0020_0000 : Word).getLsbD (20 + instNumber rest.cfg.i2cInst) = true ∧ rest.i2cp.ph = .idle) ∧
    (inPhase rest .startDone openFlags).i2cp.ph ≠ .idle ∧
    (0x0040_0000 : Word).getLsbD (20 + instNumber rest.cfg.i2cInst) = false ∧
    ((0x8000 : Word).getLsbD 15 = true ∧ i2cClocked fresh = false) ∧
    ((0x8000 : Word).getLsbD 15 = true ∧ i2cClocked rest = true ∧ rest.i2cp.inReset = false) ∧
    (i2cClocked held = true ∧ { held with cfg := vectorCfg }.i2cp.inReset = true ∧
      { held with cfg := vectorCfg }.cfg.resetStyle = .rcc) ∧
    ((0x0001 : Word).getLsbD 15 = false ∧ held.i2cp.inReset = true ∧ held.cfg.resetStyle = .swrst) := by
  decide

theorem witness_GatedBlocksReadZeroAndIgnoreWrites :
    i2cClocked fresh = false ∧ gpioClocked fresh = false ∧ gpioClocked (atRest vectorCfg) = true ∧
    (0x8100 : Word).getLsbD 15 = true ∧
    ((0x0100 : Word).getLsbD 8 = true ∧ (0x0100 : Word).getLsbD 15 = false ∧ fresh.i2cp.inReset = false) := by
  decide

theorem witness_DividerOnlyWhileDisabled :
    let s := atRest vectorCfg
    let off := { s with i2c := { s.i2c with cr1 := 0 } }
    (i2cClocked s = true ∧ s.i2cp.inReset = false ∧ s.i2c.cr1.getLsbD 0 = true) ∧
    (i2cClocked off = true ∧ off.i2cp.inReset = false ∧ off.i2c.cr1.getLsbD 0 = false) := by decide

theorem witness_AccessFrame :
    (∃ t, writeReg .gpioModer 5 (atRest vectorCfg) = .done t) ∧ i2cClocked (atRest vectorCfg) = true ∧
    (atRest vectorCfg).i2cp.inReset = false := ⟨⟨_, rfl⟩, by decide, rfl⟩

theorem witness_FaultEntryIsPreciseAndTerminal :
    (∃ f, writeReg .i2cDr 0 (atRest vectorCfg) = .raises f) ∧
    (isNext (step (atFetch 0)) = true ∧
      (nextOf (step (atFetch 0))).status = .faulted (.illegalCommand 0 0)) :=
  ⟨⟨.periphUnmodelled 0 .drWriteInPhase, by decide⟩, by decide⟩

theorem witness_StatusIsLeftOnlyByHaltOrFault :
    let idle : State := { queued fresh [.halt] [.seq] with status := .idle }
    let halting := queued fresh [.halt] [.seq]
    (isNext (step idle) = true ∧ idle.status = .idle) ∧
    (isNext (step halting) = true ∧ halting.status = .running ∧ (nextOf (step halting)).status = .idle) ∧
    (isNext (step (atFetch 0)) = true ∧ (atFetch 0).status = .running ∧
      (nextOf (step (atFetch 0))).status = .faulted (.illegalCommand 0 0)) := by decide

/-- The peripheral's turn in a phase, with flags, a control register and the two answers. -/
def devicePhase (ph : Phase) (f : I2cFlags) (cr1 : Word) (acks : List Ack) : State :=
  let s := inPhase (queued (atRest vectorCfg) [] [.i2cp]) ph f
  { s with i2c := { s.i2c with cr1 := cr1 }, env := { s.env with acks := acks } }

theorem witness_StartAndStopGeneration :
    let start := devicePhase .idle I2cFlags.reset 0x101 []
    let stop := devicePhase .dataDone { openFlags with btf := true, txe := true, tra := true } 0x201 []
    let dead := devicePhase .nacked { openFlags with af := true } 0x001 []
    (flagsMatchPhase dead = true ∧ dead.i2cp.ph = .nacked ∧ isNext (step dead) = true) ∧
    (start.hasFaulted = false ∧ nextAgent start = .i2cp ∧ accessible start = true ∧
      start.i2c.cr1.getLsbD 8 = true ∧ start.i2cp.ph = .idle) ∧
    (stop.hasFaulted = false ∧ nextAgent stop = .i2cp ∧ accessible stop = true ∧
      stop.i2c.cr1.getLsbD 9 = true ∧ stop.i2cp.ph = .dataDone) := by decide

theorem witness_AddressAndDataPhases :
    let addr (k : Ack) := devicePhase .addrTx openFlags 0x001 [k]
    let data (k : Ack) := devicePhase .dataTx { openFlags with txe := true } 0x001 [k]
    let load := devicePhase .dataLoaded openFlags 0x001 []
    (∀ k ∈ [Ack.ack, .nack], (addr k).hasFaulted = false ∧ nextAgent (addr k) = .i2cp ∧
      accessible (addr k) = true ∧ (addr k).i2cp.ph = .addrTx ∧ nextAck (addr k) = k) ∧
    (∀ k ∈ [Ack.ack, .nack], (data k).hasFaulted = false ∧ nextAgent (data k) = .i2cp ∧
      accessible (data k) = true ∧ (data k).i2cp.ph = .dataTx ∧ nextAck (data k) = k) ∧
    (load.hasFaulted = false ∧ nextAgent load = .i2cp ∧ accessible load = true ∧
      load.i2cp.ph = .dataLoaded) := by decide

theorem witness_PeripheralIdlesWithoutItsGuard :
    let off := queued fresh [] [.i2cp]
    let waits := devicePhase .startDone { openFlags with sb := true } 0x001 []
    let rest := devicePhase .idle I2cFlags.reset 0x001 []
    let done := devicePhase .dataDone { openFlags with btf := true, txe := true } 0x001 []
    (off.hasFaulted = false ∧ nextAgent off = .i2cp ∧ accessible off = false) ∧
    (nextAgent waits = .i2cp ∧ waits.i2cp.ph ∈ [Phase.startDone, .addrAcked, .txReady, .nacked]) ∧
    (nextAgent rest = .i2cp ∧ rest.i2cp.ph = .idle ∧ rest.i2c.cr1.getLsbD 8 = false) ∧
    (nextAgent done = .i2cp ∧ done.i2cp.ph = .dataDone ∧ done.i2c.cr1.getLsbD 9 = false) := by decide

/-- A counter with a value and a reload, at its own turn. -/
def counting (enable : Bool) (val load : BitVec 24) : State :=
  let s := queued fresh [] [.stk]
  { s with stk := { s.stk with enable := enable, val := val, load := load } }

theorem witness_CounterStepAndUnderflowPeriod :
    (∀ s ∈ [counting false 5 9, counting true 0 9, counting true 1 9, counting true 0xFFFFFF 9],
      s.hasFaulted = false ∧ nextAgent s = .stk) ∧
    ((counting true 0 1).stk.enable = true ∧ 1 ≤ (counting true 0 1).stk.load.toNat ∧
      (counting true 0 1).stk.val = 0) ∧ 1000 ≤ vectorCfg.fSys := by decide

theorem witness_ReloadZeroHangs :
    let s := { counting true 0 0 with mq := [.tickwait 1] }
    (s.status = .running ∧ s.mq = [.tickwait 1] ∧ s.stk.load = 0 ∧ s.stk.val = 0 ∧
      s.stk.countflag = false) ∧ configOk vectorCfg = true := by decide

/-- The wait of a DELAY n, its counter reloading 1, under a schedule. -/
def delaying (n : Nat) (sched : List Agent) : State :=
  { counting true 0 1 with mq := [.tickwait n], env := { Env.free with sched := sched } }

/-- One underflow for n = 1; a stale flag and one underflow for n = 2. -/
theorem witness_DelayElapsedTime :
    let s := delaying 1 [.stk, .stk, .seq]
    let q := delaying 2 [.seq, .stk, .seq]
    let q := { q with stk := { q.stk with countflag := true, val := 1 } }
    (isNext (run 3 s) = true ∧ s.status = .running ∧ s.stk.enable = true ∧ 1 ≤ s.stk.load.toNat ∧
      (nextOf (run 3 s)).mq = [] ∧ s.stk.val = 0 ∧ s.stk.countflag = false) ∧
    (isNext (run 3 q) = true ∧ q.status = .running ∧ q.stk.enable = true ∧ 1 ≤ q.stk.load.toNat ∧
      (nextOf (run 3 q)).mq = []) := by decide

/-- The states of a schedule in which every answer is ACK. -/
def played (agent : Nat → Agent) (s : State) : Nat → State
  | 0 => s
  | n + 1 => nextOf (stepOf (agent n) .ack (played agent s n))

/-- Every turn of an idle block is a next state: it stays idle, with the counter as enabled as before. -/
theorem idle_step (a : Agent) (s : State) (hs : s.status = .idle) :
    isNext (stepOf a .ack s) = true ∧ (nextOf (stepOf a .ack s)).status = .idle ∧
      (nextOf (stepOf a .ack s)).stk.enable = s.stk.enable := by
  have h : stepOf a .ack s = agentStep a (s.choosing a .ack).takeTurn := by
    simp only [stepOf, step, State.choosing, hs, nextAgent]
  rw [h]
  cases a with
  | seq => simp [agentStep, seqStep, State.choosing, State.takeTurn, hs, isNext, nextOf]
  | i2cp =>
    simp only [agentStep, isNext, nextOf, true_and]
    rw [i2cpStep_eq]
    exact ⟨hs, rfl⟩
  | stk =>
    simp only [agentStep, isNext, nextOf, true_and]
    exact ⟨by rw [stkStep_eq]; exact hs, stkStep_enable _⟩

/-- A schedule that brings a block to Idle by next states goes on for ever. -/
theorem played_forever {agent : Nat → Agent} {s : State} (k : Nat)
    (hn : ∀ n < k, isNext (stepOf (agent n) .ack (played agent s n)) = true)
    (hk : (played agent s k).status = .idle) :
    ∀ n, stepOf (agent n) .ack (played agent s n) = .next (played agent s (n + 1)) := by
  have idle : ∀ j, (played agent s (k + j)).status = .idle := by
    intro j
    induction j with
    | zero => exact hk
    | succ j ih => exact (idle_step _ _ ih).2.1
  intro n
  by_cases h : n < k
  · exact eq_next (hn n h)
  · obtain ⟨j, rfl⟩ : ∃ j, n = k + j := ⟨n - k, by omega⟩
    exact eq_next (idle_step _ _ (idle j)).1

/-- The counter and the sequencer by turns. -/
def alternating (n : Nat) : Agent := if n % 2 = 0 then .stk else .seq

/-- The wait of a DELAY 1 and the end of the stream. -/
def waitThenHalt : State := { counting true 0 1 with mq := [.tickwait 1, .halt] }

/-- An execution in which the counter stays enabled. -/
theorem witness_EveryExecutionIsFairToTheCounter_ticks :
    let s := { counting true 0 1 with status := .idle }
    Execution (fun _ => .stk) (fun _ => .ack) (played (fun _ => .stk) s) ∧
      ∀ m, 0 ≤ m → (played (fun _ => .stk) s m).stk.enable = true := by
  have inv : ∀ m, (played (fun _ => .stk) { counting true 0 1 with status := .idle } m).status = .idle ∧
      (played (fun _ => .stk) { counting true 0 1 with status := .idle } m).stk.enable = true := by
    intro m
    induction m with
    | zero => exact ⟨rfl, rfl⟩
    | succ m ih => exact ⟨(idle_step _ _ ih.1).2.1, (idle_step _ _ ih.1).2.2.trans ih.2⟩
  exact ⟨⟨played_forever 0 (by intro n h; omega) rfl, fun n _ => ⟨n, Nat.le_refl n, rfl⟩⟩, fun m _ => (inv m).2⟩

/-- An execution that waits, with the sequencer taking infinitely many turns. -/
theorem witness_EveryExecutionIsFairToTheCounter_wait :
    Execution alternating (fun _ => .ack) (played alternating waitThenHalt) ∧
    (∀ m, ∃ j, m ≤ j ∧ alternating j = .seq) ∧ waitThenHalt.status = .running ∧
    waitThenHalt.mq = [.tickwait 1, .halt] ∧ waitThenHalt.stk.enable = true ∧
    1 ≤ waitThenHalt.stk.load.toNat := by
  refine ⟨⟨played_forever 6 (by decide) (by decide), fun n _ => ⟨2 * n, by omega, ?_⟩⟩,
    fun m => ⟨2 * m + 1, by omega, ?_⟩, rfl, rfl, rfl, by decide⟩
  · simp [alternating]
  · simp [alternating, Nat.add_mod]

/-- A turn of each agent that changes something. -/
theorem witness_DeviceFrames :
    let dev := devicePhase .idle I2cFlags.reset 0x101 []
    (isNext (step dev) = true ∧ nextAgent dev = .i2cp) ∧
    (isNext (step (counting true 1 1)) = true ∧ nextAgent (counting true 1 1) = .stk) ∧
    (isNext (step (atFetch 0xF000_0000)) = true ∧ nextAgent (atFetch 0xF000_0000) = .seq) := by decide

theorem witness_LaunchDataNeverChanges : isNext (step (atFetch 0xF000_0000)) = true := by decide

theorem witness_HistoryOnlyGrows : isNext (step (devicePhase .idle I2cFlags.reset 0x101 [])) = true := by decide

/-- For FlagsMatchPhaseIsKept, BusTraceMatchesPhaseIsKept, ReservedBitsAreKept and
ObserverFollowsTheHistory: a state in the middle of a transaction, with a step to take. -/
theorem witness_Invariants :
    let s := { devicePhase .dataTx { openFlags with txe := true, tra := true } 0x001 [.ack] with
      hist := [.busStart, .busAddr 0x4E .ack], obs := { port := 0xFF, sel := true, nybs := [] } }
    flagsMatchPhase s = true ∧ busWalk .quiet (busTrace s.hist) = some (phaseBus s.i2cp.ph) ∧
    reservedBitsKept s = true ∧
    s.obs = (busTrace s.hist).foldl observe { port := 0xFF, sel := false, nybs := [] } ∧
    isNext (step s) = true := by decide

theorem witness_InitBusMakesTheBusReady :
    let s := queued fresh (initbusOps vectorCfg) (List.replicate 28 .seq)
    let c := { vectorCfg with rmwAtomic := true }
    let q := queued (State.powerOn c vectorDraws) (initbusOps c) (List.replicate 14 .seq)
    (configOk s.cfg = true ∧ s.status = .running ∧ s.mq = initbusOps s.cfg ∧ s.i2cp.ph = .idle) ∧
    (configOk q.cfg = true ∧ q.status = .running ∧ q.mq = initbusOps q.cfg ∧ q.i2cp.ph = .idle) := by
  decide

/-- The schedule of V-I2CW-1: no unsuccessful poll. -/
def minimalTransaction : List Agent :=
  [.seq, .seq, .i2cp, .seq, .seq, .i2cp, .seq, .seq, .seq, .seq, .seq, .i2cp, .i2cp, .seq, .seq, .seq, .i2cp]

theorem witness_I2cwMinimalTransaction :
    let s := queued (atRest vectorCfg) (i2cwOps vectorCfg 0x27 0x3C) minimalTransaction
    let s := { s with env := { s.env with acks := [.ack, .ack] } }
    s.status = .running ∧ s.cfg.rmwAtomic = false ∧ s.mq = i2cwOps s.cfg 0x27 0x3C ∧ busAtRest s = true := by
  decide

/-- Two transactions around a delay of 1 ms at a reload of 1. -/
def pulseSchedule : List Agent :=
  minimalTransaction ++ [.seq, .seq, .seq, .stk, .stk, .seq, .seq] ++ minimalTransaction

/-- A run of a queue of sends to its end. -/
def sending (mq : List MicroOp) (sched : List Agent) (acks : Nat) : State :=
  let s := queued (atRest shortCfg) mq sched
  { s with env := { s.env with acks := List.replicate acks .ack } }

/-- 43_i2c R221: the source's states along V-I2CW-1, by the sequencer's position, from Idle to Stopped. -/
theorem test_source_states :
    let s := queued (atRest vectorCfg) (i2cwOps vectorCfg 0x27 0x3C) minimalTransaction
    let s := { s with env := { s.env with acks := [.ack, .ack] } }
    sourceState (nextOf (run 2 s)) = some .idle ∧ sourceState (nextOf (run 4 s)) = some .startSent ∧
    sourceState (nextOf (run 7 s)) = some .addressSent ∧
    sourceState (nextOf (run 10 s)) = some .byteTransferring ∧
    sourceState (nextOf (run 16 s)) = some .stopped ∧ sourceState (nextOf (run 17 s)) = some .stopped := by
  decide

/-- 45_display R314: Ready for ever once LCDINIT is done, also when an illegal word follows it. -/
theorem test_display_ready_after_illegal :
    let s := { queued fresh [] [.seq] with cs := [0x7000_0000, 0x0000_0000], cp := 1 }
    displayPhase s = some .ready ∧ displayPhase (nextOf (step s)) = some .ready ∧
    (nextOf (step s)).status = .faulted (.illegalCommand 1 0) := by decide

theorem witness_QueuedSendsReachTheBus :
    let s := sending (sendOps shortCfg 0x27 [.byte 0x3C, .delay 1, .byte 0x38]) pulseSchedule 4
    let t := nextOf (run 41 s)
    reload s.cfg ≤ 0xFFFFFF ∧ s.status = .running ∧ busAtRest s = true ∧ s.cfg.armClearsVal = true ∧
    isNext (run 41 s) = true ∧ t.mq = [] ∧ t.cp = s.cp ∧ t.status = .running := by decide

/-- 60_exceptions R365 on 44_nybble R271's example: the run of NYB 0x30, 0 to 0x27, its `DR` writes and its
bus trace merged with its DELAY. The same in the middle of the DELAY. -/
theorem test_run_writes_and_delays :
    let s := nextOf (exec (.nyb 3 0) (sending [] pulseSchedule 4))
    (nextOf (run 41 s)).writesAndDelays = [.byte 0x4E, .byte 0x3C, .delay 1, .byte 0x4E, .byte 0x38] ∧
    (nextOf (run 21 s)).writesAndDelays = [.byte 0x4E, .byte 0x3C, .delay 1] := by decide

theorem test_run_bus_trace_and_delays :
    let s := nextOf (exec (.nyb 3 0) (sending [] pulseSchedule 4))
    (nextOf (run 41 s)).busTraceAndDelays = (transactionEvents 0x27 0x3C).map .bus ++ [.delay 1]
      ++ (transactionEvents 0x27 0x38).map .bus := by decide

/-- The same where the first stop comes after the DELAY's arm (43_i2c R238): the list keeps the order of the
expansion. -/
theorem test_run_late_stop_keeps_expansion_order :
    let late : List Agent := minimalTransaction.dropLast ++ [.seq, .seq, .seq, .i2cp, .stk, .stk, .seq, .seq]
      ++ minimalTransaction
    let s := nextOf (exec (.nyb 3 0) (sending [] late 4))
    (nextOf (run 41 s)).busTraceAndDelays = (transactionEvents 0x27 0x3C).map .bus ++ [.delay 1]
      ++ (transactionEvents 0x27 0x38).map .bus := by decide

/-- 41_timer R172's DELAY 0, then 40_microops R139's example, DELAY 2 with one unsuccessful read. -/
theorem test_delay_counts :
    writesAndDelays vectorCfg 0 [.wr 0xE000_E010 5, .wr 0xE000_E010 0, .wr 0xE000_E010 5, .rd 0xE000_E010 5,
      .rd 0xE000_E010 0x0001_0005, .rd 0xE000_E010 0x0001_0005, .wr 0xE000_E010 0] = [.delay 0, .delay 2] := by
  decide

theorem witness_NybbleCommandsSendAndLatch_nyb :
    let s₀ := sending [] pulseSchedule 4
    let s := nextOf (exec (.nyb 3 0) s₀)
    let t := nextOf (run 41 s)
    reload s₀.cfg ≤ 0xFFFFFF ∧ s₀.status = .running ∧ busAtRest s₀ = true ∧
    isNext (exec (.nyb 3 0) s₀) = true ∧ isNext (run 41 s) = true ∧ t.mq = [] ∧ t.cp = s.cp ∧
    t.status = .running := by decide

theorem witness_NybbleCommandsSendAndLatch_data :
    let s₀ := sending [] (pulseSchedule ++ pulseSchedule) 8
    let s := nextOf (exec (.data 0x48) s₀)
    let t := nextOf (run 82 s)
    isNext (exec (.data 0x48) s₀) = true ∧ isNext (run 82 s) = true ∧ t.mq = [] ∧ t.cp = s.cp ∧
    t.status = .running ∧ t.obs.nybs = [⟨4, 1⟩, ⟨8, 1⟩] := by decide

theorem witness_NybbleCommandsSendAndLatch_cmd :
    let s₀ := sending [] (pulseSchedule ++ pulseSchedule) 8
    let s := nextOf (exec (.cmd 0x01) s₀)
    let t := nextOf (run 82 s)
    isNext (exec (.cmd 0x01) s₀) = true ∧ isNext (run 82 s) = true ∧ t.mq = [] ∧ t.cp = s.cp ∧
    t.status = .running ∧ t.obs.nybs = [⟨0, 0⟩, ⟨1, 0⟩] := by decide

/-- A string of one character: its DATA, its delay of 10 and the end of the string. -/
theorem witness_PrintSendsItsString :
    let sched := [.seq] ++ pulseSchedule ++ pulseSchedule ++ [.seq, .seq, .seq]
      ++ (List.replicate 10 [Agent.stk, .stk, .seq]).flatten ++ [.seq, .seq]
    let s := { sending [.strch 0] sched 8 with str := [(0, 0x48)] }
    let t := nextOf (run 118 s)
    reload s.cfg ≤ 0xFFFFFF ∧ s.status = .running ∧ busAtRest s = true ∧ 0 + 1 < s.cfg.strmemSize ∧
    (∀ j < 1, s.str.read (0 + j) ≠ 0) ∧ s.str.read (0 + 1) = 0 ∧ isNext (run 118 s) = true ∧ t.mq = [] ∧
    t.cp = s.cp ∧ t.status = .running := by decide

theorem witness_NackHangsThePoll :
    let s (m : Word) := { devicePhase .nacked { openFlags with af := true } 0x001 [] with
      mq := [.poll (regAddr vectorCfg .i2cSr1) m] }
    ∀ m ∈ [mAddr, mBtf], (s m).status = .running ∧ (s m).mq = [.poll (regAddr (s m).cfg .i2cSr1) m] ∧
      (s m).i2cp.ph = .nacked ∧ (s m).flags.addr = false ∧ (s m).flags.btf = false := by
  intro s m hm
  simp only [List.mem_cons, List.not_mem_nil, or_false] at hm
  rcases hm with rfl | rfl <;> exact ⟨rfl, rfl, rfl, rfl, rfl⟩

theorem witness_StopRaceFaults :
    let s := { devicePhase .dataDone { openFlags with btf := true, txe := true, tra := true } 0x201 [] with
      tmp := 0x201
      mq := [.stor (regAddr vectorCfg .i2cCr1) mStart]
      env := { Env.free with sched := [.i2cp, .seq] } }
    s.status = .running ∧ busReady s = true ∧ s.i2cp.ph = .dataDone ∧ s.i2c.cr1 = 0x201 ∧ s.tmp = 0x201 ∧
    s.mq = [.stor (regAddr s.cfg .i2cCr1) mStart] := by decide

/-- For OnlyTheStopRaceIsUnmodelled and AdmittedRunsUseOnlyTheirRegisters. -/
theorem witness_AdmittedRuns :
    let cs : List Word := [0x6000_0000, 0x3000_0030]
    let s := nextOf (launch vectorCfg vectorDraws cs [])
    let e := { Env.free with sched := [.seq, .seq, .seq, .stk] }
    isNext (launch vectorCfg vectorDraws cs []) = true ∧ isNext (run 4 { s with env := e }) = true ∧
    (nextOf (run 4 { s with env := e })).hist.length = 2 := by decide

theorem witness_NoBusTrafficWithoutInitBus :
    let cs : List Word := [0x3000_0030]
    let s := nextOf (launch vectorCfg vectorDraws cs [])
    let e := { Env.free with sched := [.seq, .seq, .seq] }
    isNext (launch vectorCfg vectorDraws cs []) = true ∧ cs.all (fun w => decode w ≠ .command .initBus) = true ∧
    isNext (run 3 { s with env := e }) = true ∧
    (nextOf (run 3 { s with env := e })).status = .faulted (.busNotReady 0 0x0100) := by decide

theorem witness_LaunchRefusesOrStarts :
    isNext (launch vectorCfg vectorDraws bootStream bootString) = true ∧ streamOk bootStream = true := by
  decide

theorem witness_StreamAdmission :
    ((bootStream.map decode).takeWhile (· ≠ .command .idle))
      = [.command .initBus] ++ .command .lcdInit :: [.command .clear, .command (.print 0)] := by decide

theorem witness_AssemblerLines :
    (AsmLine.nyb 0x30 0).commands = some [.nyb 3 0] ∧ (∃ l ∈ [AsmLine.cmd 0x100], l.commands = none) ∧ 0 + [(0x48 : Byte)].length < 65536 ∧
    Memory.wf [] = true := by decide

end Sys2Proof.Tests
end

section
/-! Launch: when a configuration passes the host's checks, and what `launch` answers in each case
(00_scope R6, 60_exceptions R357, 70_reset R384). -/

namespace Sys2Proof.Machine

/-- The Boolean check of a configuration says exactly the numeric constraints of 00_scope R6. -/
theorem configOk_iff (c : Config) :
    configOk c = true ↔ 1 ≤ reload c ∧ reload c ≤ 0xFFFFFF ∧ 4 ≤ ccrVal c ∧ ccrVal c ≤ 0xFFF ∧
      c.pinScl ≠ c.pinSda ∧ 1 ≤ c.strmemSize ∧ c.strmemSize ≤ 65536 := by
  simp only [configOk, Bool.and_eq_true, decide_eq_true_eq, and_assoc]

theorem launch_of_not_configOk {c : Config} (hc : ¬ configOk c = true) (d : ResetDraws)
    (cs : List Word) (str : Memory) : launch c d cs str = .refused .badConfig := by
  simp [launch, hc]

theorem launch_of_not_streamOk {c : Config} {cs : List Word} (hc : configOk c = true)
    (hs : streamOk cs = false) (d : ResetDraws) (str : Memory) :
    launch c d cs str = .refused .illFormedStream := by
  simp [launch, hc, hs]

theorem launch_of_configOk_of_streamOk {c : Config} {cs : List Word} (hc : configOk c = true)
    (hs : streamOk cs = true) (d : ResetDraws) (str : Memory) :
    launch c d cs str = .next { State.powerOn c d with cs := cs, str := str } := by
  simp [launch, hc, hs]

/-- Settles O54: the constraints written out are `configOk`, and each clause is one branch of `launch`. -/
theorem launchRefusesOrStarts : Obligations.LaunchRefusesOrStarts := by
  intro c d cs str reloadVal divider constraints
  have constraints_iff : configOk c = true ↔ constraints := configOk_iff c
  refine ⟨fun hc => ?badConfig, fun hc hs => ?illFormedStream, fun hc hs => ?starts⟩
  case badConfig => exact launch_of_not_configOk (mt constraints_iff.mp hc) d cs str
  case illFormedStream => exact launch_of_not_streamOk (constraints_iff.mpr hc) hs d str
  case starts => exact launch_of_configOk_of_streamOk (constraints_iff.mpr hc) hs d str

end Sys2Proof.Machine
end

section
/-! What a turn can do, said once: a micro-operation, a turn on a nonempty queue, a fetch, and each agent's
turn as a whole. -/

namespace Sys2Proof.Machine

/-! ### Micro-operations and fetches -/

/-- All a micro-operation can do to the state (40_microops R132 to R142): read a register, complete a write,
take a fault, read a string byte, or halt. The queue and `TMP` after a read are left open. -/
inductive OpEffect (s : State) : MicroOp → State → Prop
  | read (op : MicroOp) (r : Reg) (a : Word) (mq : List MicroOp) (tmp : Word) :
      OpEffect s op { readTo s r a with mq := mq, tmp := tmp }
  | write (op : MicroOp) {r : Reg} {v : Word} {u : State} (a : Word)
      (hwrite : writeReg r v s.pop = .done u) : OpEffect s op (u.emit (.wr a v))
  | fault (op : MicroOp) (f : BlockFault) : OpEffect s op (s.raise f)
  | string (op : MicroOp) (p : Nat) (c : Byte) (mq : List MicroOp) :
      OpEffect s op { s.emit (.str p c) with mq := mq }
  | halt : OpEffect s .halt { s with status := .idle }

theorem Stores.effect {a v : Word} {s t : State} (op : MicroOp) (h : Stores a v s t) :
    OpEffect s op t := by
  obtain ⟨r, u, -, hwrite, rfl⟩ | ⟨r, f, -, -, rfl⟩ := h
  · exact .write op a hwrite
  · exact .fault op f

theorem runOp_effect {op : MicroOp} {s t : State} (h : runOp op s = .next t) : OpEffect s op t := by
  cases op with
  | rd a =>
    obtain ⟨r, -, rfl⟩ := runRd_cases h
    exact .read _ r a _ _
  | wr a v => exact (runWr_cases h).effect _
  | ldt a =>
    obtain ⟨r, -, rfl⟩ := runLdt_cases h
    exact .read _ r a _ _
  | stor a m => exact (runStor_cases h).effect _
  | standn a m => exact (runStandn_cases h).effect _
  | stfld a m v => exact (runStfld_cases h).effect _
  | poll a m =>
    obtain ⟨r, -, rfl⟩ := runPoll_cases h
    split
    · exact .read _ r a _ _
    · exact .read _ r a _ _
  | tickwait k =>
    rw [runOp, runTickwait_eq] at h
    cases h
    split
    · split
      · exact .read _ .stkCtrl _ _ _
      · exact .read _ .stkCtrl _ _ _
    · exact .read _ .stkCtrl _ _ _
  | strch p =>
    simp only [runOp, runStrch] at h
    split at h <;> cases h
    · exact .fault _ _
    · split
      · exact .string _ p _ s.mq.tail
      · exact .string _ p _ _
  | halt => cases h; exact .halt

/-- All a micro-operation can change: it leaves the launch data, `CP`, the tick count, the observer and the
environment's choices. -/
theorem OpEffect.eq {s t : State} {op : MicroOp} (h : OpEffect s op t) :
    t = { s with
      mq := t.mq, status := t.status, tmp := t.tmp, i2c := t.i2c, i2cp := t.i2cp, flags := t.flags
      stk := t.stk, rcc := t.rcc, gpio := t.gpio, hist := t.hist } := by
  cases h with
  | read op r a mq tmp => rw [readTo, readEffect_eq]; rfl
  | write op a hwrite => rw [writeReg_eq hwrite]; rfl
  | fault | string | halt => rfl

/-- A micro-operation keeps the status, but for `HALT` and for a fault's entry. -/
theorem OpEffect.status_cases {s t : State} {op : MicroOp} (h : OpEffect s op t) :
    t.status = s.status ∨ (op = .halt ∧ t.status = .idle) ∨ ∃ f, t = s.raise f := by
  cases h with
  | read => exact .inl (readEffect_status _ s)
  | write op a hwrite => rw [writeReg_eq hwrite]; exact .inl rfl
  | fault op f => exact .inr (.inr ⟨f, rfl⟩)
  | string => exact .inl rfl
  | halt => exact .inr (.inl ⟨rfl, rfl⟩)

/-- What `LDT` leaves: the read done, the micro-operation popped, the value in `TMP` (R134). -/
def loaded (s : State) (r : Reg) (a : Word) : State := { (readTo s r a).pop with tmp := readValue r s }

theorem loaded_effect (op : MicroOp) (s : State) (r : Reg) (a : Word) : OpEffect s op (loaded s r a) :=
  .read op r a _ _

@[simp] theorem loaded_status (s : State) (r : Reg) (a : Word) : (loaded s r a).status = s.status :=
  readEffect_status r s

/-- A turn on a nonempty queue is its head's micro-operation, or under `RMW_ATOMIC` an `LDT` and the store
fused with it, which is no `HALT` (R142). -/
theorem runQueue_effect {s t : State} {op : MicroOp} {rest : List MicroOp} (hq : s.mq = op :: rest)
    (h : runQueue s = .next t) :
    OpEffect s op t ∨
    (s.cfg.rmwAtomic = true ∧ ∃ r a st, st ≠ .halt ∧ OpEffect (loaded s r a) st t) := by
  obtain hop | ⟨hatomic, a, st, tl, u, -, -, hstores, hldt, hst⟩ := runQueue_cases hq h
  · exact .inl (runOp_effect hop)
  · have hne : st ≠ .halt := by rintro rfl; cases hstores
    obtain ⟨r, -, rfl⟩ := runLdt_cases hldt
    exact .inr ⟨hatomic, r, a, st, hne, runOp_effect hst⟩

/-- All a turn on a nonempty queue can change. -/
theorem runQueue_eq {s t : State} (hq : s.mq ≠ []) (h : runQueue s = .next t) :
    t = { s with
      mq := t.mq, status := t.status, tmp := t.tmp, i2c := t.i2c, i2cp := t.i2cp, flags := t.flags
      stk := t.stk, rcc := t.rcc, gpio := t.gpio, hist := t.hist } := by
  obtain ⟨op, rest, hq⟩ := List.exists_cons_of_ne_nil hq
  obtain hop | ⟨-, r, a, st, -, hst⟩ := runQueue_effect hq h
  · exact hop.eq
  · rw [hst.eq, (loaded_effect op s r a).eq]

/-- All a fetch can do: find the end of the stream, fault on an illegal word, or start a command
(40_microops R131). -/
theorem fetchStep_effect {s t : State} (h : fetchStep s = .next t) :
    (s.cs[s.cp]? = none ∧ t = { s with mq := [.halt] }) ∨
    (∃ w why, s.cs[s.cp]? = some w ∧ decode w = .illegal why ∧ t = s.raise (.illegalCommand s.cp w)) ∨
    (∃ w i ops, s.cs[s.cp]? = some w ∧ decode w = .command i ∧ t = s.startCommand ops) := by
  obtain ⟨hend, rfl⟩ | hillegal | ⟨w, i, hw, hi, hexec⟩ := fetchStep_cases h
  · exact .inl ⟨List.getElem?_eq_none hend, rfl⟩
  · exact .inr (.inl hillegal)
  · obtain ⟨ops, hops⟩ := exec_starts i s
    cases hops.symm.trans hexec
    exact .inr (.inr ⟨w, i, ops, hw, hi, rfl⟩)

/-- All a fetch can change. -/
theorem fetchStep_eq {s t : State} (h : fetchStep s = .next t) :
    t = { s with cp := t.cp, mq := t.mq, status := t.status, hist := t.hist } := by
  obtain ⟨-, rfl⟩ | ⟨w, why, -, -, rfl⟩ | ⟨w, i, ops, -, -, rfl⟩ := fetchStep_effect h <;> rfl

/-! ### Turns by agent -/

/-- All a turn of the sequencer can change. -/
theorem step_eq_of_seq {s t : State} (hseq : nextAgent s = .seq) (h : step s = .next t) :
    t = { s.takeTurn with
      cp := t.cp, mq := t.mq, status := t.status, tmp := t.tmp, i2c := t.i2c, i2cp := t.i2cp
      flags := t.flags, stk := t.stk, rcc := t.rcc, gpio := t.gpio, hist := t.hist } := by
  obtain ⟨-, -, -, hfetch⟩ | ⟨-, -, hq, hrun⟩ | ⟨-, -, rfl⟩ | ⟨ha, -⟩ | ⟨ha, -⟩ := step_cases h
  · rw [fetchStep_eq hfetch]
  · rw [runQueue_eq (s := s.takeTurn) hq hrun]
  · rfl
  all_goals rw [hseq] at ha; cases ha

theorem step_eq_of_i2cp {s t : State} (hi2cp : nextAgent s = .i2cp) (h : step s = .next t) :
    t = i2cpStep s.takeTurn := by
  obtain ⟨ha, -⟩ | ⟨ha, -⟩ | ⟨ha, -⟩ | ⟨-, -, ht⟩ | ⟨ha, -⟩ := step_cases h
  case inr.inr.inr.inl => exact ht
  all_goals rw [hi2cp] at ha; cases ha

theorem step_eq_of_stk {s t : State} (hstk : nextAgent s = .stk) (h : step s = .next t) :
    t = stkStep s.takeTurn := by
  obtain ⟨ha, -⟩ | ⟨ha, -⟩ | ⟨ha, -⟩ | ⟨ha, -⟩ | ⟨-, -, ht⟩ := step_cases h
  case inr.inr.inr.inr => exact ht
  all_goals rw [hstk] at ha; cases ha

/-- A turn that fetches is the fetch step. -/
theorem step_of_atFetch {s : State} (h : AtFetch s) : step s = fetchStep s.takeTurn := by
  obtain ⟨hrun, hseq, hq⟩ := h
  have hf : s.hasFaulted = false := by simp [State.hasFaulted, hrun]
  simp [step_eq hf, agentStep, seqStep, hseq, hrun, hq]

/-- A turn that is no fetch keeps `CP`. -/
theorem step_cp_of_not_atFetch {s t : State} (hnot : ¬ AtFetch s) (h : step s = .next t) :
    t.cp = s.cp := by
  obtain ⟨hseq, hrun, hq, -⟩ | ⟨-, -, hq, hrun⟩ | ⟨-, -, rfl⟩ | ⟨-, -, rfl⟩ | ⟨-, -, rfl⟩ := step_cases h
  · exact absurd ⟨hrun, hseq, hq⟩ hnot
  · rw [runQueue_eq (s := s.takeTurn) hq hrun]; rfl
  · rfl
  · rw [i2cpStep_eq]; rfl
  · rw [stkStep_eq]; rfl

/-- A device's turn keeps the status. -/
theorem step_status_of_device {s t : State} (hdev : nextAgent s ≠ .seq) (h : step s = .next t) :
    t.status = s.status := by
  cases ha : nextAgent s with
  | seq => exact absurd ha hdev
  | i2cp => rw [step_eq_of_i2cp ha h, i2cpStep_eq]; rfl
  | stk => rw [step_eq_of_stk ha h, stkStep_eq]; rfl

/-- A step of a running block leaves it running, or runs `HALT`, or is the sequencer taking a fault. -/
theorem step_running_cases {s t : State} (hs : s.status = .running) (h : step s = .next t) :
    t.status = .running ∨ (t.status = .idle ∧ ∃ rest, AtHead s .halt rest) ∨
    (nextAgent s = .seq ∧ ∃ u f, t = State.raise u f) := by
  obtain ⟨hseq, -, -, hfetch⟩ | ⟨hseq, -, hq, hrun⟩ | ⟨-, hidle, -⟩ | ⟨ha, -⟩ | ⟨ha, -⟩ := step_cases h
  · obtain ⟨-, rfl⟩ | ⟨w, why, -, -, rfl⟩ | ⟨w, i, ops, -, -, rfl⟩ := fetchStep_effect hfetch
    · exact .inl hs
    · exact .inr (.inr ⟨hseq, _, _, rfl⟩)
    · exact .inl hs
  · obtain ⟨op, rest, hq⟩ := List.exists_cons_of_ne_nil hq
    obtain hop | ⟨-, r, a, st, hne, hst⟩ := runQueue_effect (s := s.takeTurn) hq hrun
    · obtain hkeep | ⟨rfl, hidle⟩ | ⟨f, rfl⟩ := hop.status_cases
      · exact .inl (hkeep.trans hs)
      · exact .inr (.inl ⟨hidle, rest, hs, hseq, hq⟩)
      · exact .inr (.inr ⟨hseq, _, f, rfl⟩)
    · obtain hkeep | ⟨hhalt, -⟩ | ⟨f, rfl⟩ := hst.status_cases
      · exact .inl (hkeep.trans ((loaded_status _ r a).trans hs))
      · exact absurd hhalt hne
      · exact .inr (.inr ⟨hseq, _, f, rfl⟩)
  · cases hs.symm.trans hidle
  · exact .inl ((step_status_of_device (by simp [ha]) h).trans hs)
  · exact .inl ((step_status_of_device (by simp [ha]) h).trans hs)

end Sys2Proof.Machine
end

section
/-! The command pointer, the status, and what each agent leaves alone (10_state R23, R25, R55). -/

namespace Sys2Proof.Machine

/-- Settles O6: a fetch that finds a command advances `CP`; the other fetches and all other turns keep it. -/
theorem commandPointerAdvancesOnlyAtFetch : Obligations.CommandPointerAdvancesOnlyAtFetch := by
  refine ⟨rfl, fun s t h => ?advances, fun s hfetch hend => ?endOfStream⟩
  case endOfStream =>
    have hnone : fetchWord s.takeTurn = none := List.getElem?_eq_none hend
    simp [step_of_atFetch hfetch, fetchStep, hnone]
  case advances =>
    by_cases hat : AtFetch s
    · rw [step_of_atFetch hat] at h
      obtain ⟨hend, rfl⟩ | ⟨w, why, hw, hillegal, rfl⟩ | ⟨w, i, ops, hw, hi, rfl⟩ := fetchStep_effect h
      all_goals simp_all
    · exact ⟨fun hfetches => absurd hfetches.1 hat, fun _ => step_cp_of_not_atFetch hat h⟩

/-- Settles O29: a step from Running is classified by `step_running_cases`, and the other two statuses have
no turn that changes them. -/
theorem statusIsLeftOnlyByHaltOrFault : Obligations.StatusIsLeftOnlyByHaltOrFault := by
  refine ⟨rfl, fun s t h hidle => ?idleStays, fun s f hf t => ?faultedStops,
    fun s t h hrun hidle => ?idleByHalt, fun s t f h hrun hf => ?faultedByRaise⟩
  case idleStays =>
    by_cases hseq : nextAgent s = .seq
    · obtain ⟨-, hrun, -⟩ | ⟨-, hrun, -⟩ | ⟨-, -, rfl⟩ | ⟨ha, -⟩ | ⟨ha, -⟩ := step_cases h
      all_goals simp_all
    · exact (step_status_of_device hseq h).trans hidle
  case faultedStops => simp [step_faulted hf]
  case idleByHalt =>
    obtain hkeep | ⟨-, hhalt⟩ | ⟨-, u, f, rfl⟩ := step_running_cases hrun h
    · cases hkeep.symm.trans hidle
    · exact hhalt
    · cases hidle
  case faultedByRaise =>
    obtain hkeep | ⟨hidle, -⟩ | ⟨hseq, u, g, rfl⟩ := step_running_cases hrun h
    · cases hkeep.symm.trans hf
    · cases hidle.symm.trans hf
    · cases hf
      exact ⟨hseq, rfl, by simp⟩

/-- Settles O36: each clause reads the fields off the equation that says all the agent's turn can change. -/
theorem deviceFrames : Obligations.DeviceFrames := by
  intro s t h
  cases ha : nextAgent s with
  | seq =>
    rw [step_eq_of_seq ha h]
    simp
  | i2cp =>
    rw [step_eq_of_i2cp ha h, i2cpStep_eq]
    simp
  | stk =>
    rw [step_eq_of_stk ha h, stkStep_eq]
    simp

/-- Settles O37: the launch data is among the fields no agent's turn can change. -/
theorem launchDataNeverChanges : Obligations.LaunchDataNeverChanges := by
  intro s t h
  cases ha : nextAgent s with
  | seq => rw [step_eq_of_seq ha h]; exact ⟨rfl, rfl, rfl⟩
  | i2cp => rw [step_eq_of_i2cp ha h, i2cpStep_eq]; exact ⟨rfl, rfl, rfl⟩
  | stk => rw [step_eq_of_stk ha h, stkStep_eq]; exact ⟨rfl, rfl, rfl⟩

end Sys2Proof.Machine
end

section
/-! How far the history grows in one turn, and what a turn of the peripheral can be. -/

namespace Sys2Proof.Machine

/-- `t`'s history is `s`'s with at most `n` events appended. -/
def AppendsAtMost (n : Nat) (s t : State) : Prop := ∃ es, t.hist = s.hist ++ es ∧ es.length ≤ n

theorem AppendsAtMost.of_hist_eq {s t : State} (n : Nat) (h : t.hist = s.hist) : AppendsAtMost n s t :=
  ⟨[], by simp [h], Nat.zero_le n⟩

theorem AppendsAtMost.of_hist_append {s t : State} {e : Event} (h : t.hist = s.hist ++ [e]) :
    AppendsAtMost 1 s t := ⟨[e], h, Nat.le_refl 1⟩

theorem AppendsAtMost.trans {m n : Nat} {s t u : State} (hst : AppendsAtMost m s t)
    (htu : AppendsAtMost n t u) : AppendsAtMost (m + n) s u := by
  obtain ⟨es, hes, hm⟩ := hst
  obtain ⟨fs, hfs, hn⟩ := htu
  exact ⟨es ++ fs, by simp [hfs, hes], by simp only [List.length_append]; omega⟩

theorem AppendsAtMost.mono {m n : Nat} {s t : State} (h : AppendsAtMost m s t) (hmn : m ≤ n) :
    AppendsAtMost n s t := by
  obtain ⟨es, hes, hm⟩ := h
  exact ⟨es, hes, hm.trans hmn⟩

theorem OpEffect.appends {s t : State} {op : MicroOp} (h : OpEffect s op t) : AppendsAtMost 1 s t := by
  cases h with
  | read op r a => exact .of_hist_append (congrArg (· ++ [_]) (readEffect_hist r s))
  | write op a hwrite => rw [writeReg_eq hwrite]; exact .of_hist_append rfl
  | fault op f => exact .of_hist_append rfl
  | string op p c => exact .of_hist_append rfl
  | halt => exact .of_hist_eq 1 rfl

theorem fetchStep_appends {s t : State} (h : fetchStep s = .next t) : AppendsAtMost 1 s t := by
  obtain ⟨-, rfl⟩ | ⟨w, why, -, -, rfl⟩ | ⟨w, i, ops, -, -, rfl⟩ := fetchStep_effect h
  · exact .of_hist_eq 1 rfl
  · exact .of_hist_append rfl
  · exact .of_hist_eq 1 rfl

/-- One micro-operation appends at most one event, the two of a fused read-modify-write at most two. -/
theorem runQueue_appends {s t : State} (hq : s.mq ≠ []) (h : runQueue s = .next t) :
    AppendsAtMost (if s.cfg.rmwAtomic then 2 else 1) s t := by
  obtain ⟨op, rest, hq⟩ := List.exists_cons_of_ne_nil hq
  obtain hop | ⟨hatomic, r, a, st, -, hst⟩ := runQueue_effect hq h
  · exact hop.appends.mono (by split <;> decide)
  · rw [if_pos hatomic]
    exact (loaded_effect op s r a).appends.trans hst.appends

/-! ### Turns of the devices -/

/-- All a turn of the peripheral can be, each step under its guard (43_i2c R222 to R231). -/
inductive I2cpEffect (s : State) : State → Prop
  | stay : I2cpEffect s s
  | start (hacc : accessible s = true) (hph : s.i2cp.ph = .idle)
      (hstart : s.i2c.cr1.getLsbD 8 = true) : I2cpEffect s (startStep s)
  | address (hacc : accessible s = true) (hph : s.i2cp.ph = .addrTx) :
      I2cpEffect s (addressStep (nextAck s) s.takeAck)
  | shiftLoad (hacc : accessible s = true) (hph : s.i2cp.ph = .dataLoaded) :
      I2cpEffect s (shiftLoadStep s)
  | data (hacc : accessible s = true) (hph : s.i2cp.ph = .dataTx) :
      I2cpEffect s (dataStep (nextAck s) s.takeAck)
  | stop (hacc : accessible s = true) (hph : s.i2cp.ph = .dataDone)
      (hstop : s.i2c.cr1.getLsbD 9 = true) : I2cpEffect s (stopStep s)

theorem i2cpStep_effect (s : State) : I2cpEffect s (i2cpStep s) := by
  unfold i2cpStep
  split
  · rename_i hacc
    split
    · split
      · exact .start hacc ‹_› ‹_›
      · exact .stay
    · exact .address hacc ‹_›
    · exact .shiftLoad hacc ‹_›
    · exact .data hacc ‹_›
    · split
      · exact .stop hacc ‹_› ‹_›
      · exact .stay
    all_goals exact .stay
  · exact .stay

theorem I2cpEffect.appends {s t : State} (h : I2cpEffect s t) : AppendsAtMost 1 s t := by
  cases h with
  | stay => exact .of_hist_eq 1 rfl
  | start => exact .of_hist_append rfl
  | address => cases nextAck s <;> exact .of_hist_append rfl
  | shiftLoad => exact .of_hist_eq 1 rfl
  | data => cases nextAck s <;> exact .of_hist_append rfl
  | stop => exact .of_hist_append rfl

theorem stkStep_appends (s : State) : AppendsAtMost 1 s (stkStep s) := by
  unfold stkStep countStep
  split
  · dsimp only
    split
    · exact .of_hist_eq 1 rfl
    · split
      · exact .of_hist_append rfl
      · exact .of_hist_eq 1 rfl
  · exact .of_hist_eq 1 rfl

/-- Settles O38: only a turn on a nonempty queue can append two events, and only when it is fused. -/
theorem historyOnlyGrows : Obligations.HistoryOnlyGrows := by
  intro s t h
  have hone : 1 ≤ if s.cfg.rmwAtomic then 2 else 1 := by split <;> decide
  change AppendsAtMost _ s.takeTurn t
  obtain ⟨-, -, -, hfetch⟩ | ⟨-, -, hq, hrun⟩ | ⟨-, -, rfl⟩ | ⟨-, -, rfl⟩ | ⟨-, -, rfl⟩ := step_cases h
  · exact (fetchStep_appends hfetch).mono hone
  · exact runQueue_appends hq hrun
  · exact .of_hist_eq _ rfl
  · exact (i2cpStep_effect s.takeTurn).appends.mono hone
  · exact (stkStep_appends s.takeTurn).mono hone

end Sys2Proof.Machine
end

section
/-! What a completed write does to the registers, phase and flags of the I2C block and to the clock
registers, one lemma per write function of the model, and the step rule for invariants about them. -/

namespace Sys2Proof.Machine

/-! ### Completed writes -/

/-- A completed write under the software reset holds the block in it or releases it (42_businit R198). -/
theorem writeSwrst_done {v : Word} {s t : State} (h : writeSwrst v s = .done t) :
    (v.getLsbD 15 = true ∧ s.i2cp.ph = .idle ∧
      t = { holdI2cReset s with i2c := { I2cRegs.reset with cr1 := mSwrst } }) ∨
    (v.getLsbD 15 = false ∧ t = setCr1 v { s with i2cp := { s.i2cp with inReset := false } }) := by
  unfold writeSwrst at h
  split at h
  · split at h
    · cases h
    · cases h; exact .inl ⟨‹_›, not_not.1 ‹_›, rfl⟩
  · cases h; exact .inr ⟨Bool.eq_false_iff.2 ‹_›, rfl⟩

/-- A completed write to `CR1` is lost, moves the software reset, or stores (43_i2c R223). -/
theorem writeCr1_done {v : Word} {s t : State} (h : writeCr1 v s = .done t) :
    (cr1Lost s = true ∧ t = s) ∨ (cr1Lost s = false ∧ writeSwrst v s = .done t) ∨
    (cr1Lost s = false ∧ cr1Unmodelled s.i2cp.ph s.i2c.cr1 v = none ∧ t = setCr1 v s) := by
  unfold writeCr1 at h
  split at h
  · split at h
    · cases h; exact .inl ⟨‹_›, rfl⟩
    · exact .inr (.inl ⟨Bool.eq_false_iff.2 ‹_›, h⟩)
  · split at h
    · cases h
    · split at h
      · cases h; exact .inl ⟨‹_›, rfl⟩
      · split at h
        · cases h
        · cases h; exact .inr (.inr ⟨Bool.eq_false_iff.2 ‹_›, ‹_›, rfl⟩)

/-- A completed write to `DR` is lost, or is the address byte after SB, or a data byte while TXE is set
(43_i2c R226). -/
theorem writeDr_done {v : Word} {s t : State} (h : writeDr v s = .done t) :
    (i2cLost s = true ∧ t = s) ∨
    (i2cLost s = false ∧ s.i2cp.ph = .startDone ∧ s.flags.sb = true ∧ t = { s with
      i2c := { s.i2c with dr := v.setWidth 8 }
      i2cp := { s.i2cp with shift := v.setWidth 8, ph := .addrTx }
      flags := { s.flags with sb := false } }) ∨
    (i2cLost s = false ∧ s.i2cp.ph = .txReady ∧ s.flags.txe = true ∧ t = { s with
      i2c := { s.i2c with dr := v.setWidth 8 }
      i2cp := { s.i2cp with ph := .dataLoaded }
      flags := { s.flags with txe := false } }) := by
  unfold writeDr at h
  split at h
  · cases h; exact .inl ⟨‹_›, rfl⟩
  · have hacc : i2cLost s = false := Bool.eq_false_iff.2 ‹_›
    split at h
    · rename_i hc
      simp only [Bool.and_eq_true, decide_eq_true_eq] at hc
      cases h; exact .inr (.inl ⟨hacc, hc.1, hc.2, rfl⟩)
    · split at h
      · rename_i hc
        simp only [Bool.and_eq_true, decide_eq_true_eq] at hc
        cases h; exact .inr (.inr ⟨hacc, hc.1, hc.2, rfl⟩)
      · cases h

/-- A completed write to `CCR` is lost or stores its fields (42_businit R200). -/
theorem writeCcr_done {v : Word} {s t : State} (h : writeCcr v s = .done t) :
    (i2cLost s = true ∧ t = s) ∨
    (i2cLost s = false ∧ s.i2c.cr1.getLsbD 0 = false ∧
      t = { s with i2c := { s.i2c with ccr := v &&& ccrFields } }) := by
  unfold writeCcr at h
  split at h
  · cases h; exact .inl ⟨‹_›, rfl⟩
  · split at h
    · cases h
    · cases h; exact .inr ⟨Bool.eq_false_iff.2 ‹_›, Bool.eq_false_iff.2 ‹_›, rfl⟩

/-- A completed write to `APB1RSTR` stores its fields, and holds the I2C block in reset or releases it
(42_businit R197). -/
theorem writeApb1rstr_done {v : Word} {s t : State} (h : writeApb1rstr v s = .done t) :
    (v.getLsbD (i2cBit s.cfg) = true ∧ s.i2cp.ph = .idle ∧ t = holdI2cReset
      { s with rcc := { s.rcc with apb1rstr := maskedInto apb1Fields s.rcc.apb1rstr v } }) ∨
    (v.getLsbD (i2cBit s.cfg) = false ∧ t = { s with
      rcc := { s.rcc with apb1rstr := maskedInto apb1Fields s.rcc.apb1rstr v }
      i2cp := { s.i2cp with inReset := false } }) := by
  unfold writeApb1rstr at h
  split at h
  · split at h
    · cases h
    · cases h; exact .inl ⟨‹_›, not_not.1 ‹_›, rfl⟩
  · cases h; exact .inr ⟨Bool.eq_false_iff.2 ‹_›, rfl⟩

theorem writeI2cPlain_done {s t : State} {regs : I2cRegs} (h : writeI2cPlain s regs = .done t) :
    (i2cLost s = true ∧ t = s) ∨ (i2cLost s = false ∧ t = { s with i2c := regs }) := by
  unfold writeI2cPlain at h
  split at h
  · cases h; exact .inl ⟨‹_›, rfl⟩
  · cases h; exact .inr ⟨Bool.eq_false_iff.2 ‹_›, rfl⟩

theorem writeGpio_done {s t : State} {g : Gpio} (h : writeGpio s g = .done t) :
    (gpioClocked s = false ∧ t = s) ∨ (gpioClocked s = true ∧ t = { s with gpio := g }) := by
  unfold writeGpio at h
  split at h
  · cases h; exact .inr ⟨‹_›, rfl⟩
  · cases h; exact .inl ⟨Bool.eq_false_iff.2 ‹_›, rfl⟩

/-! ### Invariants of the peripheral and the clocks -/

/-- The hardware state of the I2C block and of the clock registers. -/
def State.peripheral (s : State) : I2cRegs × I2cp × I2cFlags × Rcc := (s.i2c, s.i2cp, s.flags, s.rcc)

@[simp] theorem stkStep_peripheral (s : State) : (stkStep s).peripheral = s.peripheral := by
  rw [stkStep_eq]; rfl

theorem fetchStep_peripheral {s t : State} (h : fetchStep s = .next t) : t.peripheral = s.peripheral := by
  rw [fetchStep_eq h]; rfl

/-- A predicate on the I2C block and the clocks that reads, completed writes and turns of the peripheral
keep is kept by every step. -/
theorem step_keeps_of_peripheral {P : State → Prop}
    (hframe : ∀ s t : State, t.peripheral = s.peripheral → P s → P t)
    (hread : ∀ (r : Reg) (s : State), P s → P (readEffect r s))
    (hwrite : ∀ (r : Reg) (v : Word) (s t : State), P s → writeReg r v s = .done t → P t)
    (hi2cp : ∀ s t : State, P s → I2cpEffect s t → P t)
    {s t : State} (hs : P s) (h : step s = .next t) : P t := by
  have hop : ∀ {op s t}, P s → OpEffect s op t → P t := by
    intro op s t hs h
    cases h with
    | read op r a => exact hframe (readEffect r s) _ rfl (hread r s hs)
    | @write op r v u a hw => exact hframe u _ rfl (hwrite r v _ u (hframe s s.pop rfl hs) hw)
    | fault | string | halt => exact hframe s _ rfl hs
  have hturn : P s.takeTurn := hframe s _ rfl hs
  obtain ⟨-, -, -, hfetch⟩ | ⟨-, -, hq, hrun⟩ | ⟨-, -, rfl⟩ | ⟨-, -, rfl⟩ | ⟨-, -, rfl⟩ := step_cases h
  · exact hframe _ t (fetchStep_peripheral hfetch) hturn
  · obtain ⟨op, rest, hq⟩ := List.exists_cons_of_ne_nil hq
    obtain hhead | ⟨-, r, a, st, -, hst⟩ := runQueue_effect (s := s.takeTurn) hq hrun
    · exact hop hturn hhead
    · exact hop (hop hturn (loaded_effect op _ r a)) hst
  · exact hturn
  · exact hi2cp _ _ hturn (i2cpStep_effect _)
  · exact hframe _ _ (stkStep_peripheral _) hturn

end Sys2Proof.Machine
end

section
/-! The flags match the phase (10_state R51, 43_i2c R224 to R231): what keeps the invariant, by kind of
turn. -/

namespace Sys2Proof.Machine

/-- `flagsMatchPhase` taken apart, one field for each flag or bit it speaks of. -/
structure FlagsMatch (s : State) : Prop where
  sb : s.flags.sb = true ↔ s.i2cp.ph = .startDone
  addr : s.flags.addr = true ↔ s.i2cp.ph = .addrAcked
  btf : s.flags.btf = true ↔ s.i2cp.ph = .dataDone
  msl : s.flags.msl = true ↔ s.i2cp.ph ≠ .idle
  busy : s.flags.busy = true ↔ s.i2cp.ph ≠ .idle
  txe : s.i2cp.ph ≠ .nacked →
    (s.flags.txe = true ↔ s.i2cp.ph = .txReady ∨ s.i2cp.ph = .dataTx ∨ s.i2cp.ph = .dataDone)
  af : s.flags.af = true → s.i2cp.ph = .nacked
  tra : s.flags.tra = true → s.i2cp.ph ≠ .idle ∧ s.i2cp.ph ≠ .startDone ∧ s.i2cp.ph ≠ .addrTx
  sr1Seen : s.i2cp.sr1Seen = true → s.flags.addr = true
  inReset : s.i2cp.inReset = true → s.i2cp.ph = .idle

theorem flagsMatchPhase_iff (s : State) : flagsMatchPhase s = true ↔ FlagsMatch s := by
  have beq_bool (a b : Bool) : (a == b) = true ↔ (a = true ↔ b = true) := by
    cases a <;> cases b <;> decide
  have imp_bool (a b : Bool) : (!a || b) = true ↔ (a = true → b = true) := by
    cases a <;> cases b <;> decide
  simp only [flagsMatchPhase, Bool.and_eq_true, Bool.or_eq_true, beq_bool, imp_bool, beq_iff_eq,
    bne_iff_ne, Bool.not_eq_eq_eq_not, Bool.not_true, Bool.or_eq_false_iff, beq_eq_false_iff_ne,
    or_assoc, and_assoc]
  constructor
  · rintro ⟨hsb, haddr, hbtf, hmsl, hbusy, htxe, haf, htra, hseen, hreset⟩
    exact ⟨hsb, haddr, hbtf, hmsl, hbusy, htxe.resolve_left, haf, htra, hseen, hreset⟩
  · rintro ⟨hsb, haddr, hbtf, hmsl, hbusy, htxe, haf, htra, hseen, hreset⟩
    exact ⟨hsb, haddr, hbtf, hmsl, hbusy, or_iff_not_imp_left.2 htxe, haf, htra, hseen, hreset⟩

/-- The invariant is about the phase group and the flags alone. -/
theorem FlagsMatch.congr {s t : State} (h : FlagsMatch s) (hi : t.i2cp = s.i2cp)
    (hf : t.flags = s.flags) : FlagsMatch t := by
  obtain ⟨hsb, haddr, hbtf, hmsl, hbusy, htxe, haf, htra, hseen, hreset⟩ := h
  rw [← hi, ← hf] at *
  exact ⟨hsb, haddr, hbtf, hmsl, hbusy, htxe, haf, htra, hseen, hreset⟩

/-- Every flag 0 in phase IDLE meets the invariant (R58), in reset or not. -/
theorem flagsMatch_of_reset {s : State} (hph : s.i2cp.ph = .idle) (hseen : s.i2cp.sr1Seen = false)
    (hf : s.flags = I2cFlags.reset) : FlagsMatch s := by
  constructor <;> simp [hph, hseen, hf, I2cFlags.reset]

/-- Releasing the reset keeps the invariant. -/
theorem FlagsMatch.release {s : State} (h : FlagsMatch s) :
    FlagsMatch { s with i2cp := { s.i2cp with inReset := false } } := { h with inReset := nofun }

/-- Reading `SR1` notes ADDR and reading `SR2` after it ends the phase ADDR_ACKED (43_i2c R225, R228). -/
theorem FlagsMatch.of_readEffect {s : State} (r : Reg) (h : FlagsMatch s) : FlagsMatch (readEffect r s) := by
  cases r with
  | i2cSr1 =>
    rw [readEffect, sr1ReadEffect]
    split
    · obtain ⟨-, haddr⟩ := Bool.and_eq_true_iff.1 ‹_›
      exact { h with sr1Seen := fun _ => haddr }
    · exact h
  | i2cSr2 =>
    rw [readEffect, sr2ReadEffect]
    split
    · obtain ⟨hsb, haddr, hbtf, hmsl, hbusy, htxe, haf, htra, hseen, hreset⟩ := h
      constructor <;> simp_all [i2cLost]
    · exact h
  | _ => exact h.congr rfl rfl

/-- Each step of the peripheral moves the flags along with the phase (R224 to R231). -/
theorem FlagsMatch.of_i2cpEffect {s t : State} (hs : FlagsMatch s) (h : I2cpEffect s t) : FlagsMatch t := by
  obtain ⟨hsb, haddr, hbtf, hmsl, hbusy, htxe, haf, htra, hseen, hreset⟩ := hs
  cases h with
  | stay => exact ⟨hsb, haddr, hbtf, hmsl, hbusy, htxe, haf, htra, hseen, hreset⟩
  | start hacc hph => constructor <;> simp_all [startStep, accessible]
  | address hacc hph =>
    cases nextAck s with
    | ack => constructor <;> simp_all [addressStep]
    | nack => constructor <;> simp_all [addressStep]
  | shiftLoad hacc hph => constructor <;> simp_all [shiftLoadStep]
  | data hacc hph =>
    cases nextAck s with
    | ack => constructor <;> simp_all [dataStep]
    | nack => constructor <;> simp_all [dataStep]
  | stop hacc hph => constructor <;> simp_all [stopStep]

theorem FlagsMatch.of_writeSwrst {v : Word} {s t : State} (hs : FlagsMatch s)
    (h : writeSwrst v s = .done t) : FlagsMatch t := by
  obtain ⟨-, -, rfl⟩ | ⟨-, rfl⟩ := writeSwrst_done h
  · exact flagsMatch_of_reset rfl rfl rfl
  · exact hs.release.congr rfl rfl

/-- A byte written to `DR` ends START_DONE or TX_READY and clears the flag of that phase (R226). -/
theorem FlagsMatch.of_writeDr {v : Word} {s t : State} (hs : FlagsMatch s) (h : writeDr v s = .done t) :
    FlagsMatch t := by
  obtain ⟨hsb, haddr, hbtf, hmsl, hbusy, htxe, haf, htra, hseen, hreset⟩ := hs
  obtain ⟨-, rfl⟩ | ⟨-, hph, -, rfl⟩ | ⟨-, hph, -, rfl⟩ := writeDr_done h
  · exact ⟨hsb, haddr, hbtf, hmsl, hbusy, htxe, haf, htra, hseen, hreset⟩
  · constructor <;> simp_all
  · constructor <;> simp_all

/-- A completed write to any register keeps the invariant; only `CR1`, `DR`, `SR1` and `APB1RSTR` touch the
phase or the flags. -/
theorem FlagsMatch.of_writeReg {r : Reg} {v : Word} {s t : State} (hs : FlagsMatch s)
    (h : writeReg r v s = .done t) : FlagsMatch t := by
  cases r with
  | i2cCr1 =>
    obtain ⟨-, rfl⟩ | ⟨-, hswrst⟩ | ⟨-, -, rfl⟩ := writeCr1_done h
    · exact hs
    · exact hs.of_writeSwrst hswrst
    · exact hs.congr rfl rfl
  | i2cDr => exact hs.of_writeDr h
  | i2cSr1 =>
    rw [writeReg] at h
    split at h
    · cases h; exact hs
    · cases h
      exact { hs with af := fun haf => hs.af (Bool.and_eq_true_iff.1 haf).1 }
  | rccApb1rstr =>
    obtain ⟨-, -, rfl⟩ | ⟨-, rfl⟩ := writeApb1rstr_done h
    · exact flagsMatch_of_reset rfl rfl rfl
    · exact hs.release.congr rfl rfl
  | i2cCcr => obtain ⟨-, rfl⟩ | ⟨-, -, rfl⟩ := writeCcr_done h <;> exact hs.congr rfl rfl
  | i2cCr2 | i2cOar1 | i2cOar2 | i2cTrise | i2cFltr =>
    obtain ⟨-, rfl⟩ | ⟨-, rfl⟩ := writeI2cPlain_done h <;> exact hs.congr rfl rfl
  | gpioModer | gpioOtyper | gpioOspeedr | gpioPupdr | gpioAfrl | gpioAfrh =>
    obtain ⟨-, rfl⟩ | ⟨-, rfl⟩ := writeGpio_done h <;> exact hs.congr rfl rfl
  | i2cSr2 | stkCtrl | stkLoad | stkVal | stkCalib | rccAhb1enr | rccApb1enr =>
    cases h; exact hs.congr rfl rfl

/-- Settles O39: reads, completed writes and turns of the peripheral each keep `FlagsMatch`. -/
theorem flagsMatchPhaseIsKept : Obligations.FlagsMatchPhaseIsKept := by
  intro s t hs h
  rw [flagsMatchPhase_iff] at hs ⊢
  refine step_keeps_of_peripheral (P := FlagsMatch) (fun s t heq hs => ?frame)
    (fun r s hs => hs.of_readEffect r) (fun r v s t hs h => hs.of_writeReg h) (fun s t hs h => hs.of_i2cpEffect h) hs h
  simp only [State.peripheral, Prod.mk.injEq] at heq
  obtain ⟨-, hi, hf, -⟩ := heq
  exact hs.congr hi hf

end Sys2Proof.Machine
end

section
/-! Reserved bits of the control and clock registers (10_state R27, as log 8 reads it), and the invariants at
reset. -/

namespace Sys2Proof.Machine

/-- `reservedBitsKept` taken apart, with the model's own field masks. -/
structure ReservedKept (s : State) : Prop where
  cr1 : s.i2c.cr1 &&& ~~~cr1Fields = 0
  cr2 : s.i2c.cr2 &&& ~~~cr2Fields = 0
  ccr : s.i2c.ccr &&& ~~~ccrFields = 0
  apb1rstr : s.rcc.apb1rstr &&& ~~~apb1Fields = 0
  apb1enr : s.rcc.apb1enr &&& ~~~apb1Fields = 0
  ahb1enr : s.rcc.ahb1enr &&& ~~~ahb1Fields = 0x0010_0000

theorem reservedBitsKept_iff (s : State) : reservedBitsKept s = true ↔ ReservedKept s := by
  simp only [reservedBitsKept, Bool.and_eq_true, beq_iff_eq, and_assoc]
  exact ⟨fun ⟨h1, h2, h3, h4, h5, h6⟩ => ⟨h1, h2, h3, h4, h5, h6⟩,
    fun ⟨h1, h2, h3, h4, h5, h6⟩ => ⟨h1, h2, h3, h4, h5, h6⟩⟩

/-- What is masked to a register's fields has no bit outside them. -/
theorem and_fields_and_not (v m : Word) : v &&& m &&& ~~~m = 0 := by
  rw [BitVec.and_assoc, BitVec.and_not_self]
  exact BitVec.and_zero

/-- Clearing bits sets none outside the fields. -/
theorem and_and_not_of_and_not {c m : Word} (x : Word) (h : c &&& ~~~m = 0) : c &&& x &&& ~~~m = 0 := by
  rw [BitVec.and_assoc, BitVec.and_comm x, ← BitVec.and_assoc, h]
  exact BitVec.zero_and

/-- A write into the fields leaves the bits outside them. -/
theorem maskedInto_and_not (m old v : Word) : maskedInto m old v &&& ~~~m = old &&& ~~~m := by
  apply BitVec.eq_of_getLsbD_eq
  intro i hi
  simp only [BitVec.getLsbD_and, BitVec.getLsbD_not, getLsbD_maskedInto]
  cases m.getLsbD i <;> simp

/-- The invariant is about the I2C registers and the clock registers alone. -/
theorem ReservedKept.congr {s t : State} (h : ReservedKept s) (hi : t.i2c = s.i2c) (hr : t.rcc = s.rcc) :
    ReservedKept t := by
  obtain ⟨hcr1, hcr2, hccr, hrstr, henr, hahb⟩ := h
  rw [← hi, ← hr] at *
  exact ⟨hcr1, hcr2, hccr, hrstr, henr, hahb⟩

/-- Start and stop generation clear their request in `CR1`; no other step of the peripheral writes a
register (43_i2c R224, R231). -/
theorem ReservedKept.of_i2cpEffect {s t : State} (hs : ReservedKept s) (h : I2cpEffect s t) :
    ReservedKept t := by
  cases h with
  | stay => exact hs
  | start => exact { hs with cr1 := and_and_not_of_and_not _ hs.cr1 }
  | address => cases nextAck s <;> exact hs.congr rfl rfl
  | shiftLoad => exact hs.congr rfl rfl
  | data => cases nextAck s <;> exact hs.congr rfl rfl
  | stop => exact { hs with cr1 := and_and_not_of_and_not _ hs.cr1 }

/-- A reset of the I2C block leaves 0 in its registers' reserved bits. -/
theorem ReservedKept.hold {s : State} (hs : ReservedKept s) : ReservedKept (holdI2cReset s) :=
  { hs with cr1 := BitVec.zero_and, cr2 := BitVec.zero_and, ccr := BitVec.zero_and }

theorem ReservedKept.of_writeSwrst {v : Word} {s t : State} (hs : ReservedKept s)
    (h : writeSwrst v s = .done t) : ReservedKept t := by
  obtain ⟨-, -, rfl⟩ | ⟨-, rfl⟩ := writeSwrst_done h
  · have hcr1 : mSwrst &&& ~~~cr1Fields = 0 := by decide
    exact { hs.hold with cr1 := hcr1 }
  · exact { hs with cr1 := and_fields_and_not _ _ }

/-- A completed write stores into the fields of a register only. -/
theorem ReservedKept.of_writeReg {r : Reg} {v : Word} {s t : State} (hs : ReservedKept s)
    (h : writeReg r v s = .done t) : ReservedKept t := by
  cases r with
  | i2cCr1 =>
    obtain ⟨-, rfl⟩ | ⟨-, hswrst⟩ | ⟨-, -, rfl⟩ := writeCr1_done h
    · exact hs
    · exact hs.of_writeSwrst hswrst
    · exact { hs with cr1 := and_fields_and_not _ _ }
  | i2cCr2 =>
    obtain ⟨-, rfl⟩ | ⟨-, rfl⟩ := writeI2cPlain_done h
    · exact hs
    · exact { hs with cr2 := and_fields_and_not _ _ }
  | i2cCcr =>
    obtain ⟨-, rfl⟩ | ⟨-, -, rfl⟩ := writeCcr_done h
    · exact hs
    · exact { hs with ccr := and_fields_and_not _ _ }
  | i2cDr =>
    obtain ⟨-, rfl⟩ | ⟨-, -, -, rfl⟩ | ⟨-, -, -, rfl⟩ := writeDr_done h <;> exact { hs with }
  | i2cSr1 =>
    rw [writeReg] at h
    split at h <;> cases h <;> exact hs.congr rfl rfl
  | rccApb1rstr =>
    have hrstr := (maskedInto_and_not apb1Fields s.rcc.apb1rstr v).trans hs.apb1rstr
    obtain ⟨-, -, rfl⟩ | ⟨-, rfl⟩ := writeApb1rstr_done h
    · exact { hs.hold with apb1rstr := hrstr }
    · exact { hs with apb1rstr := hrstr }
  | rccAhb1enr => cases h; exact { hs with ahb1enr := (maskedInto_and_not _ _ _).trans hs.ahb1enr }
  | rccApb1enr => cases h; exact { hs with apb1enr := (maskedInto_and_not _ _ _).trans hs.apb1enr }
  | i2cOar1 | i2cOar2 | i2cTrise | i2cFltr =>
    obtain ⟨-, rfl⟩ | ⟨-, rfl⟩ := writeI2cPlain_done h <;> exact { hs with }
  | gpioModer | gpioOtyper | gpioOspeedr | gpioPupdr | gpioAfrl | gpioAfrh =>
    obtain ⟨-, rfl⟩ | ⟨-, rfl⟩ := writeGpio_done h <;> exact hs.congr rfl rfl
  | i2cSr2 | stkCtrl | stkLoad | stkVal | stkCalib => cases h; exact hs.congr rfl rfl

/-- Settles O41: no read touches these registers; completed writes and turns of the peripheral keep
`ReservedKept`. -/
theorem reservedBitsAreKept : Obligations.ReservedBitsAreKept := by
  intro s t hs h
  rw [reservedBitsKept_iff] at hs ⊢
  refine step_keeps_of_peripheral (P := ReservedKept) (fun s t heq hs => ?frame)
    (fun r s hs => hs.congr (readEffect_i2c r s) (readEffect_rcc r s))
    (fun r v s t hs h => hs.of_writeReg h) (fun s t hs h => hs.of_i2cpEffect h) hs h
  simp only [State.peripheral, Prod.mk.injEq] at heq
  obtain ⟨hi, -, -, hr⟩ := heq
  exact hs.congr hi hr

/-- The reserved bits at the reset values of R58. -/
theorem reservedKept_reset : ReservedKept State.reset := by
  constructor <;> decide

/-- Settles O43: the reset state has phase IDLE, every flag 0, the reset values of the registers, an empty
history and an empty string memory. -/
theorem resetMeetsTheInvariants : Obligations.ResetMeetsTheInvariants :=
  ⟨(flagsMatchPhase_iff _).2 (flagsMatch_of_reset rfl rfl rfl), rfl,
    (reservedBitsKept_iff _).2 reservedKept_reset, rfl, rfl⟩

end Sys2Proof.Machine
end

section
/-! What an access to a register leaves alone (20_memory R76, 40_microops R144). -/

namespace Sys2Proof.Machine

/-! ### Reads -/

/-- All a read of `SR1` can change. -/
theorem sr1ReadEffect_eq (s : State) :
    sr1ReadEffect s = { s with i2cp := { s.i2cp with sr1Seen := (sr1ReadEffect s).i2cp.sr1Seen } } := by
  unfold sr1ReadEffect
  split <;> rfl

/-- All a read of `SR2` can change. -/
theorem sr2ReadEffect_eq (s : State) :
    sr2ReadEffect s = { s with i2cp := (sr2ReadEffect s).i2cp, flags := (sr2ReadEffect s).flags } := by
  unfold sr2ReadEffect
  split <;> rfl

/-- Only a read of `STK.CTRL` touches the counter. -/
theorem readEffect_stk {r : Reg} (hr : r ≠ .stkCtrl) (s : State) : (readEffect r s).stk = s.stk := by
  cases r with
  | i2cSr1 => rw [readEffect, sr1ReadEffect_eq]
  | i2cSr2 => rw [readEffect, sr2ReadEffect_eq]
  | stkCtrl => exact absurd rfl hr
  | _ => rfl

/-- Only a read of `SR2` touches the flags or the phase. -/
theorem readEffect_flags_ph {r : Reg} (hr : r ≠ .i2cSr2) (s : State) :
    (readEffect r s).flags = s.flags ∧ (readEffect r s).i2cp.ph = s.i2cp.ph := by
  cases r with
  | i2cSr1 => rw [readEffect, sr1ReadEffect_eq]; exact ⟨rfl, rfl⟩
  | i2cSr2 => exact absurd rfl hr
  | _ => exact ⟨rfl, rfl⟩

/-! ### Writes -/

/-- The blocks a completed write to `r` leaves as they were, by the register written. -/
structure WriteFrame (r : Reg) (s t : State) : Prop where
  stk : r ∉ [Reg.stkCtrl, .stkLoad, .stkVal] → t.stk = s.stk
  gpio : r ∉ [Reg.gpioModer, .gpioOtyper, .gpioOspeedr, .gpioPupdr, .gpioAfrl, .gpioAfrh] → t.gpio = s.gpio
  rcc : r ∉ [Reg.rccApb1rstr, .rccAhb1enr, .rccApb1enr] → t.rcc = s.rcc
  i2cp : r ∉ [Reg.i2cCr1, .i2cDr, .rccApb1rstr] → t.i2cp = s.i2cp
  flags : r ∉ [Reg.i2cCr1, .i2cDr, .rccApb1rstr] → r ≠ .i2cSr1 → t.flags = s.flags
  i2c : r ∉ [Reg.i2cCr1, .i2cCr2, .i2cOar1, .i2cOar2, .i2cDr, .i2cCcr, .i2cTrise, .i2cFltr, .rccApb1rstr] →
    t.i2c = s.i2c
  calib : t.stk.calib = s.stk.calib

/-- A lost write leaves everything. -/
theorem WriteFrame.refl (r : Reg) (s : State) : WriteFrame r s s := by constructor <;> intros <;> rfl

/-- A completed write to `CR1`, to `DR` or to `APB1RSTR` moves the I2C block, and the last its own
register; every other write only stores into its register, or into the one flag AF for `SR1`. -/
theorem writeReg_frame {r : Reg} {v : Word} {s t : State} (h : writeReg r v s = .done t) :
    WriteFrame r s t := by
  cases r with
  | i2cCr1 =>
    obtain ⟨-, rfl⟩ | ⟨-, hswrst⟩ | ⟨-, -, rfl⟩ := writeCr1_done h
    · exact .refl _ _
    · obtain ⟨-, -, rfl⟩ | ⟨-, rfl⟩ := writeSwrst_done hswrst <;> constructor <;> simp
    · constructor <;> simp
  | i2cDr => obtain ⟨-, rfl⟩ | ⟨-, -, -, rfl⟩ | ⟨-, -, -, rfl⟩ := writeDr_done h <;> constructor <;> simp
  | i2cSr1 =>
    rw [writeReg] at h
    split at h <;> cases h <;> constructor <;> simp
  | rccApb1rstr => obtain ⟨-, -, rfl⟩ | ⟨-, rfl⟩ := writeApb1rstr_done h <;> constructor <;> simp
  | i2cCcr => obtain ⟨-, rfl⟩ | ⟨-, -, rfl⟩ := writeCcr_done h <;> constructor <;> simp
  | i2cCr2 | i2cOar1 | i2cOar2 | i2cTrise | i2cFltr =>
    obtain ⟨-, rfl⟩ | ⟨-, rfl⟩ := writeI2cPlain_done h <;> constructor <;> simp
  | gpioModer | gpioOtyper | gpioOspeedr | gpioPupdr | gpioAfrl | gpioAfrh =>
    obtain ⟨-, rfl⟩ | ⟨-, rfl⟩ := writeGpio_done h <;> constructor <;> simp
  | i2cSr2 | stkCtrl | stkLoad | stkVal | stkCalib | rccAhb1enr | rccApb1enr =>
    cases h; constructor <;> simp

/-- Settles O27: reads by the effect of each register, writes by `writeReg_eq` and `writeReg_frame`. -/
theorem accessFrame : Obligations.AccessFrame := by
  refine ⟨fun r s => ⟨fun hr => ?silent, readEffect_eq r s, fun hr => readEffect_stk hr s,
    fun hr => readEffect_flags_ph hr s⟩, fun s hclocked hreset => ?stored, fun r v s t h => ?write⟩
  case silent =>
    simp only [List.mem_cons, List.not_mem_nil, or_false, not_or] at hr
    obtain ⟨hsr1, hsr2, hctrl⟩ := hr
    exact readEffect_none s hsr1 hsr2 hctrl
  case stored => simp [readValue, cr1Lost, i2cLost, hclocked, hreset]
  case write =>
    obtain ⟨hstk, hgpio, hrcc, hi2cp, hflags, hi2c, hcalib⟩ := writeReg_frame h
    refine ⟨?others, hstk, hgpio, hrcc, fun hr => ⟨hi2cp hr, hflags hr⟩, hi2c, hcalib⟩
    rw [writeReg_eq h]
    simp

end Sys2Proof.Machine
end

section
/-! The registers the command expansions use (20_memory R71), and the ones they never write: an invariant of
every run from a launch. -/

namespace Sys2Proof.Machine

/-! ### What no command writes -/

/-- The values of CR2, OAR1, OAR2, TRISE, FLTR, TICKINT and CALIB, which no command writes. -/
def State.unused (s : State) : Word × Word × Word × Word × Word × Bool × Word :=
  (s.i2c.cr2, s.i2c.oar1, s.i2c.oar2, s.i2c.trise, s.i2c.fltr, s.stk.tickint, s.stk.calib)

/-- Those values after reset (10_state R58), with the draw for CALIB (log 5). -/
def unusedAtReset (calib : Word) : Word × Word × Word × Word × Word × Bool × Word :=
  (0, 0, 0, 2, 0, false, calib)

theorem unused_congr {s t : State} (hi2c : t.i2c = s.i2c) (hstk : t.stk = s.stk) : t.unused = s.unused := by
  simp only [State.unused, hi2c, hstk]

/-- A read of `STK.CTRL` clears COUNTFLAG; no other read touches the counter, and none the I2C registers. -/
@[simp] theorem readEffect_unused (r : Reg) (s : State) : (readEffect r s).unused = s.unused := by
  by_cases hr : r = .stkCtrl
  · subst hr; rfl
  · exact unused_congr (readEffect_i2c r s) (readEffect_stk hr s)

@[simp] theorem stkStep_unused (s : State) : (stkStep s).unused = s.unused := by
  have hi2c : (stkStep s).i2c = s.i2c := by rw [stkStep_eq]
  simp only [State.unused, hi2c]
  rw [stkStep_stk]

theorem I2cpEffect.unused {s t : State} (h : I2cpEffect s t) : t.unused = s.unused := by
  cases h with
  | address | data => cases nextAck s <;> rfl
  | stay | start | shiftLoad | stop => rfl

/-- A write a command may make: not to one of the unused registers, and to `STK.CTRL` only with TICKINT 0. -/
def WriteAllowed (r : Reg) (v : Word) : Prop :=
  r ∉ [Reg.i2cCr2, .i2cOar1, .i2cOar2, .i2cTrise, .i2cFltr] ∧ (r = .stkCtrl → v.getLsbD 1 = false)

/-- A reset of the I2C block, held with any `CR1`, leaves the unused registers at their reset values. -/
theorem unused_of_i2c_reset {s t : State} {cr1 calib : Word} (hs : s.unused = unusedAtReset calib)
    (hi2c : t.i2c = { I2cRegs.reset with cr1 := cr1 }) (hstk : t.stk = s.stk) :
    t.unused = unusedAtReset calib := by
  simp_all [State.unused, unusedAtReset, I2cRegs.reset]

/-- An allowed write keeps the unused registers at their reset values. -/
theorem writeReg_unused {r : Reg} {v calib : Word} {s t : State} (hs : s.unused = unusedAtReset calib)
    (hallowed : WriteAllowed r v) (h : writeReg r v s = .done t) : t.unused = unusedAtReset calib := by
  obtain ⟨hr, htickint⟩ := hallowed
  cases r with
  | i2cCr1 =>
    obtain ⟨-, rfl⟩ | ⟨-, hswrst⟩ | ⟨-, -, rfl⟩ := writeCr1_done h
    · exact hs
    · obtain ⟨-, -, rfl⟩ | ⟨-, rfl⟩ := writeSwrst_done hswrst
      · exact unused_of_i2c_reset hs rfl rfl
      · exact hs
    · exact hs
  | i2cDr => obtain ⟨-, rfl⟩ | ⟨-, -, -, rfl⟩ | ⟨-, -, -, rfl⟩ := writeDr_done h <;> exact hs
  | rccApb1rstr =>
    obtain ⟨-, -, rfl⟩ | ⟨-, rfl⟩ := writeApb1rstr_done h
    · exact unused_of_i2c_reset hs rfl rfl
    · exact hs
  | i2cCcr => obtain ⟨-, rfl⟩ | ⟨-, -, rfl⟩ := writeCcr_done h <;> exact hs
  | i2cCr2 | i2cOar1 | i2cOar2 | i2cTrise | i2cFltr => simp at hr
  | stkCtrl =>
    have htickint := htickint rfl
    cases h
    simp_all [State.unused, unusedAtReset]
  | stkLoad | stkVal => cases h; exact hs
  | i2cSr1 | i2cSr2 | stkCalib | rccAhb1enr | rccApb1enr
  | gpioModer | gpioOtyper | gpioOspeedr | gpioPupdr | gpioAfrl | gpioAfrh =>
    have hframe := writeReg_frame h
    exact (unused_congr (hframe.i2c (by decide)) (hframe.stk (by decide))).trans hs

/-! ### What the expansions hold -/

/-- A register that a read-modify-write of a command may store any value to. -/
def RmwAllowed (r : Reg) : Prop := ∀ v, WriteAllowed r v

/-- `STK.CTRL` is out too, since a value could set TICKINT. -/
theorem rmwAllowed_of_notMem {r : Reg}
    (h : r ∉ [Reg.i2cCr2, .i2cOar1, .i2cOar2, .i2cTrise, .i2cFltr, .stkCtrl]) : RmwAllowed r := by
  simp_all [RmwAllowed, WriteAllowed]

/-- A micro-operation names a register of the machine (20_memory R71), and stores only what a command may
write. -/
def MicroOp.Allowed (c : Config) : MicroOp → Prop
  | .rd a | .ldt a | .poll a _ => ∃ r, a = regAddr c r
  | .wr a v => ∃ r, a = regAddr c r ∧ WriteAllowed r v
  | .stor a _ | .standn a _ | .stfld a _ _ => ∃ r, a = regAddr c r ∧ RmwAllowed r
  | .tickwait _ | .strch _ | .halt => True

/-- Every micro-operation of a queue is allowed. -/
def OpsAllowed (c : Config) (ops : List MicroOp) : Prop := ∀ op ∈ ops, op.Allowed c

section
variable (c : Config)

@[simp] theorem opsAllowed_nil : OpsAllowed c [] := List.forall_mem_nil _

@[simp] theorem opsAllowed_cons (op : MicroOp) (ops : List MicroOp) :
    OpsAllowed c (op :: ops) ↔ op.Allowed c ∧ OpsAllowed c ops := List.forall_mem_cons

@[simp] theorem opsAllowed_append (xs ys : List MicroOp) :
    OpsAllowed c (xs ++ ys) ↔ OpsAllowed c xs ∧ OpsAllowed c ys := List.forall_mem_append

@[simp] theorem allowed_rd (r : Reg) : (MicroOp.rd (regAddr c r)).Allowed c := ⟨r, rfl⟩
@[simp] theorem allowed_ldt (r : Reg) : (MicroOp.ldt (regAddr c r)).Allowed c := ⟨r, rfl⟩
@[simp] theorem allowed_poll (r : Reg) (m : Word) : (MicroOp.poll (regAddr c r) m).Allowed c := ⟨r, rfl⟩
@[simp] theorem allowed_tickwait (k : Nat) : (MicroOp.tickwait k).Allowed c := trivial
@[simp] theorem allowed_strch (p : Nat) : (MicroOp.strch p).Allowed c := trivial
@[simp] theorem allowed_halt : MicroOp.halt.Allowed c := trivial

@[simp] theorem allowed_wr_dr (v : Word) : (MicroOp.wr (regAddr c .i2cDr) v).Allowed c :=
  ⟨_, rfl, by decide, nofun⟩
@[simp] theorem allowed_wr_load (v : Word) : (MicroOp.wr (regAddr c .stkLoad) v).Allowed c :=
  ⟨_, rfl, by decide, nofun⟩
@[simp] theorem allowed_wr_val (v : Word) : (MicroOp.wr (regAddr c .stkVal) v).Allowed c :=
  ⟨_, rfl, by decide, nofun⟩
@[simp] theorem allowed_wr_arm : (MicroOp.wr (regAddr c .stkCtrl) 5#32).Allowed c :=
  ⟨_, rfl, by decide, fun _ => by decide⟩
@[simp] theorem allowed_wr_disarm : (MicroOp.wr (regAddr c .stkCtrl) 0#32).Allowed c :=
  ⟨_, rfl, by decide, fun _ => by decide⟩

variable {c}

/-- A read-modify-write loads from the register it stores to. -/
theorem rmw_allowed (r : Reg) {op : MicroOp} (hop : op.Allowed c) :
    OpsAllowed c [.ldt (regAddr c r), op] := by
  simp [hop]

theorem opSet_allowed {r : Reg} (hr : RmwAllowed r) (m : Word) : OpsAllowed c (opSet (regAddr c r) m) :=
  rmw_allowed r ⟨r, rfl, hr⟩

theorem opClr_allowed {r : Reg} (hr : RmwAllowed r) (m : Word) : OpsAllowed c (opClr (regAddr c r) m) :=
  rmw_allowed r ⟨r, rfl, hr⟩

theorem opFld_allowed {r : Reg} (hr : RmwAllowed r) (m v : Word) :
    OpsAllowed c (opFld (regAddr c r) m v) :=
  rmw_allowed r ⟨r, rfl, hr⟩

variable (c)

theorem afrOps_allowed (n : Fin 16) : OpsAllowed c (afrOps c n) := by
  refine opFld_allowed (rmwAllowed_of_notMem ?_) _ _
  split <;> decide

theorem resetOps_allowed : OpsAllowed c (resetOps c) := by
  have hrstr : RmwAllowed .rccApb1rstr := rmwAllowed_of_notMem (by decide)
  have hcr1 : RmwAllowed .i2cCr1 := rmwAllowed_of_notMem (by decide)
  unfold resetOps
  split
  · simp [opSet_allowed hrstr, opClr_allowed hrstr]
  · simp [opSet_allowed hcr1, opClr_allowed hcr1]

/-- The other read-modify-writes of INIT_BUS go to clock, pin, `CR1` and `CCR` registers. -/
theorem initbusOps_allowed : OpsAllowed c (initbusOps c) := by
  simp [initbusOps, afrOps_allowed, resetOps_allowed, opSet_allowed, opClr_allowed, opFld_allowed,
    rmwAllowed_of_notMem]

@[simp] theorem delayOps_allowed (n : Nat) : OpsAllowed c (delayOps c n) := by
  unfold delayOps
  split <;> split <;> simp

@[simp] theorem i2cwOps_allowed (a : BitVec 7) (b : Byte) : OpsAllowed c (i2cwOps c a b) := by
  have hcr1 : RmwAllowed .i2cCr1 := rmwAllowed_of_notMem (by decide)
  simp [i2cwOps, opSet_allowed hcr1]

@[simp] theorem nybOps_allowed (d : BitVec 4) (r : BitVec 1) : OpsAllowed c (nybOps c d r) := by
  simp [nybOps]

@[simp] theorem byteOps_allowed (b : Byte) (r : BitVec 1) : OpsAllowed c (byteOps c b r) := by
  simp [byteOps]

@[simp] theorem charOps_allowed (b : Byte) : OpsAllowed c (charOps c b) := by
  simp [charOps, dataOps]

@[simp] theorem lcdinitOps_allowed : OpsAllowed c (lcdinitOps c) := by
  simp [lcdinitOps, wakeOps, resetNybOps, configureOps, cmdOps]

end

/-- Every command's expansion is allowed. -/
theorem exec_allowed (i : Instr) (s : State) :
    ∃ ops, exec i s = .next (s.startCommand ops) ∧ OpsAllowed s.cfg ops := by
  cases i with
  | delay ms => exact ⟨_, rfl, delayOps_allowed _ ms⟩
  | i2cw addr byte => exact ⟨_, rfl, i2cwOps_allowed _ addr byte⟩
  | nyb nyb rs => exact ⟨_, rfl, nybOps_allowed _ nyb rs⟩
  | cmd b | data b => exact ⟨_, rfl, byteOps_allowed _ b _⟩
  | initBus => exact ⟨_, rfl, initbusOps_allowed _⟩
  | lcdInit => exact ⟨_, rfl, lcdinitOps_allowed _⟩
  | clear => exact ⟨_, rfl, by simp [clearOps, cmdOps]⟩
  | print p => exact ⟨_, rfl, by simp⟩
  | idle => exact ⟨_, rfl, by simp⟩

/-! ### The invariant of a run -/

/-- A queue of allowed micro-operations under the configuration `c`, and the unused registers at their reset
values. -/
structure OwnRegisters (c : Config) (calib : Word) (s : State) : Prop where
  cfg : s.cfg = c
  queue : OpsAllowed c s.mq
  unused : s.unused = unusedAtReset calib

/-- An outcome that is a next state with the invariant. -/
def KeepsOwn (c : Config) (calib : Word) (x : Result) : Prop := ∃ t, x = .next t ∧ OwnRegisters c calib t

theorem KeepsOwn.next {c : Config} {calib : Word} {s : State} (h : OwnRegisters c calib s) :
    KeepsOwn c calib (.next s) := ⟨s, rfl, h⟩

theorem KeepsOwn.andThen {c : Config} {calib : Word} {x : Result} {k : State → Result}
    (hx : KeepsOwn c calib x) (hk : ∀ s, OwnRegisters c calib s → KeepsOwn c calib (k s)) :
    KeepsOwn c calib (Machine.andThen x k) := by
  obtain ⟨s, rfl, hs⟩ := hx
  exact hk s hs

namespace OwnRegisters

section
variable {c : Config} {calib : Word} {s : State} (hs : OwnRegisters c calib s)
include hs

/-- A change of the queue to another allowed one, and of fields the invariant does not speak of. -/
theorem requeue {t : State} (hcfg : t.cfg = s.cfg) (hi2c : t.i2c = s.i2c) (hstk : t.stk = s.stk)
    (hmq : OpsAllowed c t.mq) : OwnRegisters c calib t :=
  ⟨hcfg.trans hs.cfg, hmq, (unused_congr hi2c hstk).trans hs.unused⟩

theorem tail : OpsAllowed c s.mq.tail := fun op hop => hs.queue op (List.mem_of_mem_tail hop)

theorem pop : OwnRegisters c calib s.pop := hs.requeue rfl rfl rfl hs.tail

theorem raise (f : BlockFault) : OwnRegisters c calib (s.raise f) := hs.requeue rfl rfl rfl (opsAllowed_nil c)

theorem readTo (r : Reg) (a : Word) : OwnRegisters c calib (readTo s r a) :=
  ⟨(readEffect_cfg r s).trans hs.cfg, by simpa [Machine.readTo] using hs.queue,
    (readEffect_unused r s).trans hs.unused⟩

/-- An access to a register of the machine finds it. -/
theorem memRead (r : Reg) :
    memRead (regAddr c r) s = .next (readValue r s, Machine.readTo s r (regAddr c r)) := by
  obtain rfl := hs.cfg
  exact memRead_regAddr r s

/-- An allowed write is done or raises a fault of the block. -/
theorem memWrite {r : Reg} {v : Word} (hallowed : WriteAllowed r v) :
    KeepsOwn c calib (memWrite (regAddr c r) v s) := by
  have hreg : regAt s.cfg (regAddr c r) = some r := by rw [hs.cfg, regAt_regAddr]
  rw [Machine.memWrite, hreg]
  cases hw : writeReg r v s with
  | done u =>
    have hcfg : u.cfg = s.cfg := by rw [writeReg_eq hw]
    have hmq : u.mq = s.mq := by rw [writeReg_eq hw]
    have hunused : u.unused = unusedAtReset calib := writeReg_unused hs.unused hallowed hw
    simp only [hw]
    exact .next ⟨hcfg.trans hs.cfg, hmq ▸ hs.queue, hunused⟩
  | raises f => simp only [hw]; exact .next (hs.raise f)

/-- The store of a read-modify-write: any value is allowed. -/
theorem memWrite_rmw {r : Reg} (hr : RmwAllowed r) (v : Word) :
    KeepsOwn c calib (Machine.memWrite (regAddr c r) v s.pop) := hs.pop.memWrite (hr v)

/-- An allowed micro-operation runs, and keeps the invariant. -/
theorem runOp {op : MicroOp} (hop : op.Allowed c) : KeepsOwn c calib (runOp op s) := by
  cases op with
  | rd a =>
    obtain ⟨r, rfl⟩ := hop
    simp only [Machine.runOp, runRd, hs.memRead, andThen_next]
    exact .next (hs.readTo r _).pop
  | wr a v =>
    obtain ⟨r, rfl, hallowed⟩ := hop
    exact hs.pop.memWrite hallowed
  | ldt a =>
    obtain ⟨r, rfl⟩ := hop
    have hread := hs.readTo r (regAddr c r)
    simp only [Machine.runOp, runLdt, hs.memRead, andThen_next]
    exact .next (hread.requeue rfl rfl rfl hread.tail)
  | stor a m | standn a m | stfld a m v =>
    obtain ⟨r, rfl, hr⟩ := hop
    exact hs.memWrite_rmw hr _
  | poll a m =>
    obtain ⟨r, rfl⟩ := hop
    simp only [Machine.runOp, runPoll, hs.memRead, andThen_next]
    split
    · exact .next (hs.readTo r _).pop
    · exact .next (hs.readTo r _)
  | tickwait k =>
    have hread := hs.readTo .stkCtrl (regAddr s.cfg .stkCtrl)
    rw [Machine.runOp, runTickwait_eq]
    split
    · split
      · exact .next hread.pop
      · exact .next (hread.requeue rfl rfl rfl (by simp [hs.tail]))
    · exact .next hread
  | strch p =>
    rw [Machine.runOp, runStrch]
    split
    · exact .next (hs.raise _)
    · dsimp only
      split
      · exact .next (hs.requeue rfl rfl rfl hs.tail)
      · exact .next (hs.requeue rfl rfl rfl (by simp [hs.cfg, hs.tail]))
  | halt => exact .next (hs.requeue rfl rfl rfl hs.queue)

/-- A turn on a nonempty queue runs its head, or an `LDT` and the store fused with it (R142). -/
theorem runQueue : KeepsOwn c calib (runQueue s) := by
  have hqueue := hs.queue
  unfold Machine.runQueue
  split <;> rename_i hmq
  · exact .next hs
  · simp only [hmq, opsAllowed_cons] at hqueue
    obtain ⟨hldt, hstore, -⟩ := hqueue
    split
    · exact (hs.runOp hldt).andThen fun u hu => hu.runOp hstore
    · exact hs.runOp hldt
  · simp only [hmq, opsAllowed_cons] at hqueue
    exact hs.runOp hqueue.1

/-- A fetch queues `HALT` or a command's expansion, or faults (R131). -/
theorem fetchStep : KeepsOwn c calib (fetchStep s) := by
  unfold Machine.fetchStep
  split
  · exact .next (hs.requeue rfl rfl rfl (by simp))
  · split
    · exact .next (hs.raise _)
    · obtain ⟨ops, hexec, hops⟩ := exec_allowed ‹_› s
      rw [hexec]
      exact .next (hs.requeue rfl rfl rfl (hs.cfg ▸ hops))

theorem i2cpStep : OwnRegisters c calib (i2cpStep s) := by
  have hunused := (i2cpStep_effect s).unused.trans hs.unused
  rw [i2cpStep_eq] at hunused ⊢
  exact ⟨hs.cfg, hs.queue, hunused⟩

theorem stkStep : OwnRegisters c calib (stkStep s) := by
  have hunused := (stkStep_unused s).trans hs.unused
  rw [stkStep_eq] at hunused ⊢
  exact ⟨hs.cfg, hs.queue, hunused⟩

theorem seqStep : KeepsOwn c calib (seqStep s) := by
  unfold Machine.seqStep
  split
  · split
    · exact hs.fetchStep
    · exact hs.runQueue
  · exact .next hs
  · exact .next hs

/-- A step of a block that has not faulted has a next state, and keeps the invariant. -/
theorem step (hf : s.hasFaulted = false) : KeepsOwn c calib (step s) := by
  have hturn : OwnRegisters c calib s.takeTurn := hs.requeue rfl rfl rfl hs.queue
  rw [step_eq hf]
  cases nextAgent s with
  | seq => exact hturn.seqStep
  | i2cp => exact .next hturn.i2cpStep
  | stk => exact .next hturn.stkStep

end

/-- A run ends in the stop of a faulted block, or in a state with the invariant. -/
theorem run {c : Config} {calib : Word} (n : Nat) {s : State} (hs : OwnRegisters c calib s) :
    (∃ f, run n s = .fault (.stopped f)) ∨ KeepsOwn c calib (run n s) := by
  induction n generalizing s with
  | zero => exact .inr (.next hs)
  | succ n ih =>
    cases hstatus : s.status with
    | faulted f => exact .inl ⟨f, by rw [Machine.run, step_faulted hstatus]; rfl⟩
    | running | idle =>
      obtain ⟨u, hstep, hu⟩ := hs.step (by simp [State.hasFaulted, hstatus])
      rw [Machine.run, hstep]
      exact ih hu

end OwnRegisters

/-- What `launch` starts from holds an empty queue and the reset values. -/
theorem launch_ownRegisters {c : Config} {d : ResetDraws} {cs : List Word} {str : Memory} {s : State}
    (h : launch c d cs str = .next s) (e : Env) : OwnRegisters c d.calib { s with env := e } := by
  unfold launch at h
  split at h
  · cases h
  · split at h <;> cases h
    exact ⟨rfl, opsAllowed_nil c, rfl⟩

/-- Settles O52: a launch meets `OwnRegisters`, and a run that keeps it can only end in the stop of a
faulted block. -/
theorem admittedRunsUseOnlyTheirRegisters : Obligations.AdmittedRunsUseOnlyTheirRegisters := by
  intro c d cs str e s n h
  obtain ⟨f, hstop⟩ | ⟨t, hrun, ht⟩ := (launch_ownRegisters h e).run n
  · simp [hstop]
  · have hunused := ht.unused
    simp only [State.unused, unusedAtReset, Prod.mk.injEq] at hunused
    simpa [hrun] using hunused

end Sys2Proof.Machine
end

section
/-! A word is its fields: equality of words, field by field, for each format of 30_encoding (R102 to R107). -/

namespace Sys2Proof

theorem field_zero_32 (w : Word) : field w 0 32 = w := BitVec.extractLsb'_eq_self

/-- Two words agree in a field exactly when they agree in its bits. -/
theorem field_eq_field_iff {w v : Word} {lo len : Nat} :
    field w lo len = field v lo len ↔ ∀ i < len, w.getLsbD (lo + i) = v.getLsbD (lo + i) := by
  constructor
  · intro h i hi
    have hbit : (field w lo len).getLsbD i = (field v lo len).getLsbD i := by rw [h]
    simpa only [getLsbD_field, decide_eq_true hi, Bool.true_and] using hbit
  · intro h
    exact field_eq fun i hi => by rw [getLsbD_field, decide_eq_true hi, Bool.true_and, h i hi]

/-- Two words agree in a field exactly when they agree in both parts of it. -/
theorem field_split {w v : Word} {lo : Nat} (m n : Nat) :
    field w lo (m + n) = field v lo (m + n) ↔
      field w lo m = field v lo m ∧ field w (lo + m) n = field v (lo + m) n := by
  simp only [field_eq_field_iff]
  constructor
  · intro h
    exact ⟨fun i hi => h i (by omega), fun i hi => by simpa only [Nat.add_assoc] using h (m + i) (by omega)⟩
  · rintro ⟨hlow, hhigh⟩ i hi
    obtain him | him := Nat.lt_or_ge i m
    · exact hlow i him
    · simpa only [Nat.add_assoc, Nat.add_sub_cancel' him] using hhigh (i - m) (by omega)

/-- The fields of formats FD and FZ (R102, R106) make up the word. -/
theorem eq_iff_fieldsFD {w v : Word} :
    w = v ↔ field w 0 28 = field v 0 28 ∧ field w 28 4 = field v 28 4 := by
  rw [← field_split 28 4, field_zero_32, field_zero_32]

/-- The fields of format FI (R103) make up the word. -/
theorem eq_iff_fieldsFI {w v : Word} :
    w = v ↔ field w 0 8 = field v 0 8 ∧ field w 8 7 = field v 8 7 ∧
      field w 15 13 = field v 15 13 ∧ field w 28 4 = field v 28 4 := by
  rw [← field_split 13 4, ← field_split 7 17, ← field_split 8 24, field_zero_32, field_zero_32]

/-- The fields of format FN (R104) make up the word. -/
theorem eq_iff_fieldsFN {w v : Word} :
    w = v ↔ field w 0 4 = field v 0 4 ∧ field w 4 4 = field v 4 4 ∧ field w 8 1 = field v 8 1 ∧
      field w 9 19 = field v 9 19 ∧ field w 28 4 = field v 28 4 := by
  rw [← field_split 19 4, ← field_split 1 23, ← field_split 4 24, ← field_split 4 28, field_zero_32,
    field_zero_32]

/-- The fields of format FB (R105) make up the word. -/
theorem eq_iff_fieldsFB {w v : Word} :
    w = v ↔ field w 0 8 = field v 0 8 ∧ field w 8 20 = field v 8 20 ∧ field w 28 4 = field v 28 4 := by
  rw [← field_split 20 4, ← field_split 8 24, field_zero_32, field_zero_32]

/-- The fields of format FP (R107) make up the word. -/
theorem eq_iff_fieldsFP {w v : Word} :
    w = v ↔ field w 0 16 = field v 0 16 ∧ field w 16 12 = field v 16 12 ∧
      field w 28 4 = field v 28 4 := by
  rw [← field_split 12 4, ← field_split 16 16, field_zero_32, field_zero_32]

end Sys2Proof
end

section
/-! What a word that decodes to a command holds in its fields, and how `decode` and `encode` agree
(30_encoding R112). -/

namespace Sys2Proof

@[simp] theorem whenReservedZero_eq_command {isZero : Bool} {i j : Instr} :
    whenReservedZero isZero i = .command j ↔ isZero = true ∧ i = j := by
  cases isZero <;> simp [whenReservedZero]

@[simp] theorem exists_whenReservedZero_eq_illegal {isZero : Bool} {i : Instr} :
    (∃ why, whenReservedZero isZero i = .illegal why) ↔ isZero = false := by
  cases isZero <;> simp [whenReservedZero]

/-- `w` holds a command in its format: the opcode, reserved bits 0, each operand in its field (R102 to
R107). -/
def Holds (w : Word) : Instr → Prop
  | .delay ms => field w 28 4 = 0x1 ∧ (field w 0 28).toNat = ms
  | .i2cw addr byte => field w 28 4 = 0x2 ∧ field w 15 13 = 0 ∧ field w 8 7 = addr ∧ field w 0 8 = byte
  | .nyb nyb rs =>
    field w 28 4 = 0x3 ∧ (field w 9 19 = 0 ∧ field w 0 4 = 0) ∧ field w 4 4 = nyb ∧ field w 8 1 = rs
  | .cmd b => field w 28 4 = 0x4 ∧ field w 8 20 = 0 ∧ field w 0 8 = b
  | .data b => field w 28 4 = 0x5 ∧ field w 8 20 = 0 ∧ field w 0 8 = b
  | .initBus => field w 28 4 = 0x6 ∧ field w 0 28 = 0
  | .lcdInit => field w 28 4 = 0x7 ∧ field w 0 28 = 0
  | .clear => field w 28 4 = 0x8 ∧ field w 0 28 = 0
  | .print p => field w 28 4 = 0x9 ∧ field w 16 12 = 0 ∧ (field w 0 16).toNat = p
  | .idle => field w 28 4 = 0xF ∧ field w 0 28 = 0

/-- The decoder reads a command exactly from a word that holds it. -/
theorem decode_eq_command_iff {w : Word} {i : Instr} : decode w = .command i ↔ Holds w i := by
  constructor
  · intro h
    unfold decode at h
    split at h <;> rename_i hop
    case h_1 => cases h; exact ⟨BitVec.eq_of_toNat_eq hop, rfl⟩
    case h_11 => cases h
    all_goals
      obtain ⟨hreserved, rfl⟩ := whenReservedZero_eq_command.mp h
      simpa [Holds, ← BitVec.toNat_inj, hop] using hreserved
  · intro h
    cases i <;> simp only [Holds] at h <;> simp [decode, h]

/-- What a word holds has an encoding. -/
theorem Holds.wf {w : Word} {i : Instr} (h : Holds w i) : i.wf = true := by
  cases i with
  | delay ms => exact decide_eq_true (h.2 ▸ (field w 0 28).isLt)
  | print p => exact decide_eq_true (h.2.2 ▸ (field w 0 16).isLt)
  | _ => rfl

/-- A command stands in one word only: its format leaves no bit open. -/
theorem Holds.unique {w v : Word} {i : Instr} (hw : Holds w i) (hv : Holds v i) : w = v := by
  cases i with
  | delay =>
    obtain ⟨hop, hms⟩ := hw
    obtain ⟨hop', hms'⟩ := hv
    exact eq_iff_fieldsFD.mpr ⟨BitVec.eq_of_toNat_eq (hms.trans hms'.symm), hop.trans hop'.symm⟩
  | i2cw => simp_all only [Holds, eq_iff_fieldsFI, and_self]
  | nyb => simp_all only [Holds, eq_iff_fieldsFN, and_self]
  | cmd | data => simp_all only [Holds, eq_iff_fieldsFB, and_self]
  | initBus | lcdInit | clear | idle => simp_all only [Holds, eq_iff_fieldsFD, and_self]
  | print =>
    obtain ⟨hop, hres, hp⟩ := hw
    obtain ⟨hop', hres', hp'⟩ := hv
    exact eq_iff_fieldsFP.mpr
      ⟨BitVec.eq_of_toNat_eq (hp.trans hp'.symm), hres.trans hres'.symm, hop.trans hop'.symm⟩

/-- R112, from a command to its word and back: the family `RoundTrip` for every command. -/
theorem decode_encode (i : Instr) : Laws.RoundTrip.Statement i := by
  cases i with
  | delay ms => exact Laws.RoundTrip.delay ms
  | i2cw addr byte => exact Laws.RoundTrip.i2cw addr byte
  | nyb nyb rs => exact Laws.RoundTrip.nyb nyb rs
  | cmd b => exact Laws.RoundTrip.cmd b
  | data b => exact Laws.RoundTrip.data b
  | initBus => exact Laws.RoundTrip.initBus
  | lcdInit => exact Laws.RoundTrip.lcdInit
  | clear => exact Laws.RoundTrip.clear
  | print p => exact Laws.RoundTrip.print p
  | idle => exact Laws.RoundTrip.idle

/-- Settles O1: a word that decodes to a command and the command's encoding both hold it, and only one word
does. -/
theorem decodeEncodeRoundTrip : Obligations.DecodeEncodeRoundTrip := by
  refine ⟨decode_encode, fun w i hw => ?_⟩
  have hholds : Holds w i := decode_eq_command_iff.mp hw
  have hencode : Holds (encode i) i := decode_eq_command_iff.mp (decode_encode i hholds.wf)
  exact ⟨hholds.wf, hencode.unique hholds⟩

/-- Settles O4: each word, written out from its format, is decoded by evaluation. -/
theorem sampleWordsDecode : Obligations.SampleWordsDecode := by
  unfold Obligations.SampleWordsDecode
  decide

end Sys2Proof
end

section
/-! Which words are illegal, and the turn that fetches one (30_encoding R110). -/

namespace Sys2Proof

/-- The sixteen opcodes. -/
theorem opcode_cases (op : BitVec 4) :
    op = 0x0 ∨ op = 0x1 ∨ op = 0x2 ∨ op = 0x3 ∨ op = 0x4 ∨ op = 0x5 ∨ op = 0x6 ∨ op = 0x7 ∨ op = 0x8 ∨
      op = 0x9 ∨ op = 0xA ∨ op = 0xB ∨ op = 0xC ∨ op = 0xD ∨ op = 0xE ∨ op = 0xF := by
  revert op; decide

/-- R110's illegal words: a reserved opcode, or a reserved bit of a legal format that is not 0. -/
theorem exists_decode_eq_illegal_iff (w : Word) :
    (∃ why, decode w = .illegal why) ↔
      (field w 28 4 = 0x0 ∨ field w 28 4 = 0xA ∨ field w 28 4 = 0xB ∨ field w 28 4 = 0xC ∨
        field w 28 4 = 0xD ∨ field w 28 4 = 0xE) ∨
      (field w 28 4 = 0x2 ∧ field w 15 13 ≠ 0) ∨
      (field w 28 4 = 0x3 ∧ (field w 9 19 ≠ 0 ∨ field w 0 4 ≠ 0)) ∨
      ((field w 28 4 = 0x4 ∨ field w 28 4 = 0x5) ∧ field w 8 20 ≠ 0) ∨
      ((field w 28 4 = 0x6 ∨ field w 28 4 = 0x7 ∨ field w 28 4 = 0x8 ∨ field w 28 4 = 0xF) ∧
        field w 0 28 ≠ 0) ∨
      (field w 28 4 = 0x9 ∧ field w 16 12 ≠ 0) := by
  rcases opcode_cases (field w 28 4) with
    hop | hop | hop | hop | hop | hop | hop | hop | hop | hop | hop | hop | hop | hop | hop | hop
  all_goals simp [decode, hop, imp_iff_not_or]

end Sys2Proof

namespace Sys2Proof.Machine

/-- R110's fault: nothing of an illegal word is executed, and the step only raises the fault. -/
theorem step_of_illegal {s : State} {w : Word} {why : IllegalWord} (h : AtFetch s) (hw : s.cs[s.cp]? = some w)
    (hillegal : decode w = .illegal why) :
    step s = .next (s.takeTurn.raise (.illegalCommand s.cp w)) := by
  simp [step_of_atFetch h, fetchStep, fetchWord, hw, hillegal]

/-- Settles O3: the illegal words as R110 lists them, and the turn that fetches one. -/
theorem illegalWordsFaultAtFetch : Obligations.IllegalWordsFaultAtFetch :=
  ⟨exists_decode_eq_illegal_iff, fun _ _ _ h hw hillegal => step_of_illegal h hw hillegal,
    .reservedOpcode, rfl⟩

end Sys2Proof.Machine
end

section
/-! The opcode map (30_encoding R109): a row's match and mask, field by field. -/

namespace Sys2Proof

/-! ### Masks -/

/-- A field that a mask keeps. -/
theorem field_and_of_ones {w m : Word} {lo len : Nat} (h : field m lo len = BitVec.allOnes len) :
    field (w &&& m) lo len = field w lo len := by
  rw [field, BitVec.extractLsb'_and, ← field, ← field, h, BitVec.and_allOnes]

/-- A field that a mask clears. -/
theorem field_and_of_zero {w m : Word} {lo len : Nat} (h : field m lo len = 0) :
    field (w &&& m) lo len = 0 := by
  rw [field, BitVec.extractLsb'_and, ← field, ← field, h]; exact BitVec.and_zero

/-- Format FD's mask: the opcode. -/
theorem and_maskFD_eq_iff {w v : Word} : w &&& 0xF000_0000 = v ↔
    0 = field v 0 28 ∧ field w 28 4 = field v 28 4 := by
  rw [eq_iff_fieldsFD]
  simp (disch := decide) only [field_and_of_ones, field_and_of_zero]

/-- Format FI's mask: the opcode and bits 27:15. -/
theorem and_maskFI_eq_iff {w v : Word} : w &&& 0xFFFF_8000 = v ↔
    0 = field v 0 8 ∧ 0 = field v 8 7 ∧ field w 15 13 = field v 15 13 ∧ field w 28 4 = field v 28 4 := by
  rw [eq_iff_fieldsFI]
  simp (disch := decide) only [field_and_of_ones, field_and_of_zero]

/-- Format FN's mask: the opcode, bits 27:9 and bits 3:0. -/
theorem and_maskFN_eq_iff {w v : Word} : w &&& 0xFFFF_FE0F = v ↔
    field w 0 4 = field v 0 4 ∧ 0 = field v 4 4 ∧ 0 = field v 8 1 ∧ field w 9 19 = field v 9 19 ∧
      field w 28 4 = field v 28 4 := by
  rw [eq_iff_fieldsFN]
  simp (disch := decide) only [field_and_of_ones, field_and_of_zero]

/-- Format FB's mask: the opcode and bits 27:8. -/
theorem and_maskFB_eq_iff {w v : Word} : w &&& 0xFFFF_FF00 = v ↔
    0 = field v 0 8 ∧ field w 8 20 = field v 8 20 ∧ field w 28 4 = field v 28 4 := by
  rw [eq_iff_fieldsFB]
  simp (disch := decide) only [field_and_of_ones, field_and_of_zero]

/-- Format FZ's mask: the opcode and bits 27:0. -/
theorem and_maskFZ_eq_iff {w v : Word} : w &&& 0xFFFF_FFFF = v ↔
    field w 0 28 = field v 0 28 ∧ field w 28 4 = field v 28 4 := by
  rw [eq_iff_fieldsFD]
  simp (disch := decide) only [field_and_of_ones]

/-- Format FP's mask: the opcode and bits 27:16. -/
theorem and_maskFP_eq_iff {w v : Word} : w &&& 0xFFFF_0000 = v ↔
    0 = field v 0 16 ∧ field w 16 12 = field v 16 12 ∧ field w 28 4 = field v 28 4 := by
  rw [eq_iff_fieldsFP]
  simp (disch := decide) only [field_and_of_ones, field_and_of_zero]

/-! ### Rows -/

/-- A mnemonic names one row. -/
theorem row_eq_of_mnemonic_eq :
    ∀ r ∈ opcodeTable, ∀ q ∈ opcodeTable, r.mnemonic = q.mnemonic → r = q := by
  decide

/-- Every command has its row. -/
theorem exists_row (i : Instr) : ∃ r ∈ opcodeTable, r.mnemonic = i.mnemonic := by
  cases i <;> simp [opcodeTable, Instr.mnemonic]

/-- A claim about some command, constructor by constructor. -/
theorem exists_instr_iff {P : Instr → Prop} :
    (∃ i, P i) ↔ (∃ ms, P (.delay ms)) ∨ (∃ addr byte, P (.i2cw addr byte)) ∨ (∃ nyb rs, P (.nyb nyb rs)) ∨
      (∃ b, P (.cmd b)) ∨ (∃ b, P (.data b)) ∨ P .initBus ∨ P .lcdInit ∨ P .clear ∨ (∃ p, P (.print p)) ∨
      P .idle := by
  constructor
  · rintro ⟨i, hi⟩
    cases i <;> grind
  · rintro (⟨_, h⟩ | ⟨_, _, h⟩ | ⟨_, _, h⟩ | ⟨_, h⟩ | ⟨_, h⟩ | h | h | h | ⟨_, h⟩ | h) <;> exact ⟨_, h⟩

/-- R109, row by row: `(W & mask) = match` says what the row's format fixes, the opcode and the
reserved bits. -/
theorem selected_iff {w : Word} {r : OpcodeRow} (hr : r ∈ opcodeTable) :
    w &&& r.mask = r.matchWord ↔ ∃ i, Holds w i ∧ i.mnemonic = r.mnemonic := by
  simp only [opcodeTable, List.mem_cons, List.not_mem_nil, or_false] at hr
  rcases hr with rfl | rfl | rfl | rfl | rfl | rfl | rfl | rfl | rfl | rfl
  all_goals
    simp only [and_maskFD_eq_iff, and_maskFI_eq_iff, and_maskFN_eq_iff, and_maskFB_eq_iff, and_maskFZ_eq_iff,
      and_maskFP_eq_iff, exists_instr_iff, Holds, Instr.mnemonic]
    simp [field, and_comm, and_assoc]

/-- R109 for the decoder: the row of a mnemonic selects the words that decode to its commands. -/
theorem selected_iff_decode {w : Word} {r : OpcodeRow} (hr : r ∈ opcodeTable) :
    w &&& r.mask = r.matchWord ↔ ∃ i, decode w = .command i ∧ i.mnemonic = r.mnemonic := by
  simp only [decode_eq_command_iff, selected_iff hr]

/-- Settles O2: rows that select one word have the mnemonic of the command it decodes to, and a command's own
row selects its word. -/
theorem decodeMatchesOpcodeTable : Obligations.DecodeMatchesOpcodeTable := by
  refine ⟨fun w r hr => selected_iff_decode hr, fun w r hr q hq hrw hqw => ?_, fun w => ⟨fun hnone => ?_, ?_⟩⟩
  · obtain ⟨i, hi, hir⟩ := (selected_iff_decode hr).mp hrw
    obtain ⟨j, hj, hjq⟩ := (selected_iff_decode hq).mp hqw
    cases hi.symm.trans hj
    exact row_eq_of_mnemonic_eq r hr q hq (hir.symm.trans hjq)
  · cases hw : decode w with
    | illegal why => exact ⟨why, rfl⟩
    | command i =>
      obtain ⟨r, hr, hir⟩ := exists_row i
      exact absurd ((selected_iff_decode hr).mpr ⟨i, hw, hir.symm⟩) (hnone r hr)
  · rintro ⟨why, hwhy⟩ r hr hselected
    obtain ⟨i, hi, -⟩ := (selected_iff_decode hr).mp hselected
    cases hwhy.symm.trans hi

end Sys2Proof
end

section
/-! The bytes the block puts on the bus (30_encoding R113, R114; 44_nybble R270). -/

namespace Sys2Proof.Machine

theorem addrByte_address (a : BitVec 7) : (addrByte a).extractLsb' 1 7 = a := by
  apply BitVec.eq_of_getLsbD_eq
  intro i hi
  interval_cases i <;> simp [addrByte]

theorem pack_nybble (d : BitVec 4) (en rs : BitVec 1) : (pack d en rs).extractLsb' 4 4 = d := by
  apply BitVec.eq_of_getLsbD_eq
  intro i hi
  interval_cases i <;> simp [pack]

theorem pack_enable (d : BitVec 4) (en rs : BitVec 1) : (pack d en rs).extractLsb' 2 1 = en := by
  apply BitVec.eq_of_getLsbD_eq
  intro i hi
  interval_cases i
  simp [pack]

theorem pack_registerSelect (d : BitVec 4) (en rs : BitVec 1) : (pack d en rs).extractLsb' 0 1 = rs := by
  apply BitVec.eq_of_getLsbD_eq
  intro i hi
  interval_cases i
  simp [pack]

/-- Settles O58: every bit of the two bytes is a bit of one operand, or fixed. -/
theorem busBytesBitForBit : Obligations.BusBytesBitForBit := by
  refine ⟨fun a => ⟨addrByte_address a, ?readWriteBit⟩, rfl, fun d en rs =>
    ⟨pack_nybble d en rs, ?backlight, pack_enable d en rs, ?readWrite, pack_registerSelect d en rs⟩⟩
  case readWriteBit => simp [addrByte]
  case backlight => simp [pack]
  case readWrite => simp [pack]

end Sys2Proof.Machine
end

section
/-! The assembler's lines (30_encoding R117, R118), and what is read after bytes are placed. -/

namespace Sys2Proof.Machine

/-- Reading back after a load: the loaded bytes at their addresses, every other byte as before. -/
theorem Memory.read_load (bs : List Byte) (m : Memory) (p q : Nat) (hw : Memory.wf m = true) :
    (m.load p bs).read q = if q < p ∨ p + bs.length ≤ q then m.read q else bs.getD (q - p) 0x00 := by
  induction bs generalizing m p with
  | nil => rw [Memory.load, if_pos (by simpa using Nat.lt_or_ge q p)]
  | cons b bs ih =>
    have hrest := ih (m.write p b) (p + 1) (Memory.wf_write m p b hw)
    rw [Memory.read_write m p q b hw] at hrest
    rw [Memory.load, hrest, List.length_cons]
    obtain hlt | rfl | hgt := Nat.lt_trichotomy q p
    case inl => rw [if_pos (by omega), if_neg (by omega), if_pos (by omega)]
    case inr.inl => simp
    case inr.inr =>
      have hpos : q - p = (q - (p + 1)) + 1 := by omega
      rw [if_neg (show q ≠ p by omega), hpos, List.getD_cons_succ]
      exact if_congr (by omega) rfl rfl

/-- A list reads 0 past its end, so a 0x00 after it changes no reading. -/
theorem getD_append_zero (text : List Byte) (n : Nat) : (text ++ [0x00]).getD n 0x00 = text.getD n 0x00 := by
  obtain hlt | hge := Nat.lt_or_ge n text.length
  · exact List.getD_append _ _ _ _ hlt
  · rw [List.getD_append_right _ _ _ _ hge, List.getD_eq_default text _ hge]
    cases n - text.length <;> rfl

/-- An accepted line emits well-formed commands: the bound it checks is that of `Instr.wf`. -/
theorem wf_of_mem_commands {l : AsmLine} {is : List Instr} (h : l.commands = some is) :
    ∀ i ∈ is, i.wf = true := by
  cases l with
  | blank | str => cases h; exact List.forall_mem_nil _
  | initBus | lcdInit | clear | idle => cases h; exact List.forall_mem_singleton.mpr rfl
  | delay | i2cw | nyb | cmd | data | print | putc | boot =>
    simp only [AsmLine.commands, Option.ite_none_right_eq_some, Option.some.injEq] at h
    obtain ⟨hbound, rfl⟩ := h
    simp_all [Instr.wf]

/-- NYB's constraint as R117 words it: the nybble is the value's high one, and RS is a bit. -/
theorem nyb_commands (v r : Nat) :
    (AsmLine.nyb v r).commands =
      if v < 0x100 ∧ v % 16 = 0 ∧ (r = 0 ∨ r = 1) then
        some [.nyb (BitVec.ofNat 4 (v >>> 4)) (BitVec.ofNat 1 r)]
      else none := by
  rw [AsmLine.commands, Nat.shiftRight_eq_div_pow]
  exact if_congr (by omega) rfl rfl

/-- R117: an error on any line emits nothing. -/
theorem assembleLines_eq_none (size : Nat) (ls : List AsmLine) (img : Image)
    (h : ∃ l ∈ ls, l.commands = none) : assembleLines size ls img = none := by
  induction ls generalizing img with
  | nil => simp at h
  | cons l rest ih =>
    simp only [List.mem_cons, exists_eq_or_imp] at h
    obtain hnone | hrest := h
    · simp [assembleLines, hnone]
    · unfold assembleLines
      split
      · exact ih _ hrest
      · rfl

/-- A `.str` that fits places its bytes and a 0x00, and no command. -/
theorem assembleLines_str {size p : Nat} {text : List Byte} (img : Image) (h : p + text.length < size) :
    assembleLines size [.str p text] img =
      some { cs := img.cs, str := img.str.load p (text ++ [0x00]) } := by
  simp [assembleLines, AsmLine.commands, AsmLine.strings, h]

/-- R118's `.str`, read back byte by byte. -/
theorem assembleLines_str_reads (size : Nat) (img : Image) (p : Nat) (text : List Byte)
    (h : p + text.length < size) (hw : Memory.wf img.str = true) :
    ∃ out, assembleLines size [.str p text] img = some out ∧ out.cs = img.cs ∧
      Memory.wf out.str = true ∧
      ∀ q, out.str.read q = if q < p ∨ p + text.length < q then img.str.read q
        else text.getD (q - p) 0x00 := by
  refine ⟨_, assembleLines_str img h, rfl, Memory.wf_load _ _ _ hw, fun q => ?_⟩
  rw [Memory.read_load _ _ _ _ hw, getD_append_zero, List.length_append, List.length_singleton]
  exact if_congr (by omega) rfl rfl

/-- Settles O59: every line but NYB is as R117 and R118 word it by definition. -/
theorem assemblerLines : Obligations.AssemblerLines :=
  ⟨fun _ _ h => wf_of_mem_commands h, fun _ => rfl, fun _ _ => rfl, nyb_commands, fun _ => rfl, fun _ => rfl,
    fun _ => rfl, ⟨rfl, rfl, rfl, rfl⟩, fun _ => rfl, fun _ => rfl, assembleLines_eq_none,
    assembleLines_str_reads⟩

end Sys2Proof.Machine
end

section
/-! The pairing of loads and stores in every expansion (40_microops R143). -/

namespace Sys2Proof.Machine

/-- What stands after a paired queue is checked on its own: a paired queue ends in no `LDT`. -/
@[simp] theorem rmwPaired_append {xs ys : List MicroOp} (hx : rmwPaired xs = true) :
    rmwPaired (xs ++ ys) = rmwPaired ys := by
  fun_induction rmwPaired xs with
  | case1 a op rest ih =>
    obtain ⟨hstores, hrest⟩ := Bool.and_eq_true_iff.mp hx
    simp [rmwPaired, hstores, ih hrest]
  | case2 | case3 | case4 | case5 => cases hx
  | case6 op rest hldt hlast hstor hstandn hstfld ih =>
    cases op with
    | ldt a => cases rest with
      | nil => exact (hlast a rfl rfl).elim
      | cons st tl => exact (hldt a st tl rfl rfl).elim
    | stor a m => exact (hstor a m rfl).elim
    | standn a m => exact (hstandn a m rfl).elim
    | stfld a m v => exact (hstfld a m v rfl).elim
    | rd | wr | poll | tickwait | strch | halt => exact ih hx
  | case7 => rfl

section ReadModifyWrites
variable (a m v : Word)

@[simp] theorem rmwPaired_opSet : rmwPaired (opSet a m) = true := by simp [opSet, rmwPaired, MicroOp.storesTo]
@[simp] theorem rmwPaired_opClr : rmwPaired (opClr a m) = true := by simp [opClr, rmwPaired, MicroOp.storesTo]
@[simp] theorem rmwPaired_opFld : rmwPaired (opFld a m v) = true := by simp [opFld, rmwPaired, MicroOp.storesTo]

end ReadModifyWrites

section Expansions
variable (c : Config)

@[simp] theorem rmwPaired_resetOps : rmwPaired (resetOps c) = true := by
  unfold resetOps
  split
  · simp
  · simp

@[simp] theorem rmwPaired_initbusOps : rmwPaired (initbusOps c) = true := by
  simp [initbusOps, afrOps]

/-- A delay stores with `WR` alone, whether it clears VAL or not, waits or not. -/
@[simp] theorem rmwPaired_delayOps (n : Nat) : rmwPaired (delayOps c n) = true := by
  cases n <;> cases hval : c.armClearsVal <;> simp [delayOps, hval, rmwPaired]

@[simp] theorem rmwPaired_i2cwOps (a : BitVec 7) (b : Byte) : rmwPaired (i2cwOps c a b) = true := by
  simp [i2cwOps, rmwPaired]

@[simp] theorem rmwPaired_nybOps (d : BitVec 4) (r : BitVec 1) : rmwPaired (nybOps c d r) = true := by
  simp [nybOps]

@[simp] theorem rmwPaired_byteOps (b : Byte) (r : BitVec 1) : rmwPaired (byteOps c b r) = true := by
  simp [byteOps]

@[simp] theorem rmwPaired_lcdinitOps : rmwPaired (lcdinitOps c) = true := by
  simp [lcdinitOps, wakeOps, resetNybOps, configureOps, cmdOps]

@[simp] theorem rmwPaired_clearOps : rmwPaired (clearOps c) = true := by
  simp [clearOps, cmdOps]

end Expansions

/-- Settles O12: the queue `exec` leaves is the command's expansion, which is paired. -/
theorem everyStoreFollowsItsLoad : Obligations.EveryStoreFollowsItsLoad := by
  intro i s t h
  cases i with
  | delay ms => cases h; exact rmwPaired_delayOps s.cfg ms
  | i2cw a b => cases h; exact rmwPaired_i2cwOps s.cfg a b
  | nyb d r => cases h; exact rmwPaired_nybOps s.cfg d r
  | cmd b | data b => cases h; exact rmwPaired_byteOps s.cfg b _
  | initBus => cases h; exact rmwPaired_initbusOps s.cfg
  | lcdInit => cases h; exact rmwPaired_lcdinitOps s.cfg
  | clear => cases h; exact rmwPaired_clearOps s.cfg
  | print | idle => cases h; rfl

end Sys2Proof.Machine
end

section
/-! A turn of the sequencer as an equation: the fetch, and each micro-operation at the head of the queue
(40_microops R131 to R142). -/

namespace Sys2Proof.Machine

/-- Settles O5: the turn is the fetch, and the fetched word decodes to the command. -/
theorem stepRunsTheFetchedCommand : Obligations.StepRunsTheFetchedCommand := by
  intro s w i hfetch hw hi
  have hword : fetchWord s.takeTurn = some w := hw
  simp [step_of_atFetch hfetch, fetchStep, hword, hi]

/-! ### Which micro-operation a turn runs -/

theorem AtHead.mq {s : State} {op : MicroOp} {rest : List MicroOp} (h : AtHead s op rest) :
    s.mq = op :: rest := h.2.2

/-- The popped queue at a turn with its head named. -/
theorem AtHead.pop_takeTurn {s : State} {op : MicroOp} {rest : List MicroOp} (h : AtHead s op rest) :
    s.takeTurn.pop = { s.takeTurn with mq := rest } := by
  rw [State.pop, takeTurn_mq, h.mq]; rfl

/-- A turn on a nonempty queue runs the queue. -/
theorem step_of_atHead {s : State} {op : MicroOp} {rest : List MicroOp} (h : AtHead s op rest) :
    step s = runQueue s.takeTurn := by
  obtain ⟨hrun, hseq, hq⟩ := h
  have hf : s.hasFaulted = false := by simp [State.hasFaulted, hrun]
  simp [step_eq hf, agentStep, seqStep, hseq, hrun, hq]

/-- A queue whose head is no fused `LDT` runs its head (R131). -/
theorem runQueue_of_not_fused {s : State} {op : MicroOp} {rest : List MicroOp} (hq : s.mq = op :: rest)
    (hfuses : ∀ a, op = .ldt a → fusesWith s a rest = false) : runQueue s = runOp op s := by
  unfold runQueue
  rw [hq]
  cases op with
  | ldt a =>
    cases rest with
    | nil => rfl
    | cons st tl =>
      have hno : (s.cfg.rmwAtomic && st.storesTo a) = false := hfuses a rfl
      simp [hno, runOp]
  | rd | wr | stor | standn | stfld | poll | tickwait | strch | halt => rfl

/-- A fused `LDT` runs with the store after it (R142). -/
theorem runQueue_of_fused {s : State} {a : Word} {st : MicroOp} {rest : List MicroOp}
    (hq : s.mq = .ldt a :: st :: rest) (hatomic : s.cfg.rmwAtomic = true) (hst : st.storesTo a = true) :
    runQueue s = andThen (runLdt a s) (runOp st) := by
  simp [runQueue, hq, hatomic, hst]

/-- A turn whose head is no fused `LDT` is the head's micro-operation. -/
theorem step_eq_runOp {s : State} {op : MicroOp} {rest : List MicroOp} (h : AtHead s op rest)
    (hfuses : ∀ a, op = .ldt a → fusesWith s a rest = false) : step s = runOp op s.takeTurn := by
  rw [step_of_atHead h, runQueue_of_not_fused (s := s.takeTurn) h.mq hfuses]

/-! ### Reads -/

theorem runRd_regAddr (s : State) (r : Reg) :
    runRd (regAddr s.cfg r) s = .next (readTo s r (regAddr s.cfg r)).pop := by
  rw [runRd, memRead_regAddr]; rfl

theorem runLdt_regAddr (s : State) (r : Reg) :
    runLdt (regAddr s.cfg r) s = .next (loaded s r (regAddr s.cfg r)) := by
  rw [runLdt, memRead_regAddr]; rfl

theorem runPoll_regAddr (s : State) (r : Reg) (m : Word) :
    runPoll (regAddr s.cfg r) m s = .next (if readValue r s &&& m = m then
      (readTo s r (regAddr s.cfg r)).pop else readTo s r (regAddr s.cfg r)) := by
  rw [runPoll, memRead_regAddr]; rfl

/-- A turn's read: its side effect and its `Rd` event. -/
theorem readTo_takeTurn (s : State) (r : Reg) (a : Word) :
    readTo s.takeTurn r a = { readEffect r s.takeTurn with
      hist := s.hist ++ [.rd a (readValue r s)] } := by
  rw [readTo, readValue_takeTurn, State.emit, readEffect_hist]; rfl

/-- A turn's read and its pop. -/
theorem AtHead.pop_readTo_takeTurn {s : State} {op : MicroOp} {rest : List MicroOp} (h : AtHead s op rest)
    (r : Reg) (a : Word) :
    (readTo s.takeTurn r a).pop = { readEffect r s.takeTurn with
      mq := rest
      hist := s.hist ++ [.rd a (readValue r s)] } := by
  rw [readTo_takeTurn, State.pop, readEffect_mq, takeTurn_mq, h.mq]; rfl

/-- What a turn's `LDT` leaves. -/
theorem AtHead.loaded_takeTurn {s : State} {op : MicroOp} {rest : List MicroOp} (h : AtHead s op rest)
    (r : Reg) (a : Word) :
    loaded s.takeTurn r a = { readEffect r s.takeTurn with
      mq := rest
      tmp := readValue r s
      hist := s.hist ++ [.rd a (readValue r s)] } := by
  rw [loaded, h.pop_readTo_takeTurn, readValue_takeTurn]

theorem step_of_rd {s : State} {r : Reg} {rest : List MicroOp} (h : AtHead s (.rd (regAddr s.cfg r)) rest) :
    step s = .next { readEffect r s.takeTurn with
      mq := rest
      hist := s.hist ++ [.rd (regAddr s.cfg r) (readValue r s)] } := by
  rw [step_eq_runOp h nofun, ← h.pop_readTo_takeTurn]
  exact runRd_regAddr s.takeTurn r

theorem step_of_ldt {s : State} {r : Reg} {rest : List MicroOp} (h : AtHead s (.ldt (regAddr s.cfg r)) rest)
    (hfuses : fusesWith s (regAddr s.cfg r) rest = false) :
    step s = .next { readEffect r s.takeTurn with
      mq := rest
      tmp := readValue r s
      hist := s.hist ++ [.rd (regAddr s.cfg r) (readValue r s)] } := by
  rw [step_eq_runOp h (by rintro a ⟨⟩; exact hfuses), ← h.loaded_takeTurn]
  exact runLdt_regAddr s.takeTurn r

/-- Settles O13: `RD` and `LDT` are one read each, and then the pop. -/
theorem readMicroOpsRun : Obligations.ReadMicroOpsRun := fun _ _ _ => ⟨step_of_rd, step_of_ldt⟩

/-- Settles O15: both branches are the one read, with or without the pop. -/
theorem pollPopsOrStays : Obligations.PollPopsOrStays := by
  intro s r m rest h
  have hrun : runPoll (regAddr s.cfg r) m s.takeTurn = _ := runPoll_regAddr s.takeTurn r m
  rw [step_eq_runOp h nofun, runOp, hrun, readValue_takeTurn, takeTurn_cfg, h.pop_readTo_takeTurn]
  split
  · rfl
  · rw [readTo_takeTurn, ← takeTurn_mq s, ← readEffect_mq r]

/-- Settles O16: the read's value is COUNTFLAG's, and the read clears it. -/
theorem tickwaitCountsTheFlag : Obligations.TickwaitCountsTheFlag := by
  intro s k rest h
  rw [step_eq_runOp h nofun, runOp, runTickwait_eq, h.pop_readTo_takeTurn, readTo_takeTurn, takeTurn_stk,
    takeTurn_mq, h.mq]
  split
  · split <;> rfl
  · rw [← h.mq]; rfl

/-! ### Stores -/

theorem memWrite_of_done {s u : State} {r : Reg} {v : Word} (h : writeReg r v s = .done u) :
    memWrite (regAddr s.cfg r) v s = .next (u.emit (.wr (regAddr s.cfg r) v)) := by
  simp [memWrite, h]

theorem memWrite_of_raises {s : State} {r : Reg} {v : Word} {f : BlockFault}
    (h : writeReg r v s = .raises f) : memWrite (regAddr s.cfg r) v s = .next (s.raise f) := by
  simp [memWrite, h]

/-- Settles O14: each store is one write of its value after the pop, done and recorded, or its fault. -/
theorem storeMicroOpsRun : Obligations.StoreMicroOpsRun := by
  intro s r rest op v a h hop
  have hstep : step s = memWrite a v { s.takeTurn with mq := rest } := by
    rw [← h.pop_takeTurn]
    obtain rfl | ⟨m, rfl, rfl⟩ | ⟨m, rfl, rfl⟩ | ⟨m, x, rfl, rfl⟩ := hop
    all_goals exact step_eq_runOp h nofun
  exact ⟨fun u hdone => hstep.trans (memWrite_of_done hdone),
    fun f hraises => hstep.trans (memWrite_of_raises hraises)⟩

/-! ### `STRCH` and `HALT` -/

theorem runStrch_of_overrun {s : State} {p : Nat} (hover : s.cfg.strmemSize ≤ p) :
    runStrch p s = .next (s.raise (.stringOverrun (currentCommand s) p)) := if_pos hover

theorem runStrch_of_end {s : State} {p : Nat} (hin : p < s.cfg.strmemSize) (hend : s.str.read p = 0) :
    runStrch p s = .next (s.emit (.str p 0)).pop := by
  simp [runStrch, Nat.not_le.mpr hin, hend]

theorem runStrch_of_char {s : State} {p : Nat} (hin : p < s.cfg.strmemSize) (hchar : s.str.read p ≠ 0) :
    runStrch p s = .next { s.emit (.str p (s.str.read p)) with
      mq := charOps s.cfg (s.str.read p) ++ [.strch (p + 1)] ++ s.mq.tail } := by
  have hbyte : ¬ s.str.read p = 0x00 := hchar
  simp only [runStrch, ge_iff_le, Nat.not_le.mpr hin, hbyte, if_false]

/-- Settles O17: the three branches of `STRCH`. -/
theorem strchFetchesTheCharacter : Obligations.StrchFetchesTheCharacter := by
  intro s p rest h
  rw [step_eq_runOp h nofun, runOp]
  refine ⟨fun hover => ?overrun, fun hin hend => ?endOfString, fun hin hchar => ?character⟩
  case overrun => exact runStrch_of_overrun (s := s.takeTurn) hover
  case endOfString =>
    rw [runStrch_of_end (s := s.takeTurn) hin hend, State.pop, emit_mq, takeTurn_mq, h.mq]
    rfl
  case character =>
    rw [runStrch_of_char (s := s.takeTurn) hin hchar, takeTurn_mq, h.mq]
    rfl

/-- Settles O18: `HALT` only sets the status, and an idle sequencer has no step. -/
theorem haltEntersIdle : Obligations.HaltEntersIdle := by
  refine ⟨fun s rest h => step_eq_runOp h nofun, fun s hidle hseq => ?_⟩
  have hf : s.hasFaulted = false := by simp [State.hasFaulted, hidle]
  simp [step_eq hf, agentStep, seqStep, hseq, hidle]

/-! ### Fused read-modify-writes -/

/-- A turn at a fused `LDT` is the store run on what the `LDT` leaves (R142). -/
theorem step_of_fused {s : State} {r : Reg} {st : MicroOp} {rest : List MicroOp}
    (h : AtHead s (.ldt (regAddr s.cfg r)) (st :: rest)) (hatomic : s.cfg.rmwAtomic = true)
    (hst : st.storesTo (regAddr s.cfg r) = true) :
    step s = runOp st { readEffect r s.takeTurn with
      mq := st :: rest
      tmp := readValue r s
      hist := s.hist ++ [.rd (regAddr s.cfg r) (readValue r s)] } := by
  have hldt : runLdt (regAddr s.cfg r) s.takeTurn = _ := runLdt_regAddr s.takeTurn r
  rw [step_of_atHead h, runQueue_of_fused (s := s.takeTurn) h.mq hatomic hst, hldt, takeTurn_cfg,
    h.loaded_takeTurn, andThen_next]

/-- Settles O19: fused, the store writes from the `TMP` the `LDT` leaves; unfused, the `LDT` is O13's. -/
theorem rmwAtomicFusesThePair : Obligations.RmwAtomicFusesThePair := by
  intro s r rest op m x a v loaded h
  refine ⟨fun hatomic => ⟨?stor, ?standn, ?stfld⟩, fun hsplit => ?unfused⟩
  case unfused => exact step_of_ldt h (by simp [fusesWith, hsplit])
  all_goals
    rintro rfl
    exact step_of_fused h hatomic (beq_self_eq_true a)

end Sys2Proof.Machine
end

section
/-! The counter's registers (10_state R36 to R38, 41_timer R165 to R168) and the micro-operations of
DELAY (R160). -/

namespace Sys2Proof.Machine

theorem ctrlView_getLsbD (k : Stk) (i : Nat) :
    (ctrlView k).getLsbD i =
      ((i == 0 && k.enable) || (i == 1 && k.tickint) || (i == 2 && k.clksource)
        || (i == 16 && k.countflag)) := by
  simp [ctrlView, flagBit_getLsbD, beq_eq_decide, Bool.and_comm]

/-- Settles O20: each access is the register found at its address, and one event. -/
theorem counterRegisterAccesses : Obligations.CounterRegisterAccesses := by
  intro s v
  have write_ctrl := memWrite_of_done (s := s) (r := .stkCtrl) (v := v) rfl
  refine ⟨memRead_regAddr .stkCtrl s, fun i _ => ctrlView_getLsbD s.stk i, write_ctrl,
    fun t ht hoff => ?stopped, memWrite_of_done (r := .stkLoad) rfl, memWrite_of_done (r := .stkVal) rfl,
    memRead_regAddr .stkLoad s, memRead_regAddr .stkVal s⟩
  cases write_ctrl.symm.trans ht
  exact stkStep_disabled hoff

/-- Settles O7: the command starts with `delayOps`, whose wait is left out at 0. -/
theorem delayStarts : Obligations.DelayStarts := by
  intro ms s
  have hwait : (if ms > 0 then [MicroOp.tickwait ms] else []) = if ms = 0 then [] else [.tickwait ms] := by
    cases ms <;> rfl
  change execDelay ms s = _
  rw [execDelay, delayOps, hwait]
  rfl

end Sys2Proof.Machine
end

section
/-! A turn of the counter: what it changes, and how far the next underflow is (41_timer R164). -/

namespace Sys2Proof.Machine

/-! ### One turn -/

theorem stkStep_of_val_zero {s : State} (hen : s.stk.enable = true) (hval : s.stk.val = 0) :
    stkStep s = { s with ticks := s.ticks + 1, stk := { s.stk with val := s.stk.load } } := by
  simp [stkStep, countStep, hen, hval]

theorem stkStep_of_val_one {s : State} (hen : s.stk.enable = true) (hval : s.stk.val = 1) :
    stkStep s = { s with
      ticks := s.ticks + 1
      stk := { s.stk with val := 0, countflag := true }
      hist := s.hist ++ [.underflow] } := by
  have hne : (1 : BitVec 24) ≠ 0 := by decide
  simp only [stkStep, countStep, hen, hval, hne, sub_self, if_true, if_false]
  rfl

theorem stkStep_of_val_other {s : State} (hen : s.stk.enable = true) (h0 : s.stk.val ≠ 0)
    (h1 : s.stk.val ≠ 1) :
    stkStep s = { s with ticks := s.ticks + 1, stk := { s.stk with val := s.stk.val - 1 } } := by
  have hne : s.stk.val - 1 ≠ 0 := sub_ne_zero.mpr h1
  simp only [stkStep, countStep, hen, h0, hne, if_true, if_false]

theorem stkStep_ticks {s : State} (hen : s.stk.enable = true) : (stkStep s).ticks = s.ticks + 1 := by
  by_cases h0 : s.stk.val = 0
  · rw [stkStep_of_val_zero hen h0]
  by_cases h1 : s.stk.val = 1
  · rw [stkStep_of_val_one hen h1]
  · rw [stkStep_of_val_other hen h0 h1]

/-! ### Underflows -/

/-- The underflows in the history (R57). -/
def State.underflows (s : State) : Nat := s.hist.count .underflow

theorem underflows_append_underflow {s t : State} (h : t.hist = s.hist ++ [.underflow]) :
    t.underflows = s.underflows + 1 := by
  simp [State.underflows, h]

theorem underflows_append_of_ne {s t : State} {e : Event} (h : t.hist = s.hist ++ [e]) (he : e ≠ .underflow) :
    t.underflows = s.underflows := by
  simp [State.underflows, h, he]

/-- The counter steps up to and including the next underflow, for a reload of at least 1. -/
def Stk.toUnderflow (k : Stk) : Nat := if k.val = 0 then k.load.toNat + 1 else k.val.toNat

theorem toUnderflow_of_val_zero {k : Stk} (h : k.val = 0) : k.toUnderflow = k.load.toNat + 1 := if_pos h

theorem toUnderflow_of_val_ne_zero {k : Stk} (h : k.val ≠ 0) : k.toUnderflow = k.val.toNat := if_neg h

theorem toUnderflow_pos (k : Stk) : 1 ≤ k.toUnderflow := by
  unfold Stk.toUnderflow
  split
  · omega
  · bv_omega

/-- A turn of an enabled counter is the underflow, which sets COUNTFLAG, or is one step nearer to it. -/
theorem stkStep_cases {s : State} (hen : s.stk.enable = true) (hload : 1 ≤ s.stk.load.toNat) :
    ((stkStep s).underflows = s.underflows + 1 ∧ (stkStep s).stk.countflag = true ∧
      s.stk.toUnderflow = 1 ∧ (stkStep s).stk.toUnderflow = s.stk.load.toNat + 1) ∨
    ((stkStep s).underflows = s.underflows ∧ (stkStep s).stk.countflag = s.stk.countflag ∧
      s.stk.toUnderflow = (stkStep s).stk.toUnderflow + 1) := by
  by_cases h0 : s.stk.val = 0
  · have hne : s.stk.load ≠ 0 := by bv_omega
    rw [stkStep_of_val_zero hen h0, toUnderflow_of_val_zero h0]
    rw [toUnderflow_of_val_ne_zero hne]
    exact .inr ⟨rfl, rfl, rfl⟩
  by_cases h1 : s.stk.val = 1
  · rw [stkStep_of_val_one hen h1, toUnderflow_of_val_ne_zero h0, h1]
    exact .inl ⟨underflows_append_underflow (s := s) rfl, rfl, rfl, toUnderflow_of_val_zero rfl⟩
  · have hne : s.stk.val - 1 ≠ 0 := sub_ne_zero.mpr h1
    have hsub : s.stk.val.toNat = (s.stk.val - 1).toNat + 1 := by bv_omega
    rw [stkStep_of_val_other hen h0 h1, toUnderflow_of_val_ne_zero h0, toUnderflow_of_val_ne_zero hne]
    exact .inr ⟨rfl, rfl, hsub⟩

/-- The later state follows from the earlier by turns that count on one reload: every underflow but the
first comes `LOAD + 1` counter steps after the one before it, and after the first the value is at most the
reload. -/
structure CountsFrom (s t : State) : Prop where
  load : t.stk.load = s.stk.load
  elapsed : t.ticks + t.stk.toUnderflow + (s.stk.load.toNat + 1) * s.underflows
    = s.ticks + s.stk.toUnderflow + (s.stk.load.toNat + 1) * t.underflows
  bounded : t.underflows = s.underflows ∨ t.stk.toUnderflow ≤ s.stk.load.toNat + 1

theorem CountsFrom.refl (s : State) : CountsFrom s s := ⟨rfl, rfl, .inl rfl⟩

theorem CountsFrom.congr {s t u : State} (h : CountsFrom s t) (hload : u.stk.load = t.stk.load)
    (hval : u.stk.val = t.stk.val) (hticks : u.ticks = t.ticks) (hu : u.underflows = t.underflows) :
    CountsFrom s u := by
  have hto : u.stk.toUnderflow = t.stk.toUnderflow := by simp only [Stk.toUnderflow, hload, hval]
  refine ⟨hload.trans h.load, ?_, ?_⟩
  · rw [hticks, hto, hu]; exact h.elapsed
  · rw [hto, hu]; exact h.bounded

theorem CountsFrom.stkStep {s t : State} (h : CountsFrom s t) (hen : t.stk.enable = true)
    (hload : 1 ≤ s.stk.load.toNat) : CountsFrom s (stkStep t) := by
  obtain ⟨hl, hel, hb⟩ := h
  have hticks := stkStep_ticks hen
  obtain ⟨hu, -, hto, hto'⟩ | ⟨hu, -, hto⟩ := stkStep_cases hen (hl ▸ hload)
  · rw [hl] at hto'
    refine ⟨(stkStep_load t).trans hl, ?_, .inr hto'.le⟩
    rw [hu, Nat.mul_succ]
    omega
  · refine ⟨(stkStep_load t).trans hl, ?_, ?_⟩
    · rw [hu]; omega
    · rw [hu]; omega

theorem stkStep_iterate {s : State} (hen : s.stk.enable = true) (hload : 1 ≤ s.stk.load.toNat) (k : Nat) :
    (stkStep^[k] s).stk.enable = true ∧ (stkStep^[k] s).ticks = s.ticks + k ∧
      CountsFrom s (stkStep^[k] s) := by
  induction k with
  | zero => exact ⟨hen, rfl, .refl s⟩
  | succ k ih =>
    obtain ⟨hk, hticks, hcounts⟩ := ih
    rw [Function.iterate_succ_apply']
    exact ⟨(stkStep_enable _).trans hk, by rw [stkStep_ticks hk, hticks, Nat.add_assoc],
      hcounts.stkStep hk hload⟩

/-- From `VAL = 0`, the underflows are the whole periods in the elapsed counter steps. -/
theorem CountsFrom.underflows_eq {s t : State} {k : Nat} (h : CountsFrom s t) (hval : s.stk.val = 0)
    (hticks : t.ticks = s.ticks + k) :
    t.underflows = s.underflows + k / (s.stk.load.toNat + 1) := by
  obtain ⟨-, hel, hb⟩ := h
  rw [hticks, toUnderflow_of_val_zero hval] at hel
  generalize s.stk.load.toNat + 1 = period at *
  have hpos := toUnderflow_pos t.stk
  have hle : t.stk.toUnderflow ≤ period := by
    obtain hu | hle := hb
    · rw [hu] at hel; omega
    · exact hle
  have hmono : s.underflows ≤ t.underflows := by
    have hlt : period * s.underflows < period * (t.underflows + 1) := by rw [Nat.mul_succ]; omega
    exact Nat.le_of_lt_succ (Nat.lt_of_mul_lt_mul_left hlt)
  obtain ⟨d, hd⟩ := Nat.exists_eq_add_of_le hmono
  rw [hd, Nat.mul_add] at hel
  have hk : k / period = d := Nat.div_eq_of_lt_le (by rw [Nat.mul_comm]; omega)
    (by rw [Nat.mul_comm, Nat.mul_succ]; omega)
  rw [hd, hk]

/-- A step in the counter's turn is its turn. -/
theorem step_of_stk {s : State} (hf : s.hasFaulted = false) (hstk : nextAgent s = .stk) :
    step s = .next (stkStep s.takeTurn) := by
  rw [step_eq hf, hstk]; rfl

/-- Settles O33: a turn by the counter's value, and the period by counting whole periods from `VAL = 0`. -/
theorem counterStepAndUnderflowPeriod : Obligations.CounterStepAndUnderflowPeriod := by
  refine ⟨fun s hf hstk => ?turn, fun s k hen hload hval => ?period, fun c hsys => ?cycles⟩
  case turn =>
    rw [step_of_stk hf hstk]
    refine ⟨fun hoff => ?_, fun hen hval => ?_, fun hen hval => ?_, fun hen h0 h1 => ?_⟩
    · rw [stkStep_disabled (s := s.takeTurn) hoff]
    · rw [stkStep_of_val_zero (s := s.takeTurn) hen hval]; rfl
    · rw [stkStep_of_val_one (s := s.takeTurn) hen hval]; rfl
    · rw [stkStep_of_val_other (s := s.takeTurn) hen h0 h1]; rfl
  case period =>
    obtain ⟨-, hticks, hcounts⟩ := stkStep_iterate hen hload k
    exact ⟨hticks, hcounts.underflows_eq hval hticks⟩
  case cycles =>
    have hpos : 0 < c.fSys / 1000 := Nat.div_pos hsys (by decide)
    exact Nat.sub_add_cancel hpos

end Sys2Proof.Machine
end

section
/-! A step while `TICKWAIT` stands at the head of the queue (40_microops R139), whichever agent takes it. -/

namespace Sys2Proof.Machine

/-- What a turn of the sequencer at a `TICKWAIT` leaves: one read of `STK.CTRL`, which clears COUNTFLAG. -/
def waitRead (s : State) (mq : List MicroOp) : State :=
  { s.takeTurn with
    stk := { s.stk with countflag := false }
    mq := mq
    hist := s.hist ++ [.rd (regAddr s.cfg .stkCtrl) (ctrlView s.stk)] }

/-- A step at `TICKWAIT k`, with the agent that takes it and the iterations left: a turn of a device, a read
that finds the flag clear and leaves the queue, or one that finds it set and counts an iteration. -/
inductive WaitStep (s : State) (k : Nat) (rest : List MicroOp) : Agent → Nat → State → Prop
  | peripheral : WaitStep s k rest .i2cp k (i2cpStep s.takeTurn)
  | counter : WaitStep s k rest .stk k (stkStep s.takeTurn)
  | unsuccessful (hflag : s.stk.countflag = false) : WaitStep s k rest .seq k (waitRead s s.mq)
  | successful (hflag : s.stk.countflag = true) :
      WaitStep s k rest .seq (k - 1) (waitRead s (if k = 1 then rest else .tickwait (k - 1) :: rest))

theorem step_of_tickwait {s : State} {k : Nat} {rest : List MicroOp} (hrun : s.status = .running)
    (hq : s.mq = .tickwait k :: rest) :
    ∃ j t, step s = .next t ∧ WaitStep s k rest (nextAgent s) j t := by
  have hf : s.hasFaulted = false := by simp [State.hasFaulted, hrun]
  cases ha : nextAgent s with
  | i2cp => exact ⟨k, _, by rw [step_eq hf, ha]; rfl, .peripheral⟩
  | stk => exact ⟨k, _, step_of_stk hf ha, .counter⟩
  | seq =>
    have hread := tickwaitCountsTheFlag s k rest ⟨hrun, ha, hq⟩
    cases hflag : s.stk.countflag with
    | false => rw [hflag] at hread; exact ⟨k, _, hread, .unsuccessful hflag⟩
    | true => rw [hflag] at hread; exact ⟨k - 1, _, hread, .successful hflag⟩

/-! ### The wait that never ends -/

/-- A wait on a counter that reloads 0, cleared: no turn of the counter leaves 0, so none underflows. -/
structure HungWait (cp : Nat) (mq : List MicroOp) (s : State) : Prop where
  cp : s.cp = cp
  mq : s.mq = mq
  running : s.status = .running
  load : s.stk.load = 0
  val : s.stk.val = 0
  flag : s.stk.countflag = false

theorem stkStep_stk_of_reload_zero {s : State} (hload : s.stk.load = 0) (hval : s.stk.val = 0) :
    (stkStep s).stk = s.stk := by
  cases hen : s.stk.enable with
  | false => rw [stkStep_disabled hen]
  | true => rw [stkStep_of_val_zero hen hval, hload, ← hval]

theorem HungWait.step {cp k : Nat} {rest : List MicroOp} {s : State}
    (h : HungWait cp (.tickwait k :: rest) s) :
    ∃ t, step s = .next t ∧ HungWait cp (.tickwait k :: rest) t := by
  obtain ⟨hcp, hq, hrun, hload, hval, hflag⟩ := h
  obtain ⟨j, t, ht, hwait⟩ := step_of_tickwait hrun hq
  refine ⟨t, ht, ?_⟩
  generalize nextAgent s = a at hwait
  cases hwait with
  | peripheral => rw [i2cpStep_eq]; exact ⟨hcp, hq, hrun, hload, hval, hflag⟩
  | counter =>
    have hstk := stkStep_stk_of_reload_zero (s := s.takeTurn) hload hval
    rw [stkStep_eq, hstk]
    exact ⟨hcp, hq, hrun, hload, hval, hflag⟩
  | unsuccessful => exact ⟨hcp, hq, hrun, hload, hval, rfl⟩
  | successful hset => rw [hflag] at hset; cases hset

theorem HungWait.run {cp k : Nat} {rest : List MicroOp} (n : Nat) {s : State}
    (h : HungWait cp (.tickwait k :: rest) s) :
    ∃ t, run n s = .next t ∧ HungWait cp (.tickwait k :: rest) t := by
  induction n generalizing s with
  | zero => exact ⟨s, rfl, h⟩
  | succ n ih =>
    obtain ⟨u, hu, hhung⟩ := h.step
    obtain ⟨t, ht, hhung⟩ := ih hhung
    exact ⟨t, by rw [Machine.run, hu]; exact ht, hhung⟩

theorem ofNat_reload_ne_zero {c : Config} (h : configOk c = true) : BitVec.ofNat 24 (reload c) ≠ 0 := by
  obtain ⟨hpos, hmax, -⟩ := (configOk_iff c).mp h
  intro hzero
  have hmod := congrArg BitVec.toNat hzero
  rw [BitVec.toNat_ofNat, Nat.mod_eq_of_lt (by omega)] at hmod
  exact absurd hmod (by simp; omega)

/-- Settles O34: every step of a hung wait is a next state that is one again. -/
theorem reloadZeroHangs : Obligations.ReloadZeroHangs := by
  refine ⟨fun s k rest n hrun hq hload hval hflag => ?_, fun c => ofNat_reload_ne_zero⟩
  have hhung : HungWait s.cp (.tickwait k :: rest) s := ⟨rfl, hq, hrun, hload, hval, hflag⟩
  obtain ⟨t, ht, hcp, hmq, hrun, -, -, hflag⟩ := hhung.run n
  exact ⟨t, ht, hmq.trans hq.symm, hcp, hrun, hflag⟩

end Sys2Proof.Machine
end

section
/-! How long a wait lasts (41_timer R170): the iterations counted, the underflows and the counter steps. -/

namespace Sys2Proof.Machine

section
variable {s t : State} {k j : Nat} {rest : List MicroOp} {a : Agent}

/-! ### What only grows -/

theorem stkStep_ticks_le (s : State) : s.ticks ≤ (stkStep s).ticks := by
  cases hen : s.stk.enable with
  | false => rw [stkStep_disabled hen]
  | true => rw [stkStep_ticks hen]; exact Nat.le_succ _

theorem step_ticks_le (h : step s = .next t) : s.ticks ≤ t.ticks := by
  obtain ⟨-, hi2cp, -, hseq⟩ := deviceFrames s t h
  cases ha : nextAgent s with
  | seq => exact (hseq ha).1.ge
  | i2cp => exact (hi2cp ha).2.ge
  | stk => rw [step_eq_of_stk ha h]; exact stkStep_ticks_le s.takeTurn

theorem step_underflows_le (h : step s = .next t) : s.underflows ≤ t.underflows := by
  obtain ⟨es, hhist, -⟩ := historyOnlyGrows s t h
  simp [State.underflows, hhist]

theorem run_ticks_underflows_le {n : Nat} (h : run n s = .next t) :
    s.ticks ≤ t.ticks ∧ s.underflows ≤ t.underflows := by
  refine run_keeps (P := fun u => s.ticks ≤ u.ticks ∧ s.underflows ≤ u.underflows)
    (fun u v hu hstep => ?_) n s t ⟨le_rfl, le_rfl⟩ h
  exact ⟨hu.1.trans (step_ticks_le hstep), hu.2.trans (step_underflows_le hstep)⟩

/-! ### The queue of a wait -/

/-- The queue with `k` iterations of a wait left before `rest`. -/
def waitQueue (rest : List MicroOp) (k : Nat) : List MicroOp := if k = 0 then rest else .tickwait k :: rest

theorem waitQueue_of_pos (rest : List MicroOp) (hk : 1 ≤ k) : waitQueue rest k = .tickwait k :: rest :=
  if_neg (Nat.one_le_iff_ne_zero.mp hk)

/-- A running block with `k` iterations of a wait left, on an enabled counter that reloads at least 1. -/
structure Waiting (rest : List MicroOp) (k : Nat) (s : State) : Prop where
  running : s.status = .running
  queue : s.mq = waitQueue rest k
  enable : s.stk.enable = true
  load : 1 ≤ s.stk.load.toNat

theorem WaitStep.waiting (h : WaitStep s k rest a j t) (hk : 1 ≤ k) (hs : Waiting rest k s) :
    Waiting rest j t := by
  obtain ⟨hrun, hq, hen, hload⟩ := hs
  cases h with
  | peripheral => rw [i2cpStep_eq]; exact ⟨hrun, hq, hen, hload⟩
  | counter =>
    refine ⟨?_, ?_, (stkStep_enable _).trans hen, by rw [stkStep_load]; exact hload⟩
    · rw [stkStep_eq]; exact hrun
    · rw [stkStep_eq]; exact hq
  | unsuccessful => exact ⟨hrun, hq, hen, hload⟩
  | successful =>
    refine ⟨hrun, ?_, hen, hload⟩
    have hlast : k = 1 ↔ k - 1 = 0 := by omega
    simp only [waitRead, waitQueue, hlast]

theorem Waiting.step (hs : Waiting rest k s) (hk : 1 ≤ k) :
    ∃ j t, step s = .next t ∧ WaitStep s k rest (nextAgent s) j t ∧ Waiting rest j t := by
  have hq : s.mq = .tickwait k :: rest := hs.queue.trans (waitQueue_of_pos rest hk)
  obtain ⟨j, t, ht, hwait⟩ := step_of_tickwait hs.running hq
  exact ⟨j, t, ht, hwait, hwait.waiting hk hs⟩

/-! ### The iterations a wait has counted -/

theorem I2cpEffect.underflows (h : I2cpEffect s t) : t.underflows = s.underflows := by
  cases h with
  | stay => rfl
  | start => exact underflows_append_of_ne rfl nofun
  | address => cases nextAck s <;> exact underflows_append_of_ne rfl nofun
  | shiftLoad => rfl
  | data => cases nextAck s <;> exact underflows_append_of_ne rfl nofun
  | stop => exact underflows_append_of_ne rfl nofun

theorem i2cpStep_stk_ticks (s : State) : (i2cpStep s).stk = s.stk ∧ (i2cpStep s).ticks = s.ticks := by
  rw [i2cpStep_eq]; exact ⟨rfl, rfl⟩

theorem waitRead_underflows (s : State) (mq : List MicroOp) : (waitRead s mq).underflows = s.underflows :=
  underflows_append_of_ne (s := s) rfl nofun

/-- From `s₀`, which has `n` iterations to wait, to a state with `k` left: each iteration counted, and
COUNTFLAG where it is set, took an underflow of its own, or the flag `s₀` had. -/
structure Waited (s₀ : State) (n k : Nat) (s : State) : Prop where
  counts : CountsFrom s₀ s
  paid : n + s₀.underflows + s.stk.countflag.toNat ≤ s.underflows + k + s₀.stk.countflag.toNat

theorem Waited.refl (s : State) (n : Nat) : Waited s n n s := ⟨.refl s, by omega⟩

theorem WaitStep.waited {s₀ : State} {n : Nat} (h : WaitStep s k rest a j t) (hk : 1 ≤ k)
    (hs : Waiting rest k s) (hw : Waited s₀ n k s) : Waited s₀ n j t := by
  obtain ⟨hcounts, hpaid⟩ := hw
  cases h with
  | peripheral =>
    obtain ⟨hstk, hticks⟩ := i2cpStep_stk_ticks s.takeTurn
    have hu := (i2cpStep_effect s.takeTurn).underflows
    refine ⟨hcounts.congr (by rw [hstk]; rfl) (by rw [hstk]; rfl) hticks hu, ?_⟩
    rw [hstk, hu]
    exact hpaid
  | counter =>
    have hcounts' : CountsFrom s₀ s.takeTurn := hcounts.congr rfl rfl rfl rfl
    refine ⟨hcounts'.stkStep hs.enable (hcounts.load ▸ hs.load), ?_⟩
    obtain ⟨hu, hflag, -⟩ | ⟨hu, hflag, -⟩ := stkStep_cases (s := s.takeTurn) hs.enable hs.load
    · rw [hu, hflag, Bool.toNat_true]
      change _ ≤ s.underflows + 1 + _ + _
      omega
    · rw [hu, hflag]
      exact hpaid
  | unsuccessful hflag =>
    have hu := waitRead_underflows s s.mq
    refine ⟨hcounts.congr rfl rfl rfl hu, ?_⟩
    rw [hflag] at hpaid
    rw [hu]
    exact hpaid
  | successful hflag =>
    have hu := waitRead_underflows s (if k = 1 then rest else .tickwait (k - 1) :: rest)
    refine ⟨hcounts.congr rfl rfl rfl hu, ?_⟩
    rw [hflag, Bool.toNat_true] at hpaid
    rw [hu]
    change _ + 0 ≤ _
    omega

/-- A run that comes to the queue after the wait passes a state with no iteration left. -/
theorem Waited.of_run {s₀ u : State} {n m : Nat} (hs : Waiting rest j u) (hw : Waited s₀ n j u)
    (hrun : run m u = .next t) (ht : t.mq = rest) :
    ∃ p, Waited s₀ n 0 p ∧ p.ticks ≤ t.ticks ∧ p.underflows ≤ t.underflows := by
  induction m generalizing u j with
  | zero =>
    cases hrun
    have hend : waitQueue rest j = rest := hs.queue.symm.trans ht
    obtain rfl | hj := Nat.eq_zero_or_pos j
    · exact ⟨_, hw, le_rfl, le_rfl⟩
    · rw [waitQueue_of_pos rest hj] at hend
      exact absurd hend (List.cons_ne_self _ _)
  | succ m ih =>
    obtain rfl | hj := Nat.eq_zero_or_pos j
    · exact ⟨u, hw, run_ticks_underflows_le hrun⟩
    · obtain ⟨v, hv, hrun⟩ := run_succ hrun
      obtain ⟨i, w, hstep, hwait, hs'⟩ := hs.step hj
      cases hstep.symm.trans hv
      exact ih hs' (hwait.waited hj hs hw) hrun

/-- Some underflows and the counter steps they took: whole periods but for the first. -/
theorem CountsFrom.ticks_le {d : Nat} (h : CountsFrom s t) (hd : 1 ≤ d)
    (hu : s.underflows + d ≤ t.underflows) :
    s.ticks + s.stk.toUnderflow + d * (s.stk.load.toNat + 1) ≤ t.ticks + (s.stk.load.toNat + 1) := by
  obtain ⟨-, helapsed, hbounded⟩ := h
  have hle : t.stk.toUnderflow ≤ s.stk.load.toNat + 1 := hbounded.resolve_left (by omega)
  have hmul := Nat.mul_le_mul_left (s.stk.load.toNat + 1) hu
  rw [Nat.mul_add, Nat.mul_comm _ d] at hmul
  omega

end

/-- Settles O35: every iteration but one paid by a flag set before the wait took an underflow, and the
underflows took their periods. -/
theorem delayElapsedTime : Obligations.DelayElapsedTime := by
  intro s t n k rest hn hrun hq hen hload hk ht
  have hs : Waiting rest n s := ⟨hrun, hq.trans (waitQueue_of_pos rest hn).symm, hen, hload⟩
  obtain ⟨p, ⟨hcounts, hpaid⟩, hticks, hunder⟩ := (Waited.refl s n).of_run hs hk ht
  change (_ → _ → s.underflows + n ≤ t.underflows ∧ _) ∧ (_ → s.underflows + (n - 1) ≤ t.underflows ∧ _)
  refine ⟨fun hval hflag => ?cleared, fun htwo => ?anyValue⟩
  case cleared =>
    rw [hflag, Bool.toNat_false] at hpaid
    have hp := hcounts.ticks_le (d := n) hn (by omega)
    rw [toUnderflow_of_val_zero hval] at hp
    omega
  case anyValue =>
    have hstale := Bool.toNat_le s.stk.countflag
    have hp := hcounts.ticks_le (d := n - 1) (by omega) (by omega)
    have hpos := toUnderflow_pos s.stk
    have hsucc : n - 1 = n - 2 + 1 := by omega
    rw [hsucc, Nat.succ_mul] at hp
    omega

end Sys2Proof.Machine
end

section
/-! The infinite executions (41_timer R169): the counter steps for ever while it is enabled, and a wait ends. -/

namespace Sys2Proof.Machine

/-! ### Turns of a wait -/

section
variable {s t : State} {k j : Nat} {rest : List MicroOp} {a : Agent}

/-- A step that leaves COUNTFLAG clear brings the underflow as much nearer as it counts. -/
theorem WaitStep.approaches (h : WaitStep s k rest a j t) (hs : Waiting rest k s)
    (hclear : s.stk.countflag = false) (hclear' : t.stk.countflag = false) :
    t.ticks + t.stk.toUnderflow = s.ticks + s.stk.toUnderflow := by
  cases h with
  | peripheral =>
    obtain ⟨hstk, hticks⟩ := i2cpStep_stk_ticks s.takeTurn
    rw [hstk, hticks]
    rfl
  | counter =>
    have hticks := stkStep_ticks (s := s.takeTurn) hs.enable
    obtain ⟨-, hset, -⟩ | ⟨-, -, hto⟩ := stkStep_cases (s := s.takeTurn) hs.enable hs.load
    · cases hset.symm.trans hclear'
    · rw [takeTurn_ticks] at hticks
      rw [takeTurn_stk] at hto
      omega
  | unsuccessful => rfl
  | successful hset => cases hset.symm.trans hclear

/-- A device's turn leaves COUNTFLAG set. -/
theorem WaitStep.keeps_flag (h : WaitStep s k rest a j t) (hs : Waiting rest k s) (hdev : a ≠ .seq)
    (hset : s.stk.countflag = true) : t.stk.countflag = true := by
  cases h with
  | peripheral => rw [(i2cpStep_stk_ticks s.takeTurn).1]; exact hset
  | counter =>
    obtain ⟨-, hflag, -⟩ | ⟨-, hflag, -⟩ := stkStep_cases (s := s.takeTurn) hs.enable hs.load
    · exact hflag
    · exact hflag.trans hset
  | unsuccessful | successful => exact absurd rfl hdev

/-- A step counts an iteration, or leaves the number of them and was no read of a set flag. -/
theorem WaitStep.left_cases (h : WaitStep s k rest a j t) :
    j = k - 1 ∨ (j = k ∧ (a = .seq → s.stk.countflag = false)) := by
  cases h with
  | peripheral | counter => exact .inr ⟨rfl, nofun⟩
  | unsuccessful hflag => exact .inr ⟨rfl, fun _ => hflag⟩
  | successful => exact .inl rfl

theorem Waiting.choosing (hs : Waiting rest k s) (a : Agent) (x : Ack) : Waiting rest k (s.choosing a x) :=
  ⟨hs.running, hs.queue, hs.enable, hs.load⟩

end

/-! ### Executions -/

section
variable {agent : Nat → Agent} {ack : Nat → Ack} {r : Nat → State} {rest : List MicroOp} {n k : Nat}

theorem Execution.ticks_mono (h : Execution agent ack r) : Monotone fun m => (r m).ticks :=
  monotone_nat_of_le_succ fun m => step_ticks_le (s := (r m).choosing (agent m) (ack m)) (h.1 m)

theorem Execution.ticks_succ (h : Execution agent ack r) {m : Nat} (hstk : agent m = .stk)
    (hen : (r m).stk.enable = true) : (r (m + 1)).ticks = (r m).ticks + 1 := by
  have hturn := step_eq_of_stk (s := (r m).choosing (agent m) (ack m)) hstk (h.1 m)
  rw [hturn]
  exact stkStep_ticks (s := ((r m).choosing (agent m) (ack m)).takeTurn) hen

/-- While the counter stays enabled, its steps have no bound. -/
theorem Execution.ticks_unbounded (h : Execution agent ack r)
    (hen : ∀ m, n ≤ m → (r m).stk.enable = true) (k : Nat) :
    ∃ m, n ≤ m ∧ (r n).ticks + k ≤ (r m).ticks := by
  induction k with
  | zero => exact ⟨n, le_rfl, le_rfl⟩
  | succ k ih =>
    obtain ⟨m, hm, hticks⟩ := ih
    obtain ⟨i, hi, hstk⟩ := h.2 m fun i hi => hen i (hm.trans hi)
    have hmono : (r m).ticks ≤ (r i).ticks := h.ticks_mono hi
    have hsucc := h.ticks_succ hstk (hen i (hm.trans hi))
    exact ⟨i + 1, by omega, by omega⟩

/-- A step of an execution at a wait. -/
theorem Execution.waitStep (h : Execution agent ack r) (hk : 1 ≤ k) {m : Nat} (hs : Waiting rest k (r m)) :
    ∃ j, WaitStep ((r m).choosing (agent m) (ack m)) k rest (agent m) j (r (m + 1)) ∧
      Waiting rest j (r (m + 1)) := by
  obtain ⟨j, t, hstep, hwait, ht⟩ := (hs.choosing (agent m) (ack m)).step hk
  cases hstep.symm.trans (h.1 m)
  exact ⟨j, hwait, ht⟩

/-- A wait that never counts an iteration has COUNTFLAG set at some point: else the counter would step for
ever without coming to its underflow. -/
theorem Execution.flag_sets (h : Execution agent ack r) (hk : 1 ≤ k)
    (hs : ∀ m, n ≤ m → Waiting rest k (r m)) : ∃ m, n ≤ m ∧ (r m).stk.countflag = true := by
  by_contra hnever
  have hclear : ∀ m, n ≤ m → (r m).stk.countflag = false := fun m hm =>
    Bool.eq_false_iff.mpr fun hset => hnever ⟨m, hm, hset⟩
  have hconst : ∀ m, n ≤ m →
      (r m).ticks + (r m).stk.toUnderflow = (r n).ticks + (r n).stk.toUnderflow := by
    intro m hm
    induction m, hm using Nat.le_induction with
    | base => rfl
    | succ m hm ih =>
      obtain ⟨j, hwait, -⟩ := h.waitStep hk (hs m hm)
      exact (hwait.approaches ((hs m hm).choosing _ _) (hclear m hm) (hclear (m + 1) (by omega))).trans ih
  obtain ⟨m, hm, hticks⟩ := h.ticks_unbounded (fun m hm => (hs m hm).enable) (r n).stk.toUnderflow
  have hpos := toUnderflow_pos (r m).stk
  have hsum := hconst m hm
  omega

/-- A wait counts its next iteration when the sequencer keeps taking turns: else COUNTFLAG, once set, would
stay set and no turn of the sequencer could read it. -/
theorem Execution.wait_counts (h : Execution agent ack r) (hseq : ∀ m, ∃ j, m ≤ j ∧ agent j = .seq)
    (hs : Waiting rest (k + 1) (r n)) : ∃ m, n ≤ m ∧ Waiting rest k (r m) := by
  by_contra hnever
  have hk : 1 ≤ k + 1 := Nat.le_add_left 1 k
  have hleft {m j : Nat} (hm : n ≤ m) (hj : Waiting rest j (r m)) : j ≠ k := by
    rintro rfl
    exact hnever ⟨m, hm, hj⟩
  have hstays : ∀ m, n ≤ m → Waiting rest (k + 1) (r m) := by
    intro m hm
    induction m, hm using Nat.le_induction with
    | base => exact hs
    | succ m hm ih =>
      obtain ⟨j, hwait, hj⟩ := h.waitStep hk ih
      obtain hcounted | ⟨rfl, -⟩ := hwait.left_cases
      · exact absurd hcounted (hleft (by omega) hj)
      · exact hj
  have hread : ∀ m, n ≤ m → agent m = .seq → (r m).stk.countflag = false := by
    intro m hm
    obtain ⟨j, hwait, hj⟩ := h.waitStep hk (hstays m hm)
    obtain hcounted | ⟨-, hclear⟩ := hwait.left_cases
    · exact absurd hcounted (hleft (by omega) hj)
    · exact hclear
  obtain ⟨i, hi, hset⟩ := h.flag_sets hk hstays
  have hkept : ∀ m, i ≤ m → (r m).stk.countflag = true := by
    intro m hm
    induction m, hm using Nat.le_induction with
    | base => exact hset
    | succ m hm ih =>
      have hnm := hi.trans hm
      have hdev : agent m ≠ .seq := fun ha => by cases ih.symm.trans (hread m hnm ha)
      obtain ⟨j, hwait, -⟩ := h.waitStep hk (hstays m hnm)
      exact hwait.keeps_flag ((hstays m hnm).choosing _ _) hdev ih
  obtain ⟨m, hm, ha⟩ := hseq i
  cases (hkept m hm).symm.trans (hread m (hi.trans hm) ha)

theorem Execution.wait_ends (h : Execution agent ack r) (hseq : ∀ m, ∃ j, m ≤ j ∧ agent j = .seq)
    (hs : Waiting rest k (r n)) : ∃ m, n ≤ m ∧ (r m).mq = rest := by
  induction k generalizing n with
  | zero => exact ⟨n, le_rfl, hs.queue⟩
  | succ k ih =>
    obtain ⟨i, hi, hs'⟩ := h.wait_counts hseq hs
    obtain ⟨m, hm, hend⟩ := ih hs'
    exact ⟨m, hi.trans hm, hend⟩

end

/-- Settles O60: the fairness in `Execution` gives the counter its steps, and these end every iteration. -/
theorem everyExecutionIsFairToTheCounter : Obligations.EveryExecutionIsFairToTheCounter := by
  intro agent ack r h
  refine ⟨fun n hen => h.ticks_unbounded hen, fun n k rest hseq hk hrun hq hen hload => ?_⟩
  exact h.wait_ends hseq ⟨hrun, hq.trans (waitQueue_of_pos rest hk).symm, hen, hload⟩

end Sys2Proof.Machine
end

section
/-! Accesses to the I2C block in reset or unclocked, and to the pins (42_businit R196 to R200). -/

namespace Sys2Proof.Machine

/-! ### Lost accesses -/

/-- The I2C registers whose accesses `i2cLost` governs: all but `CR1` (20_memory R85). -/
def i2cRegsButCr1 : List Reg :=
  [.i2cCr2, .i2cOar1, .i2cOar2, .i2cDr, .i2cSr1, .i2cSr2, .i2cCcr, .i2cTrise, .i2cFltr]

/-- A lost access writes nothing, reads 0 and has no side effect. -/
theorem lost_access {s : State} (hlost : i2cLost s = true) (v : Word) :
    ∀ r ∈ i2cRegsButCr1, writeReg r v s = .done s ∧ readValue r s = 0 ∧ readEffect r s = s := by
  simp [i2cRegsButCr1, writeReg, writeI2cPlain, writeDr, writeCcr, readValue, readEffect, sr1ReadEffect,
    sr2ReadEffect, hlost]

theorem i2cLost_of_unclocked {s : State} (h : i2cClocked s = false) : i2cLost s = true := by
  simp [i2cLost, h]

theorem i2cLost_of_inReset {s : State} (h : s.i2cp.inReset = true) : i2cLost s = true := by
  simp [i2cLost, h]

theorem i2cLost_eq_false {s : State} (hclocked : i2cClocked s = true) (hreset : s.i2cp.inReset = false) :
    i2cLost s = false := by
  simp [i2cLost, hclocked, hreset]

theorem cr1Lost_eq_false {s : State} (hclocked : i2cClocked s = true) (hreset : s.i2cp.inReset = false) :
    cr1Lost s = false := by
  simp [cr1Lost, hclocked, hreset]

/-- `CR1` is lost while the clock is off or the RCC bit holds the block in reset. -/
theorem cr1Lost_iff (s : State) :
    cr1Lost s = true ↔ i2cClocked s = false ∨ (s.i2cp.inReset = true ∧ s.cfg.resetStyle = .rcc) := by
  cases hstyle : s.cfg.resetStyle <;> simp [cr1Lost, hstyle]

theorem cr1Lost_eq_false_of_swrst {s : State} (hclocked : i2cClocked s = true)
    (hstyle : s.cfg.resetStyle = .swrst) : cr1Lost s = false := by
  simp [cr1Lost, hclocked, hstyle]

/-- Under `RESET_STYLE` SWRST a clocked `CR1` reads as stored, in reset too. -/
theorem readValue_cr1_of_swrst {s : State} (hclocked : i2cClocked s = true)
    (hstyle : s.cfg.resetStyle = .swrst) : readValue .i2cCr1 s = s.i2c.cr1 := by
  simp [readValue, cr1Lost_eq_false_of_swrst hclocked hstyle]

/-! ### `CR1` and the software reset (R198, 43_i2c R223) -/

/-- A write that sets the software reset, or is made while it is held, stops at R223's item 1. -/
theorem writeCr1_of_swrst {s : State} {v : Word}
    (h : v.getLsbD 15 = true ∨ (s.i2cp.inReset = true ∧ s.cfg.resetStyle = .swrst)) :
    writeCr1 v s = if cr1Lost s then .done s else writeSwrst v s :=
  if_pos (by simpa using h)

theorem writeSwrst_of_idle {s : State} {v : Word} (hset : v.getLsbD 15 = true) (hph : s.i2cp.ph = .idle) :
    writeSwrst v s = .done { holdI2cReset s with i2c := { I2cRegs.reset with cr1 := mSwrst } } := by
  simp [writeSwrst, hset, hph]

theorem writeSwrst_of_open {s : State} {v : Word} (hset : v.getLsbD 15 = true) (hph : s.i2cp.ph ≠ .idle) :
    writeSwrst v s = periphFault s .resetDuringTransaction := by
  simp [writeSwrst, hset, hph]

theorem writeSwrst_of_release {s : State} {v : Word} (hclear : v.getLsbD 15 = false) :
    writeSwrst v s = .done (setCr1 v { s with i2cp := { s.i2cp with inReset := false } }) :=
  if_neg (Bool.eq_false_iff.1 hclear)

/-- The software reset asserted while no transaction is open. -/
theorem writeCr1_asserts {s : State} {v : Word} (hset : v.getLsbD 15 = true) (hacc : cr1Lost s = false)
    (hph : s.i2cp.ph = .idle) :
    writeCr1 v s = .done { holdI2cReset s with i2c := { I2cRegs.reset with cr1 := mSwrst } } := by
  rw [writeCr1_of_swrst (.inl hset), hacc, writeSwrst_of_idle hset hph]
  rfl

/-- The software reset released. -/
theorem writeCr1_releases {s : State} {v : Word} (hclear : v.getLsbD 15 = false)
    (hclocked : i2cClocked s = true) (hreset : s.i2cp.inReset = true) (hstyle : s.cfg.resetStyle = .swrst) :
    writeCr1 v s = .done (setCr1 v { s with i2cp := { s.i2cp with inReset := false } }) := by
  rw [writeCr1_of_swrst (.inr ⟨hreset, hstyle⟩), cr1Lost_eq_false_of_swrst hclocked hstyle,
    writeSwrst_of_release hclear]
  rfl

/-! ### A gated `CR1`, and a plain store (43_i2c R223; log 12) -/

/-- A lost write to `CR1` does nothing, unless it gets to the start check. -/
theorem writeCr1_of_lost {s : State} {v : Word} (hlost : cr1Lost s = true)
    (h : v.getLsbD 8 = false ∨ v.getLsbD 15 = true) : writeCr1 v s = .done s := by
  obtain hnostart | hset := h
  · simp only [writeCr1, hlost, hnostart, Bool.false_and, Bool.false_eq_true, if_true, if_false, ite_self]
  · rw [writeCr1_of_swrst (.inl hset), if_pos hlost]

/-- The start check comes before the gate. -/
theorem writeCr1_of_notReady {s : State} {v : Word} (hclear : v.getLsbD 15 = false)
    (hreset : s.i2cp.inReset = false) (hstart : v.getLsbD 8 = true)
    (hready : busReady (setCr1 v s) = false) :
    writeCr1 v s = .raises (.busNotReady (currentCommand s) v) := by
  rw [writeCr1, hclear, hreset, hstart, hready]
  rfl

/-- A write to an accessible `CR1` that requests no start and meets no unmodelled case stores (R223 item
5). -/
theorem writeCr1_stores {s : State} {v : Word} (hclear : v.getLsbD 15 = false)
    (hreset : s.i2cp.inReset = false) (hnostart : v.getLsbD 8 = false) (hacc : cr1Lost s = false)
    (hmodelled : cr1Unmodelled s.i2cp.ph s.i2c.cr1 v = none) : writeCr1 v s = .done (setCr1 v s) := by
  rw [writeCr1, hclear, hreset, hnostart, hacc, hmodelled]
  rfl

theorem busReady_eq_false_of_unclocked {s : State} (h : i2cClocked s = false) : busReady s = false := by
  simp [busReady, h]

/-! ### `APB1RSTR` (R197) -/

/-- The clock registers after a write to `APB1RSTR`. -/
def Rcc.storeApb1rstr (v : Word) (k : Rcc) : Rcc := { k with apb1rstr := maskedInto apb1Fields k.apb1rstr v }

theorem writeApb1rstr_asserts {s : State} {v : Word} (hset : v.getLsbD (i2cBit s.cfg) = true)
    (hph : s.i2cp.ph = .idle) :
    writeApb1rstr v s = .done (holdI2cReset { s with rcc := s.rcc.storeApb1rstr v }) := by
  simp [writeApb1rstr, hset, hph, Rcc.storeApb1rstr]

theorem writeApb1rstr_of_open {s : State} {v : Word} (hset : v.getLsbD (i2cBit s.cfg) = true)
    (hph : s.i2cp.ph ≠ .idle) : writeApb1rstr v s = periphFault s .resetDuringTransaction := by
  simp [writeApb1rstr, hset, hph]

theorem writeApb1rstr_releases {s : State} {v : Word} (hclear : v.getLsbD (i2cBit s.cfg) = false) :
    writeApb1rstr v s = .done { s with
      rcc := s.rcc.storeApb1rstr v
      i2cp := { s.i2cp with inReset := false } } := by
  simp [writeApb1rstr, hclear, Rcc.storeApb1rstr]

/-- Settles O24: each write is one case of `writeApb1rstr` or `writeSwrst`, and what is lost while held is
`i2cLost` and `cr1Lost`. -/
theorem peripheralResetBits : Obligations.PeripheralResetBits := by
  intro s v held rstr fault gated
  have hgated : cr1Lost s = true ↔ gated := cr1Lost_iff s
  have hacc (h : ¬ gated) : cr1Lost s = false := Bool.eq_false_iff.2 (mt hgated.1 h)
  refine ⟨fun hset hph => writeApb1rstr_asserts hset hph, fun hset hph => writeApb1rstr_of_open hset hph,
    fun hclear => writeApb1rstr_releases hclear, fun hset hg => writeCr1_of_lost (hgated.2 hg) (.inr hset),
    fun hset hg hph => ⟨writeCr1_asserts hset (hacc hg) hph, fun hstyle => ?heldSwrst⟩,
    fun hset hg hph => ?openTransaction, fun hreset hstyle => ?heldRcc,
    fun hclear hclocked hreset hstyle => writeCr1_releases hclear hclocked hreset hstyle,
    fun hreset => lost_access (i2cLost_of_inReset hreset) v⟩
  case heldSwrst =>
    have hclocked : i2cClocked s = true := by simpa using mt Or.inl hg
    exact readValue_cr1_of_swrst (s := { held with i2c := _ }) hclocked hstyle
  case openTransaction =>
    change writeCr1 v s = _
    rw [writeCr1_of_swrst (.inl hset), hacc hg]
    exact writeSwrst_of_open hset hph
  case heldRcc => exact if_pos (hgated.2 (.inr ⟨hreset, hstyle⟩))

/-! ### The divider (R200) -/

theorem writeCcr_of_enabled {s : State} (v : Word) (hacc : i2cLost s = false)
    (hpe : s.i2c.cr1.getLsbD 0 = true) : writeCcr v s = periphFault s .ccrWhileEnabled := by
  rw [writeCcr, hacc, hpe]
  rfl

theorem writeCcr_of_disabled {s : State} (v : Word) (hacc : i2cLost s = false)
    (hpe : s.i2c.cr1.getLsbD 0 = false) :
    writeCcr v s = .done { s with i2c := { s.i2c with ccr := v &&& ccrFields } } := by
  rw [writeCcr, hacc, hpe]
  rfl

/-- Settles O26: the two cases of a `CCR` write that is not lost. -/
theorem dividerOnlyWhileDisabled : Obligations.DividerOnlyWhileDisabled := by
  intro s v hclocked hreset
  have hacc : i2cLost s = false := i2cLost_eq_false hclocked hreset
  exact ⟨writeCcr_of_enabled v hacc, writeCcr_of_disabled v hacc⟩

/-! ### The pins (R196, R199) -/

/-- The registers of the GPIO bank (20_memory R72). -/
def gpioRegs : List Reg := [.gpioModer, .gpioOtyper, .gpioOspeedr, .gpioPupdr, .gpioAfrl, .gpioAfrh]

/-- What a register of a clocked bank reads. -/
def Gpio.load (r : Reg) (g : Gpio) : Word :=
  match r with
  | .gpioModer => g.moder
  | .gpioOtyper => g.otyper &&& otyperFields
  | .gpioOspeedr => g.ospeedr
  | .gpioPupdr => g.pupdr
  | .gpioAfrl => g.afrl
  | .gpioAfrh => g.afrh
  | _ => 0

/-- What a clocked bank holds after a write to one of its registers. -/
def Gpio.store (r : Reg) (v : Word) (g : Gpio) : Gpio :=
  match r with
  | .gpioModer => { g with moder := v }
  | .gpioOtyper => { g with otyper := maskedInto otyperFields g.otyper v }
  | .gpioOspeedr => { g with ospeedr := v }
  | .gpioPupdr => { g with pupdr := v }
  | .gpioAfrl => { g with afrl := v }
  | .gpioAfrh => { g with afrh := v }
  | _ => g

theorem readValue_of_gpioRegs (s : State) :
    ∀ r ∈ gpioRegs, readValue r s = if gpioClocked s then s.gpio.load r else 0 := by
  simp [gpioRegs, readValue, Gpio.load]

theorem writeReg_of_gpioRegs (v : Word) (s : State) :
    ∀ r ∈ gpioRegs, writeReg r v s = writeGpio s (s.gpio.store r v) := by
  simp [gpioRegs, writeReg, Gpio.store]

theorem readEffect_of_gpioRegs (s : State) : ∀ r ∈ gpioRegs, readEffect r s = s := by
  simp [gpioRegs, readEffect]

/-- A value written into fields reads back through them. -/
theorem maskedInto_and (m old v : Word) : maskedInto m old v &&& m = v &&& m := by
  apply BitVec.eq_of_getLsbD_eq
  intro i hi
  simp only [BitVec.getLsbD_and, getLsbD_maskedInto]
  cases m.getLsbD i <;> simp

/-- A register of the bank reads back what was written, `OTYPER` its 16 pins. -/
theorem Gpio.load_store_same (v : Word) (g : Gpio) :
    ∀ r ∈ gpioRegs, (g.store r v).load r = if r = .gpioOtyper then v &&& otyperFields else v := by
  simp [gpioRegs, Gpio.load, Gpio.store, maskedInto_and]

/-- A write to one register of the bank leaves the other five. -/
theorem Gpio.load_store_other (v : Word) (g : Gpio) :
    ∀ r ∈ gpioRegs, ∀ q ∈ gpioRegs, q ≠ r → (g.store r v).load q = g.load q := by
  simp [gpioRegs, Gpio.load, Gpio.store]

/-- Settles O25: an unclocked I2C register is lost, and a bank's registers are `Gpio.load` and
`Gpio.store`. -/
theorem gatedBlocksReadZeroAndIgnoreWrites : Obligations.GatedBlocksReadZeroAndIgnoreWrites := by
  intro s v
  refine ⟨fun hoff => ?i2cUnclocked, fun hoff hstart h15 hreset => ?startUnclocked,
    fun hoff r hr => ?gpioUnclocked, fun hon r hr => ?gpioClocked⟩
  case i2cUnclocked =>
    have hlost : cr1Lost s = true := (cr1Lost_iff s).2 (.inl hoff)
    have hothers := lost_access (i2cLost_of_unclocked hoff) v
    refine List.forall_mem_cons.2 ⟨⟨if_pos hlost, rfl, fun h => ?_⟩, fun r hr => ?_⟩
    · exact writeCr1_of_lost hlost (h.resolve_left (not_not.2 rfl))
    · obtain ⟨hwrite, hread, heffect⟩ := hothers r hr
      exact ⟨hread, heffect, fun _ => hwrite⟩
  case startUnclocked =>
    exact writeCr1_of_notReady h15 hreset hstart (busReady_eq_false_of_unclocked (s := setCr1 v s) hoff)
  case gpioUnclocked =>
    refine ⟨?_, readEffect_of_gpioRegs s r hr, ?_⟩
    · rw [readValue_of_gpioRegs s r hr, hoff]; rfl
    · rw [writeReg_of_gpioRegs v s r hr, writeGpio, hoff]; rfl
  case gpioClocked =>
    refine ⟨{ s with gpio := s.gpio.store r v }, ?written, ?readBack, ?reserved, rfl,
      fun q hq hqr => ?others⟩
    case written => rw [writeReg_of_gpioRegs v s r hr, writeGpio, hon]; rfl
    case readBack =>
      rw [readValue_of_gpioRegs _ r hr]
      exact (if_pos hon).trans (Gpio.load_store_same v s.gpio r hr)
    case reserved =>
      split
      · subst r
        exact maskedInto_and_not otyperFields s.gpio.otyper v
      · rfl
    case others =>
      rw [readValue_of_gpioRegs _ q hq, readValue_of_gpioRegs s q hq,
        ← Gpio.load_store_other v s.gpio r hr q hq hqr]
      rfl

end Sys2Proof.Machine
end

section
/-! The start of INIT_BUS (42_businit R190 to R194). -/

namespace Sys2Proof.Machine

/-- The registers at the base of their block. -/
theorem regAddr_i2cCr1 (c : Config) : regAddr c .i2cCr1 = i2cBase c.i2cInst := BitVec.add_zero _
theorem regAddr_gpioModer (c : Config) : regAddr c .gpioModer = gpioBase c.gpioPort := BitVec.add_zero _

theorem initbusOps_length (c : Config) : (initbusOps c).length = 28 := by
  unfold initbusOps resetOps
  cases c.resetStyle <;> rfl

/-- Settles O10: the expansion's addresses, written out from `B_I2C` and `B_GPIO`. -/
theorem initBusStarts : Obligations.InitBusStarts := by
  intro s c gpio i2c mI2c scl sda both rmwSet rmwClear rmwField afr ops
  have hreset : resetOps c = if c.resetStyle = .rcc then rmwSet 0x4002_3820 mI2c ++ rmwClear 0x4002_3820 mI2c
      else rmwSet i2c 0x8000 ++ rmwClear i2c 0x8000 := by
    unfold resetOps
    rw [regAddr_i2cCr1]
    cases c.resetStyle <;> rfl
  have hafr (n : Fin 16) : afrOps c n = afr n.val := by
    unfold afrOps
    by_cases hn : n.val < 8
    · simp only [afr, hn, if_true]; rfl
    · simp only [afr, hn, if_false]; rfl
  have hops : initbusOps c = ops := by
    unfold initbusOps
    rw [hreset, hafr, hafr, regAddr_i2cCr1, regAddr_gpioModer]
    rfl
  refine ⟨?_, hops ▸ initbusOps_length c⟩
  rw [← hops]
  rfl

end Sys2Proof.Machine
end

section
/-! Runs of read-modify-writes by the sequencer alone: what they do to the device registers, told apart from
the queue, `TMP`, the history and the schedule they run through (40_microops R130, R134 to R137, R142). -/

namespace Sys2Proof.Machine

/-! ### Writes do not see the sequencer's turn -/

/-- The state a write leaves, changed; a fault stays. -/
def WriteResult.map (f : State → State) : WriteResult → WriteResult
  | .done u => .done (f u)
  | .raises e => .raises e

/-- The state with another queue, `TMP`, history and environment. -/
def State.inTurn (s : State) (mq : List MicroOp) (tmp : Word) (hist : List Event) (env : Env) : State :=
  { s with mq := mq, tmp := tmp, hist := hist, env := env }

section
variable (mq : List MicroOp) (tmp : Word) (hist : List Event) (env : Env)

/-- A write neither sees nor changes the queue, `TMP`, the history and the environment. -/
theorem writeReg_inTurn (r : Reg) (v : Word) (s : State) :
    writeReg r v (s.inTurn mq tmp hist env) = (writeReg r v s).map (·.inTurn mq tmp hist env) := by
  cases r with
  | i2cCr1 =>
    simp only [writeReg, writeCr1, writeSwrst, apply_ite (WriteResult.map _)]
    have hcase : cr1Unmodelled (s.inTurn mq tmp hist env).i2cp.ph (s.inTurn mq tmp hist env).i2c.cr1 v
        = cr1Unmodelled s.i2cp.ph s.i2c.cr1 v := rfl
    rw [hcase]
    cases cr1Unmodelled s.i2cp.ph s.i2c.cr1 v <;> rfl
  | i2cDr => simp only [writeReg, writeDr, apply_ite (WriteResult.map _)]; rfl
  | i2cSr1 => simp only [writeReg, apply_ite (WriteResult.map _)]; rfl
  | i2cCcr => simp only [writeReg, writeCcr, apply_ite (WriteResult.map _)]; rfl
  | rccApb1rstr => simp only [writeReg, writeApb1rstr, apply_ite (WriteResult.map _)]; rfl
  | i2cCr2 | i2cOar1 | i2cOar2 | i2cTrise | i2cFltr =>
    simp only [writeReg, writeI2cPlain, apply_ite (WriteResult.map _)]; rfl
  | gpioModer | gpioOtyper | gpioOspeedr | gpioPupdr | gpioAfrl | gpioAfrh =>
    simp only [writeReg, writeGpio, apply_ite (WriteResult.map _)]; rfl
  | i2cSr2 | stkCtrl | stkLoad | stkVal | stkCalib | rccAhb1enr | rccApb1enr => rfl

end

@[simp] theorem readValue_inTurn (r : Reg) (s : State) (mq : List MicroOp) (tmp : Word) (hist : List Event)
    (env : Env) : readValue r (s.inTurn mq tmp hist env) = readValue r s := readValue_env r s mq tmp hist env

/-! ### Read-modify-writes -/

/-- The read-modify-writes of 40_microops R130, on a register of the machine. -/
inductive Rmw where
  | set (r : Reg) (m : Word)
  | clear (r : Reg) (m : Word)
  | field (r : Reg) (m v : Word)

namespace Rmw

/-- The register it loads from and stores to. -/
def reg : Rmw → Reg
  | .set r _ | .clear r _ | .field r _ _ => r

/-- The value it stores, from the value it has loaded (R135 to R137). -/
def value : Rmw → Word → Word
  | .set _ m, x => x ||| m
  | .clear _ m, x => x &&& ~~~m
  | .field _ m v, x => maskedInto m x v

/-- Its store. -/
def store (c : Config) : Rmw → MicroOp
  | .set r m => .stor (regAddr c r) m
  | .clear r m => .standn (regAddr c r) m
  | .field r m v => .stfld (regAddr c r) m v

/-- Its two micro-operations. -/
def ops (c : Config) (x : Rmw) : List MicroOp := [.ldt (regAddr c x.reg), x.store c]

/-- What it does to the registers. -/
def write (x : Rmw) (s : State) : WriteResult := writeReg x.reg (x.value (readValue x.reg s)) s

/-- Its load is from a register without side effect (20_memory R76). -/
def Silent (x : Rmw) : Prop := x.reg ∉ [Reg.i2cSr1, .i2cSr2, .stkCtrl]

theorem Silent.readEffect {x : Rmw} (h : x.Silent) (s : State) : readEffect x.reg s = s := by
  obtain ⟨hread, -, -⟩ := accessFrame
  obtain ⟨hsilent, -⟩ := hread x.reg s
  exact hsilent h

theorem storesTo_store (c : Config) (x : Rmw) : (x.store c).storesTo (regAddr c x.reg) = true := by
  cases x <;> exact beq_self_eq_true _

theorem store_ne_ldt (c : Config) (x : Rmw) (a : Word) : x.store c ≠ .ldt a := by
  cases x <;> nofun

theorem runOp_store (c : Config) (x : Rmw) (s : State) :
    runOp (x.store c) s = memWrite (regAddr c x.reg) (x.value s.tmp) s.pop := by
  cases x <;> rfl

/-- The two events it appends to the history. -/
def events (x : Rmw) (s : State) : List Event :=
  [.rd (regAddr s.cfg x.reg) (readValue x.reg s),
    .wr (regAddr s.cfg x.reg) (x.value (readValue x.reg s))]

/-- The sequencer's turns it takes: one when fused (R142). -/
def turns (c : Config) : Nat := if c.rmwAtomic then 1 else 2

end Rmw

section
variable {x : Rmw} {s u : State} {rest : List MicroOp} {tmp : Word} {hist : List Event} {env : Env}

/-- The store, once the load has put the register's value in `TMP`. -/
theorem Rmw.runOp_store_inTurn (hwrite : x.write s = .done u) :
    runOp (x.store s.cfg) (s.inTurn (x.store s.cfg :: rest) (readValue x.reg s)
        (hist ++ [.rd (regAddr s.cfg x.reg) (readValue x.reg s)]) env)
      = .next (u.inTurn rest (readValue x.reg s) (hist ++ x.events s) env) := by
  have hevents : hist ++ x.events s = hist ++ [.rd (regAddr s.cfg x.reg) (readValue x.reg s)]
      ++ [.wr (regAddr s.cfg x.reg) (x.value (readValue x.reg s))] := by
    simp [Rmw.events]
  rw [hevents]
  generalize hist ++ [Event.rd (regAddr s.cfg x.reg) (readValue x.reg s)] = hist'
  have hdone : writeReg x.reg (x.value (readValue x.reg s)) (s.inTurn rest (readValue x.reg s) hist' env)
      = .done (u.inTurn rest (readValue x.reg s) hist' env) :=
    (writeReg_inTurn _ _ _ _ x.reg _ s).trans (congrArg _ hwrite)
  rw [Rmw.runOp_store]
  exact memWrite_of_done hdone

/-- The environment after a turn. -/
def Env.afterTurn (e : Env) : Env := { e with sched := e.sched.tail, schedPos := e.schedPos + 1 }

theorem atHead_inTurn (hrun : s.status = .running) {later : List Agent} (hsched : env.sched = .seq :: later)
    (op : MicroOp) : AtHead (s.inTurn (op :: rest) tmp hist env) op rest :=
  ⟨hrun, by simp [nextAgent, State.inTurn, hsched], rfl⟩

theorem run_one (s : State) : run 1 s = step s := by
  rw [run]
  cases step s <;> rfl

/-- A read-modify-write at the head of the queue, run by the sequencer's own turns, fused or not. -/
theorem Rmw.run (hsilent : x.Silent) (hwrite : x.write s = .done u) (hrun : s.status = .running)
    {later : List Agent} (hsched : env.sched = List.replicate (Rmw.turns s.cfg) .seq ++ later) :
    ∃ env', env'.sched = later ∧
      Machine.run (Rmw.turns s.cfg) (s.inTurn (x.ops s.cfg ++ rest) tmp hist env)
        = .next (u.inTurn rest (readValue x.reg s) (hist ++ x.events s) env') := by
  by_cases hatomic : s.cfg.rmwAtomic = true
  · simp only [Rmw.turns, hatomic, if_true] at hsched ⊢
    have hstep : step (s.inTurn (x.ops s.cfg ++ rest) tmp hist env)
        = .next (u.inTurn rest (readValue x.reg s) (hist ++ x.events s) env.afterTurn) := by
      have hfused := step_of_fused (s := s.inTurn (x.ops s.cfg ++ rest) tmp hist env) (r := x.reg)
        (atHead_inTurn hrun hsched _) hatomic (x.storesTo_store s.cfg)
      rw [hsilent.readEffect, readValue_inTurn] at hfused
      exact hfused.trans (Rmw.runOp_store_inTurn hwrite)
    exact ⟨env.afterTurn, by simp [Env.afterTurn, hsched], by rw [run_one, hstep]⟩
  · have hsplit : s.cfg.rmwAtomic = false := Bool.eq_false_iff.2 hatomic
    have htwo : Rmw.turns s.cfg = 2 := by simp [Rmw.turns, hsplit]
    rw [htwo] at hsched ⊢
    have hnext : env.afterTurn.sched = .seq :: later := by simp [Env.afterTurn, hsched]
    have hload : step (s.inTurn (x.ops s.cfg ++ rest) tmp hist env)
        = .next (s.inTurn (x.store s.cfg :: rest) (readValue x.reg s)
            (hist ++ [.rd (regAddr s.cfg x.reg) (readValue x.reg s)]) env.afterTurn) := by
      have hldt := step_of_ldt (s := s.inTurn (x.ops s.cfg ++ rest) tmp hist env) (r := x.reg)
        (atHead_inTurn hrun hsched _) (by simp [fusesWith, State.inTurn, hsplit])
      rwa [hsilent.readEffect, readValue_inTurn] at hldt
    have hstore : step (s.inTurn (x.store s.cfg :: rest) (readValue x.reg s)
            (hist ++ [.rd (regAddr s.cfg x.reg) (readValue x.reg s)]) env.afterTurn)
        = .next (u.inTurn rest (readValue x.reg s) (hist ++ x.events s) env.afterTurn.afterTurn) :=
      (step_eq_runOp (atHead_inTurn hrun hnext _) fun a ha => absurd ha (x.store_ne_ldt _ a)).trans
        (Rmw.runOp_store_inTurn hwrite)
    exact ⟨env.afterTurn.afterTurn, by simp [Env.afterTurn, hsched],
      by rw [Machine.run, hload, andThen_next, run_one, hstore]⟩

/-! ### Sequences of read-modify-writes -/

/-- What a sequence of read-modify-writes does to the registers, each a completed write. -/
inductive Applies : List Rmw → State → State → Prop
  | nil (s : State) : Applies [] s s
  | cons {x : Rmw} {xs : List Rmw} {s u t : State} (hwrite : x.write s = .done u) (hrest : Applies xs u t) :
      Applies (x :: xs) s t

theorem Applies.append {xs ys : List Rmw} {s u t : State} (hx : Applies xs s u) (hy : Applies ys u t) :
    Applies (xs ++ ys) s t := by
  induction hx with
  | nil => exact hy
  | cons hwrite _ ih => exact .cons hwrite (ih hy)

/-- A queue of read-modify-writes, run by the sequencer's own turns to its end: their effect on the registers,
two events each, none of them on the bus. -/
theorem Applies.run {xs : List Rmw} {s t : State} (h : Applies xs s t) (hsilent : ∀ x ∈ xs, x.Silent)
    (hrun : s.status = .running) {c : Config} (hc : s.cfg = c) (rest : List MicroOp) (tmp : Word)
    (hist : List Event) {env : Env} {later : List Agent}
    (hsched : env.sched = List.replicate (Rmw.turns c * xs.length) .seq ++ later) :
    ∃ tmp' es env', es.length = 2 * xs.length ∧ busTrace es = [] ∧
      Machine.run (Rmw.turns c * xs.length) (s.inTurn (xs.flatMap (Rmw.ops c) ++ rest) tmp hist env)
        = .next (t.inTurn rest tmp' (hist ++ es) env') := by
  induction h generalizing tmp hist env with
  | nil s => exact ⟨tmp, [], env, rfl, rfl, by simp [Machine.run]⟩
  | @cons x xs s u t hwrite hrest ih =>
    subst hc
    obtain ⟨hx, hxs⟩ := List.forall_mem_cons.1 hsilent
    have hframe := writeReg_eq hwrite
    have hcfg : u.cfg = s.cfg := by rw [hframe]
    have hstatus : u.status = .running := by rw [hframe]; exact hrun
    rw [List.length_cons, Nat.mul_succ, Nat.add_comm, List.replicate_add, List.append_assoc] at hsched
    obtain ⟨env₁, hsched₁, hrun₁⟩ := Rmw.run (rest := xs.flatMap (Rmw.ops s.cfg) ++ rest)
      (tmp := tmp) (hist := hist) hx hwrite hrun hsched
    obtain ⟨tmp', es, env', hlen, hbus, hrun'⟩ :=
      ih hxs hstatus hcfg (readValue x.reg s) (hist ++ x.events s) hsched₁
    refine ⟨tmp', x.events s ++ es, env', ?_, hbus, ?_⟩
    · simp only [List.length_append, List.length_cons, hlen]
      change 2 + _ = _
      omega
    · rw [List.length_cons, Nat.mul_succ, Nat.add_comm, run_add, List.flatMap_cons, List.append_assoc,
        hrun₁, andThen_next, hrun', List.append_assoc]

end

end Sys2Proof.Machine
end

section
/-! INIT_BUS as a sequence of read-modify-writes, and what each of its parts does (42_businit R190
to R194). -/

namespace Sys2Proof.Machine

/-! ### Fields of a word -/

/-- Bit `i` of field `p`, when a value stands in field `q`: fields of width `w`, from bit 0 up. -/
theorem getLsbD_field {w : Nat} (x : BitVec w) (p q : Nat) {i : Nat} (hi : i < w) (hp : w * p + i < 32) :
    (x.setWidth 32 <<< (w * q)).getLsbD (w * p + i) = (decide (p = q) && x.getLsbD i) := by
  rw [BitVec.getLsbD_shiftLeft]
  obtain hlt | rfl | hgt := Nat.lt_trichotomy p q
  · have hle : w * (p + 1) ≤ w * q := Nat.mul_le_mul_left w hlt
    have hbelow : w * p + i < w * q := by rw [Nat.mul_succ] at hle; omega
    simp [hbelow, hlt.ne]
  · simp [hp]
    omega
  · have hle : w * (q + 1) ≤ w * p := Nat.mul_le_mul_left w hgt
    have habove : w ≤ w * p + i - w * q := by rw [Nat.mul_succ] at hle; omega
    simp [BitVec.getLsbD_of_ge _ _ habove, hgt.ne']

/-- A value stored in one 2-bit field at both pins: both fields hold it, the others are as before. -/
theorem pinField2_maskedInto_two2 (c : Config) (old : Word) (x : BitVec 2) (p : Fin 16) :
    pinField2 (maskedInto (two2 c 3) old (two2 c (x.setWidth 32))) p
      = if p = c.pinScl ∨ p = c.pinSda then x else pinField2 old p := by
  have hmask : (3 : Word) = (BitVec.allOnes 2).setWidth 32 := rfl
  have hbit {y : BitVec 2} {i : Nat} (hi : i < 2) : (two2 c (y.setWidth 32)).getLsbD (2 * p.val + i)
      = (decide (p = c.pinScl ∨ p = c.pinSda) && y.getLsbD i) := by
    have hp : 2 * p.val + i < 32 := by omega
    simp only [two2, BitVec.getLsbD_or, getLsbD_field _ _ _ hi hp, Fin.val_inj]
    by_cases hscl : p = c.pinScl <;> simp [hscl]
  apply BitVec.eq_of_getLsbD_eq
  intro i hi
  rw [hmask, pinField2, BitVec.getLsbD_extractLsb', getLsbD_maskedInto, hbit hi, hbit hi,
    BitVec.getLsbD_allOnes]
  by_cases hpin : p = c.pinScl ∨ p = c.pinSda
  · simp [hpin, hi]
  · simp [hpin, hi, pinField2]

/-- A nybble stored in one 4-bit field: the field holds it, the others are as before. -/
theorem extractLsb'_maskedInto_nybble (old : Word) (x : BitVec 4) {p q : Nat} (hp : p < 8) :
    (maskedInto (0xF#32 <<< (4 * q)) old (x.setWidth 32 <<< (4 * q))).extractLsb' (4 * p) 4
      = if p = q then x else old.extractLsb' (4 * p) 4 := by
  have hmask : 0xF#32 = (BitVec.allOnes 4).setWidth 32 := rfl
  apply BitVec.eq_of_getLsbD_eq
  intro i hi
  have hbit : 4 * p + i < 32 := by omega
  rw [hmask, BitVec.getLsbD_extractLsb', getLsbD_maskedInto, getLsbD_field _ _ _ hi hbit,
    getLsbD_field _ _ _ hi hbit, BitVec.getLsbD_allOnes]
  by_cases hpq : p = q
  · simp [hpq, hi]
  · simp [hpq, hi]

/-- The two alternate-function registers, by the pin's half (10_state R48). -/
theorem afrField_eq (g : Gpio) (n : Fin 16) :
    afrField g n = (if n.val < 8 then g.afrl else g.afrh).extractLsb' (4 * (n.val % 8)) 4 := by
  unfold afrField
  by_cases hn : n.val < 8
  · rw [if_pos hn, if_pos hn, Nat.mod_eq_of_lt hn]
  · have hmod : n.val % 8 = n.val - 8 := by omega
    rw [if_neg hn, if_neg hn, hmod]

/-- The bank with a pin's alternate function set (42_businit R193). -/
def setAfr (af : BitVec 4) (n : Fin 16) (g : Gpio) : Gpio :=
  let stored (old : Word) : Word :=
    maskedInto (0xF#32 <<< (4 * (n.val % 8))) old (af.setWidth 32 <<< (4 * (n.val % 8)))
  { g with
    afrl := if n.val < 8 then stored g.afrl else g.afrl
    afrh := if n.val < 8 then g.afrh else stored g.afrh }

theorem afrField_setAfr (af : BitVec 4) (n : Fin 16) (g : Gpio) (p : Fin 16) :
    afrField (setAfr af n g) p = if p = n then af else afrField g p := by
  have hp : p.val % 8 < 8 := Nat.mod_lt _ (by decide)
  simp only [afrField_eq, setAfr]
  by_cases hhalf : (p.val < 8 ↔ n.val < 8)
  · have heq : p = n ↔ p.val % 8 = n.val % 8 := by rw [Fin.ext_iff]; omega
    by_cases hlow : n.val < 8
    · simp only [hhalf.2 hlow, hlow, if_true, extractLsb'_maskedInto_nybble _ _ hp, heq]
    · simp only [mt hhalf.1 hlow, hlow, if_false, extractLsb'_maskedInto_nybble _ _ hp, heq]
  · have hne : p ≠ n := by rintro rfl; exact hhalf Iff.rfl
    by_cases hlow : n.val < 8
    · have hhigh : ¬ p.val < 8 := by omega
      simp only [hlow, hhigh, hne, if_true, if_false]
    · have hplow : p.val < 8 := by omega
      simp only [hlow, hplow, hne, if_true, if_false]

/-! ### The expansion as read-modify-writes -/

/-- The clocks (R191). -/
def clockRmws (c : Config) : List Rmw :=
  [.set .rccAhb1enr (1 <<< gpioBit c), .set .rccApb1enr (mI2c c)]

/-- The reset, by `RESET_STYLE` (R192). -/
def resetRmws (c : Config) : List Rmw :=
  match c.resetStyle with
  | .rcc => [.set .rccApb1rstr (mI2c c), .clear .rccApb1rstr (mI2c c)]
  | .swrst => [.set .i2cCr1 mSwrst, .clear .i2cCr1 mSwrst]

/-- A pin's alternate function (R190). -/
def afrRmw (c : Config) (n : Fin 16) : Rmw :=
  .field (if n.val < 8 then .gpioAfrl else .gpioAfrh) (0xF#32 <<< (4 * (n.val % 8)))
    (c.afNum.setWidth 32 <<< (4 * (n.val % 8)))

/-- The pins (R193). -/
def pinRmws (c : Config) : List Rmw :=
  [.field .gpioModer (two2 c 3) (two2 c 2), afrRmw c c.pinScl, afrRmw c c.pinSda,
    .set .gpioOtyper (pinBits c), .field .gpioOspeedr (two2 c 3) (two2 c 3),
    .field .gpioPupdr (two2 c 3) (two2 c 1)]

/-- The peripheral (R194). -/
def peripheralRmws (c : Config) : List Rmw :=
  [.clear .i2cCr1 mPe, .clear .i2cCcr mFs, .field .i2cCcr mCcr (BitVec.ofNat 32 (ccrVal c)),
    .set .i2cCr1 mPe]

/-- INIT_BUS (R190). -/
def initbusRmws (c : Config) : List Rmw :=
  clockRmws c ++ resetRmws c ++ pinRmws c ++ peripheralRmws c

theorem resetOps_eq (c : Config) : resetOps c = (resetRmws c).flatMap (Rmw.ops c) := by
  unfold resetOps resetRmws
  cases c.resetStyle <;> rfl

theorem initbusOps_eq (c : Config) : initbusOps c = (initbusRmws c).flatMap (Rmw.ops c) := by
  simp only [initbusOps, initbusRmws, resetOps_eq, List.flatMap_append, List.append_assoc]
  rfl

theorem initbusRmws_length (c : Config) : (initbusRmws c).length = 14 := by
  simp only [initbusRmws, resetRmws]
  cases c.resetStyle <;> rfl

theorem afrRmw_silent (c : Config) (n : Fin 16) : (afrRmw c n).Silent := by
  unfold afrRmw
  split <;> simp [Rmw.Silent, Rmw.reg]

/-- None of its registers is read with a side effect. -/
theorem initbusRmws_silent (c : Config) : ∀ x ∈ initbusRmws c, x.Silent := by
  have hreset : ∀ x ∈ resetRmws c, x.Silent := by
    unfold resetRmws
    split <;> simp [Rmw.Silent, Rmw.reg]
  have hpins : ∀ x ∈ pinRmws c, x.Silent := by
    simp only [pinRmws, List.forall_mem_cons, afrRmw_silent]
    simp [Rmw.Silent, Rmw.reg]
  simp only [initbusRmws, List.forall_mem_append]
  refine ⟨⟨⟨?_, hreset⟩, hpins⟩, ?_⟩
  · simp [clockRmws, Rmw.Silent, Rmw.reg]
  · simp [peripheralRmws, Rmw.Silent, Rmw.reg]

/-! ### Stores under a field mask -/

theorem getLsbD_of_and_eq {m x : Word} (h : x &&& m = x) {i : Nat} (hx : x.getLsbD i = true) :
    m.getLsbD i = true := by
  rw [← h, BitVec.getLsbD_and] at hx
  exact (Bool.and_eq_true_iff.1 hx).2

/-- Setting bits of the fields stores them. -/
theorem maskedInto_or {m x : Word} (h : x &&& m = x) (old : Word) :
    maskedInto m old (old ||| x) = old ||| x := by
  apply BitVec.eq_of_getLsbD_eq
  intro i hi
  rw [getLsbD_maskedInto, BitVec.getLsbD_or]
  by_cases hx : x.getLsbD i = true
  · simp [hx, getLsbD_of_and_eq h hx]
  · simp [hx]

/-- Clearing the bits just set leaves only them changed. -/
theorem maskedInto_or_and_not {m x : Word} (h : x &&& m = x) (old : Word) :
    maskedInto m (old ||| x) ((old ||| x) &&& ~~~x) = old &&& ~~~x := by
  apply BitVec.eq_of_getLsbD_eq
  intro i hi
  simp only [getLsbD_maskedInto, BitVec.getLsbD_and, BitVec.getLsbD_or, BitVec.getLsbD_not]
  by_cases hx : x.getLsbD i = true
  · simp [hx, getLsbD_of_and_eq h hx]
  · rw [Bool.not_eq_true] at hx
    simp only [hx, hi, decide_true, Bool.or_false, Bool.not_false, Bool.and_true, ite_self]

theorem gpioBit_field (c : Config) : (1 <<< gpioBit c : Word) &&& ahb1Fields = 1 <<< gpioBit c := by
  unfold gpioBit
  cases c.gpioPort <;> rfl

theorem mI2c_field (c : Config) : mI2c c &&& apb1Fields = mI2c c := by
  unfold mI2c i2cBit
  cases c.i2cInst <;> rfl

theorem mI2c_getLsbD (c : Config) : (mI2c c).getLsbD (i2cBit c) = true := by
  unfold mI2c i2cBit
  cases c.i2cInst <;> rfl

theorem pinBits_field (c : Config) : pinBits c &&& otyperFields = pinBits c := by
  have hbit : ∀ q : Fin 16,
      BitVec.ofNat 32 (1 <<< q.val) &&& otyperFields = BitVec.ofNat 32 (1 <<< q.val) := by decide
  rw [pinBits, BitVec.and_or_distrib_right]
  exact congrArg₂ (· ||| ·) (hbit c.pinScl) (hbit c.pinSda)

theorem pinBits_getLsbD (c : Config) (p : Fin 16) :
    (pinBits c).getLsbD p.val = decide (p = c.pinScl ∨ p = c.pinSda) := by
  have hbit (q : Fin 16) : (BitVec.ofNat 32 (1 <<< q.val)).getLsbD p.val = decide (p = q) := by
    have hp : p.val < 32 := by omega
    rw [BitVec.getLsbD_ofNat, Nat.one_shiftLeft, Nat.testBit_two_pow]
    simp [hp, Fin.ext_iff, eq_comm]
  rw [pinBits, BitVec.getLsbD_or, Bool.decide_or]
  exact congrArg₂ or (hbit c.pinScl) (hbit c.pinSda)

/-! ### What each part does -/

section
variable {s : State}

/-- Both clocks on (R191). -/
def clocksOn (s : State) : State :=
  { s with rcc := { s.rcc with
      ahb1enr := s.rcc.ahb1enr ||| (1 <<< gpioBit s.cfg)
      apb1enr := s.rcc.apb1enr ||| mI2c s.cfg } }

theorem applies_clockRmws (s : State) : Applies (clockRmws s.cfg) s (clocksOn s) := by
  have hahb : (Rmw.set .rccAhb1enr (1 <<< gpioBit s.cfg)).write s = .done
      { s with rcc := { s.rcc with ahb1enr := s.rcc.ahb1enr ||| (1 <<< gpioBit s.cfg) } } := by
    rw [← maskedInto_or (gpioBit_field s.cfg)]; rfl
  refine .cons hahb (.cons ?_ (.nil _))
  rw [clocksOn, ← maskedInto_or (mI2c_field s.cfg)]; rfl

/-- The reset bit of `APB1RSTR` is clear under `RESET_STYLE` RCC; the other style leaves it (R192). -/
def Rcc.resetReleased (c : Config) (k : Rcc) : Rcc :=
  if c.resetStyle = .rcc then { k with apb1rstr := k.apb1rstr &&& ~~~mI2c c } else k

/-- The peripheral reset and released (R192, R197, R198). -/
def peripheralReset (s : State) : State :=
  { s with
    rcc := s.rcc.resetReleased s.cfg
    i2c := I2cRegs.reset
    flags := I2cFlags.reset
    i2cp := { s.i2cp with ph := .idle, sr1Seen := false, inReset := false } }

theorem applies_resetRmws_of_rcc (hph : s.i2cp.ph = .idle) (hstyle : s.cfg.resetStyle = .rcc) :
    Applies (resetRmws s.cfg) s (peripheralReset s) := by
  have hassert : (Rmw.set .rccApb1rstr (mI2c s.cfg)).write s = .done (holdI2cReset
      { s with rcc := { s.rcc with apb1rstr := s.rcc.apb1rstr ||| mI2c s.cfg } }) := by
    rw [← maskedInto_or (mI2c_field s.cfg)]
    refine writeApb1rstr_asserts ?_ hph
    simp [Rmw.value, mI2c_getLsbD]
  have hrelease : (Rmw.clear .rccApb1rstr (mI2c s.cfg)).write (holdI2cReset
      { s with rcc := { s.rcc with apb1rstr := s.rcc.apb1rstr ||| mI2c s.cfg } })
        = .done (peripheralReset s) := by
    refine (writeApb1rstr_releases ?_).trans ?_
    · simp [Rmw.value, mI2c_getLsbD]
    · simp only [Rmw.value, Rmw.reg, readValue, Rcc.storeApb1rstr, holdI2cReset,
        maskedInto_or_and_not (mI2c_field s.cfg), peripheralReset, Rcc.resetReleased, hstyle, if_true]
  rw [resetRmws, hstyle]
  exact .cons hassert (.cons hrelease (.nil _))

theorem applies_resetRmws_of_swrst (hclocked : i2cClocked s = true) (hph : s.i2cp.ph = .idle)
    (hstyle : s.cfg.resetStyle = .swrst) :
    Applies (resetRmws s.cfg) s (peripheralReset s) := by
  have hassert : (Rmw.set .i2cCr1 mSwrst).write s
      = .done { holdI2cReset s with i2c := { I2cRegs.reset with cr1 := mSwrst } } := by
    refine writeCr1_asserts ?_ (cr1Lost_eq_false_of_swrst hclocked hstyle) hph
    rw [Rmw.value, BitVec.getLsbD_or]
    exact Bool.or_true _
  have hread : readValue .i2cCr1 { holdI2cReset s with i2c := { I2cRegs.reset with cr1 := mSwrst } }
      = mSwrst := readValue_cr1_of_swrst hclocked hstyle
  have hrelease : (Rmw.clear .i2cCr1 mSwrst).write
      { holdI2cReset s with i2c := { I2cRegs.reset with cr1 := mSwrst } } = .done (peripheralReset s) := by
    rw [Rmw.write, Rmw.reg, hread, Rmw.value, BitVec.and_not_self]
    refine (writeCr1_releases (s := { holdI2cReset s with i2c := _ }) rfl hclocked rfl hstyle).trans ?_
    rw [peripheralReset, Rcc.resetReleased, hstyle]
    rfl
  rw [resetRmws, hstyle]
  exact .cons hassert (.cons hrelease (.nil _))

theorem applies_resetRmws (hclocked : i2cClocked s = true) (hph : s.i2cp.ph = .idle) :
    Applies (resetRmws s.cfg) s (peripheralReset s) := by
  cases hstyle : s.cfg.resetStyle with
  | rcc => exact applies_resetRmws_of_rcc hph hstyle
  | swrst => exact applies_resetRmws_of_swrst hclocked hph hstyle

/-- What a read-modify-write does to a clocked bank. -/
def Gpio.rmw (g : Gpio) (x : Rmw) : Gpio := g.store x.reg (x.value (g.load x.reg))

theorem applies_of_gpioRegs {xs : List Rmw} (hxs : ∀ x ∈ xs, x.reg ∈ gpioRegs)
    (hon : gpioClocked s = true) : Applies xs s { s with gpio := xs.foldl Gpio.rmw s.gpio } := by
  induction xs generalizing s with
  | nil => exact .nil s
  | cons x xs ih =>
    obtain ⟨hx, hxs⟩ := List.forall_mem_cons.1 hxs
    have hwrite : x.write s = .done { s with gpio := s.gpio.rmw x } := by
      rw [Rmw.write, writeReg_of_gpioRegs _ s _ hx, writeGpio, readValue_of_gpioRegs s _ hx, hon]
      rfl
    exact .cons hwrite (ih (s := { s with gpio := s.gpio.rmw x }) hxs hon)

theorem Gpio.rmw_afrRmw (c : Config) (n : Fin 16) (g : Gpio) :
    g.rmw (afrRmw c n) = setAfr c.afNum n g := by
  unfold afrRmw setAfr
  split <;> rfl

/-- The bank with both pins configured (R193). -/
def Gpio.configured (c : Config) (g : Gpio) : Gpio :=
  let routed := setAfr c.afNum c.pinSda (setAfr c.afNum c.pinScl
    { g with moder := maskedInto (two2 c 3) g.moder (two2 c 2) })
  { routed with
    otyper := g.otyper ||| pinBits c
    ospeedr := maskedInto (two2 c 3) g.ospeedr (two2 c 3)
    pupdr := maskedInto (two2 c 3) g.pupdr (two2 c 1) }

theorem pinRmws_otyper (c : Config) (old : Word) :
    maskedInto otyperFields old (old &&& otyperFields ||| pinBits c) = old ||| pinBits c := by
  have hsame : (old &&& otyperFields ||| pinBits c) &&& otyperFields
      = (old ||| pinBits c) &&& otyperFields := by
    rw [BitVec.and_or_distrib_right, BitVec.and_or_distrib_right, BitVec.and_assoc, BitVec.and_self]
  rw [maskedInto, hsame]
  exact maskedInto_or (pinBits_field c) old

theorem foldl_pinRmws (c : Config) (g : Gpio) : (pinRmws c).foldl Gpio.rmw g = g.configured c := by
  simp only [pinRmws, List.foldl_cons, List.foldl_nil, Gpio.rmw_afrRmw, Gpio.configured]
  rw [← pinRmws_otyper]
  rfl

theorem pinRmws_gpioRegs (c : Config) : ∀ x ∈ pinRmws c, x.reg ∈ gpioRegs := by
  have hafr (n : Fin 16) : (afrRmw c n).reg ∈ gpioRegs := by
    unfold afrRmw
    split <;> simp [Rmw.reg, gpioRegs]
  simp only [pinRmws, List.forall_mem_cons, hafr]
  simp [Rmw.reg, gpioRegs]

/-- Both pins configured (R193). -/
def pinsConfigured (s : State) : State := { s with gpio := s.gpio.configured s.cfg }

theorem applies_pinRmws (hon : gpioClocked s = true) : Applies (pinRmws s.cfg) s (pinsConfigured s) := by
  rw [pinsConfigured, ← foldl_pinRmws]
  exact applies_of_gpioRegs (pinRmws_gpioRegs s.cfg) hon

/-- The I2C registers at reset but for `CR1` and `CCR`. -/
def State.withControl (s : State) (cr1 ccr : Word) : State :=
  { s with i2c := { I2cRegs.reset with cr1 := cr1, ccr := ccr } }

/-- An admitted divider fits the field `CCR` (00_scope R6). -/
theorem maskedInto_divider {n : Nat} (h : n ≤ 0xFFF) :
    maskedInto mCcr 0 (BitVec.ofNat 32 n) &&& ccrFields = BitVec.ofNat 32 n := by
  have hfields : mCcr &&& ccrFields = mCcr := rfl
  have hmask : mCcr.toNat = 2 ^ 12 - 1 := rfl
  have hsmall : n % 2 ^ 32 = n := Nat.mod_eq_of_lt (by omega)
  have hfits : BitVec.ofNat 32 n &&& mCcr = BitVec.ofNat 32 n := by
    apply BitVec.eq_of_toNat_eq
    rw [BitVec.toNat_and, BitVec.toNat_ofNat, hsmall, hmask, Nat.and_two_pow_sub_one_eq_mod]
    omega
  have hmasked : maskedInto mCcr 0 (BitVec.ofNat 32 n) = BitVec.ofNat 32 n &&& mCcr := by simp [maskedInto]
  rw [hmasked, BitVec.and_assoc, hfields, hfits]

/-- `CR1` written while it is 0, with no request and no transaction open. -/
theorem writeCr1_withControl {v ccr : Word} (hclocked : i2cClocked s = true)
    (hreset : s.i2cp.inReset = false) (hph : s.i2cp.ph = .idle) (hv : v = 0 ∨ v = 1) :
    writeCr1 v (s.withControl 0 ccr) = .done (s.withControl v ccr) := by
  have hacc : cr1Lost (s.withControl 0 ccr) = false := cr1Lost_eq_false hclocked hreset
  have hph' : (s.withControl 0 ccr).i2cp.ph = .idle := hph
  have hv' : v.getLsbD 15 = false ∧ v.getLsbD 8 = false ∧ cr1Unmodelled .idle 0 v = none ∧
      v &&& cr1Fields = v := by
    obtain rfl | rfl := hv <;> decide
  obtain ⟨hclear, hnostart, hmodelled, hkept⟩ := hv'
  refine (writeCr1_stores (s := s.withControl 0 ccr) hclear hreset hnostart hacc ?_).trans ?_
  · rw [hph']
    exact hmodelled
  · rw [setCr1, hkept]
    rfl

theorem applies_peripheralRmws (hclocked : i2cClocked s = true) (hreset : s.i2cp.inReset = false)
    (hph : s.i2cp.ph = .idle) (hdivider : ccrVal s.cfg ≤ 0xFFF) :
    Applies (peripheralRmws s.cfg) (s.withControl 0 0)
      (s.withControl 1 (BitVec.ofNat 32 (ccrVal s.cfg))) := by
  have hacc (ccr : Word) : i2cLost (s.withControl 0 ccr) = false := i2cLost_eq_false hclocked hreset
  have hcr1 (ccr : Word) : readValue .i2cCr1 (s.withControl 0 ccr) = 0 :=
    if_neg (Bool.eq_false_iff.1 (cr1Lost_eq_false hclocked hreset))
  have hccr (ccr : Word) : readValue .i2cCcr (s.withControl 0 ccr) = ccr :=
    if_neg (Bool.eq_false_iff.1 (hacc ccr))
  have hpe : (0 : Word).getLsbD 0 = false := by decide
  have hdisable : (Rmw.clear .i2cCr1 mPe).write (s.withControl 0 0) = .done (s.withControl 0 0) := by
    rw [Rmw.write, Rmw.reg, hcr1]
    exact writeCr1_withControl hclocked hreset hph (.inl rfl)
  have hmode : (Rmw.clear .i2cCcr mFs).write (s.withControl 0 0) = .done (s.withControl 0 0) := by
    rw [Rmw.write, Rmw.reg, hccr]
    exact writeCcr_of_disabled _ (hacc 0) hpe
  have hdivide : (Rmw.field .i2cCcr mCcr (BitVec.ofNat 32 (ccrVal s.cfg))).write (s.withControl 0 0)
      = .done (s.withControl 0 (BitVec.ofNat 32 (ccrVal s.cfg))) := by
    rw [Rmw.write, Rmw.reg, hccr, Rmw.value]
    refine (writeCcr_of_disabled _ (hacc 0) hpe).trans ?_
    rw [maskedInto_divider hdivider]
    rfl
  have henable : (Rmw.set .i2cCr1 mPe).write (s.withControl 0 (BitVec.ofNat 32 (ccrVal s.cfg)))
      = .done (s.withControl 1 (BitVec.ofNat 32 (ccrVal s.cfg))) := by
    rw [Rmw.write, Rmw.reg, hcr1]
    exact writeCr1_withControl hclocked hreset hph (.inr rfl)
  exact .cons hdisable (.cons hmode (.cons hdivide (.cons henable (.nil _))))

end

/-! ### The whole expansion -/

/-- The registers after INIT_BUS. -/
def busInitialised (s : State) : State :=
  { s with
    rcc := (clocksOn s).rcc.resetReleased s.cfg
    gpio := s.gpio.configured s.cfg
    i2c := { I2cRegs.reset with cr1 := 1, ccr := BitVec.ofNat 32 (ccrVal s.cfg) }
    flags := I2cFlags.reset
    i2cp := { s.i2cp with ph := .idle, sr1Seen := false, inReset := false } }

theorem clocksOn_gpioClocked (s : State) : gpioClocked (clocksOn s) = true := by
  have hbit : (1 <<< gpioBit s.cfg : Word).getLsbD (gpioBit s.cfg) = true := by
    unfold gpioBit
    cases s.cfg.gpioPort <;> rfl
  change (s.rcc.ahb1enr ||| 1 <<< gpioBit s.cfg).getLsbD (gpioBit s.cfg) = true
  rw [BitVec.getLsbD_or, hbit, Bool.or_true]

theorem clocksOn_i2cClocked (s : State) : i2cClocked (clocksOn s) = true := by
  change (s.rcc.apb1enr ||| mI2c s.cfg).getLsbD (i2cBit s.cfg) = true
  rw [BitVec.getLsbD_or, mI2c_getLsbD, Bool.or_true]

theorem Rcc.resetReleased_apb1rstr (c : Config) (k : Rcc) : (k.resetReleased c).apb1rstr
    = if c.resetStyle = .rcc then k.apb1rstr &&& ~~~mI2c c else k.apb1rstr := by
  unfold Rcc.resetReleased
  split <;> rfl

/-- Releasing the reset bit leaves the clocks. -/
theorem Rcc.resetReleased_ahb1enr (c : Config) (k : Rcc) : (k.resetReleased c).ahb1enr = k.ahb1enr := by
  unfold Rcc.resetReleased
  split <;> rfl

theorem Rcc.resetReleased_apb1enr (c : Config) (k : Rcc) : (k.resetReleased c).apb1enr = k.apb1enr := by
  unfold Rcc.resetReleased
  split <;> rfl

theorem peripheralReset_gpioClocked (s : State) : gpioClocked (peripheralReset s) = gpioClocked s :=
  congrArg (·.getLsbD (gpioBit s.cfg)) (s.rcc.resetReleased_ahb1enr s.cfg)

theorem peripheralReset_i2cClocked (s : State) : i2cClocked (peripheralReset s) = i2cClocked s :=
  congrArg (·.getLsbD (i2cBit s.cfg)) (s.rcc.resetReleased_apb1enr s.cfg)

theorem applies_initbusRmws {s : State} (hph : s.i2cp.ph = .idle) (hdivider : ccrVal s.cfg ≤ 0xFFF) :
    Applies (initbusRmws s.cfg) s (busInitialised s) := by
  have hgpio : gpioClocked (peripheralReset (clocksOn s)) = true :=
    (peripheralReset_gpioClocked _).trans (clocksOn_gpioClocked s)
  have hi2c : i2cClocked (peripheralReset (clocksOn s)) = true :=
    (peripheralReset_i2cClocked _).trans (clocksOn_i2cClocked s)
  have hreset : Applies (resetRmws s.cfg) (clocksOn s) (peripheralReset (clocksOn s)) :=
    applies_resetRmws (clocksOn_i2cClocked s) hph
  have hpins : Applies (pinRmws s.cfg) _ (pinsConfigured (peripheralReset (clocksOn s))) :=
    applies_pinRmws hgpio
  have hperipheral : Applies (peripheralRmws s.cfg) (pinsConfigured (peripheralReset (clocksOn s)))
      (busInitialised s) :=
    applies_peripheralRmws (s := pinsConfigured (peripheralReset (clocksOn s))) hi2c rfl rfl hdivider
  exact (((applies_clockRmws s).append hreset).append hpins).append hperipheral

/-! ### The pins of a configured bank -/

section
variable (c : Config) (g : Gpio) (p : Fin 16)

theorem configured_moder : pinField2 (g.configured c).moder p
    = if p = c.pinScl ∨ p = c.pinSda then 0b10 else pinField2 g.moder p :=
  pinField2_maskedInto_two2 c g.moder 0b10 p

theorem configured_ospeedr : pinField2 (g.configured c).ospeedr p
    = if p = c.pinScl ∨ p = c.pinSda then 0b11 else pinField2 g.ospeedr p :=
  pinField2_maskedInto_two2 c g.ospeedr 0b11 p

theorem configured_pupdr : pinField2 (g.configured c).pupdr p
    = if p = c.pinScl ∨ p = c.pinSda then 0b01 else pinField2 g.pupdr p :=
  pinField2_maskedInto_two2 c g.pupdr 0b01 p

theorem configured_otyper : (g.configured c).otyper.getLsbD p.val
    = (g.otyper.getLsbD p.val || decide (p = c.pinScl ∨ p = c.pinSda)) := by
  rw [← pinBits_getLsbD, ← BitVec.getLsbD_or]
  rfl

theorem configured_afr : afrField (g.configured c) p
    = if p = c.pinScl ∨ p = c.pinSda then c.afNum else afrField g p := by
  have hroute : afrField (g.configured c) p
      = afrField (setAfr c.afNum c.pinSda (setAfr c.afNum c.pinScl g)) p := rfl
  rw [hroute, afrField_setAfr, afrField_setAfr]
  by_cases hscl : p = c.pinScl <;> simp [hscl]

theorem configured_pinReady (h : p = c.pinScl ∨ p = c.pinSda) : pinReady c (g.configured c) p = true := by
  simp [pinReady, configured_moder, configured_afr, configured_otyper, configured_pupdr, h]

end

/-! ### The state INIT_BUS leaves -/

theorem divider_fields {n : Nat} (h : n ≤ 0xFFF) :
    (BitVec.ofNat 32 n).getLsbD 15 = false ∧ (BitVec.ofNat 32 n).extractLsb' 0 12 = BitVec.ofNat 12 n := by
  constructor
  · rw [BitVec.getLsbD_ofNat, Nat.testBit_lt_two_pow (by omega)]
    rfl
  · apply BitVec.eq_of_toNat_eq
    simp

theorem busInitialised_atRest {s : State} (hdivider : ccrVal s.cfg ≤ 0xFFF) :
    busAtRest (busInitialised s) = true := by
  have hgpio : gpioClocked (busInitialised s) = true :=
    (peripheralReset_gpioClocked (clocksOn s)).trans (clocksOn_gpioClocked s)
  have hi2c : i2cClocked (busInitialised s) = true :=
    (peripheralReset_i2cClocked (clocksOn s)).trans (clocksOn_i2cClocked s)
  have hscl : pinReady s.cfg (busInitialised s).gpio s.cfg.pinScl = true :=
    configured_pinReady s.cfg s.gpio _ (.inl rfl)
  have hsda : pinReady s.cfg (busInitialised s).gpio s.cfg.pinSda = true :=
    configured_pinReady s.cfg s.gpio _ (.inr rfl)
  have hcfg : (busInitialised s).cfg = s.cfg := rfl
  have hcr1 : (busInitialised s).i2c.cr1 = 1 := rfl
  have hccr : (busInitialised s).i2c.ccr = BitVec.ofNat 32 (ccrVal s.cfg) := rfl
  have hreset : (busInitialised s).i2cp.inReset = false := rfl
  have hph : (busInitialised s).i2cp.ph = .idle := rfl
  have hflags : (busInitialised s).flags = I2cFlags.reset := rfl
  obtain ⟨hstandard, hfield⟩ := divider_fields hdivider
  simp only [busAtRest, busReady, hgpio, hi2c, hcfg, hreset, hcr1, hccr, hstandard, hfield, hscl, hsda, hph,
    hflags, beq_self_eq_true]
  decide

theorem busAtRest_inTurn (s : State) (mq : List MicroOp) (tmp : Word) (hist : List Event) (env : Env) :
    busAtRest (s.inTurn mq tmp hist env) = busAtRest s := rfl

/-- Settles O44: the expansion is `initbusRmws`, and its effect on the registers is `busInitialised`. -/
theorem initBusMakesTheBusReady : Obligations.InitBusMakesTheBusReady := by
  intro s later hok hrun hq hph n hsched
  obtain ⟨-, -, -, hdivider, -⟩ := (configOk_iff s.cfg).1 hok
  have hn : n = Rmw.turns s.cfg * (initbusRmws s.cfg).length := by
    simp only [n, Rmw.turns, initbusRmws_length]
    split <;> rfl
  obtain ⟨tmp, es, env, hlen, hbus, hrunAll⟩ := (applies_initbusRmws hph hdivider).run
    (initbusRmws_silent s.cfg) hrun rfl [] s.tmp s.hist (hn ▸ hsched)
  have hself : s.inTurn s.mq s.tmp s.hist s.env = s := rfl
  rw [← hn, List.append_nil, ← initbusOps_eq, ← hq, hself] at hrunAll
  refine ⟨(busInitialised s).inTurn [] tmp (s.hist ++ es) env, hrunAll, rfl, hrun, rfl,
    ?atRest, rfl, ?busTrace, ?events, ?ahb1enr, ?apb1enr, ?apb1rstr, rfl,
    fun p hscl hsda => ?otherPins, ?scl, ?sda, rfl, rfl⟩
  case atRest => exact (busAtRest_inTurn _ _ _ _ _).trans (busInitialised_atRest hdivider)
  case busTrace =>
    change busTrace (s.hist ++ es) = _
    rw [busTrace, List.filter_append, ← busTrace, ← busTrace, hbus, List.append_nil]
  case events =>
    rw [initbusRmws_length] at hlen
    exact List.length_append.trans (congrArg _ hlen)
  case ahb1enr => exact (clocksOn s).rcc.resetReleased_ahb1enr s.cfg
  case apb1enr => exact (clocksOn s).rcc.resetReleased_apb1enr s.cfg
  case apb1rstr => exact (clocksOn s).rcc.resetReleased_apb1rstr s.cfg
  case otherPins =>
    have hother : ¬ (p = s.cfg.pinScl ∨ p = s.cfg.pinSda) := not_or.2 ⟨hscl, hsda⟩
    refine ⟨(configured_moder s.cfg s.gpio p).trans (if_neg hother),
      (configured_afr s.cfg s.gpio p).trans (if_neg hother), ?_,
      (configured_ospeedr s.cfg s.gpio p).trans (if_neg hother),
      (configured_pupdr s.cfg s.gpio p).trans (if_neg hother)⟩
    refine (configured_otyper s.cfg s.gpio p).trans ?_
    rw [decide_eq_false hother, Bool.or_false]
  case scl => exact (configured_ospeedr s.cfg s.gpio _).trans (if_pos (.inl rfl))
  case sda => exact (configured_ospeedr s.cfg s.gpio _).trans (if_pos (.inr rfl))

end Sys2Proof.Machine
end

section
/-! The bus trace (43_i2c R234, R238): only a turn of the peripheral writes to it, and the phase says where it
stands. -/

namespace Sys2Proof.Machine

/-! ### Who writes to the bus -/

theorem busTrace_append_bus {e : Event} (he : e.isBus = true) (h : List Event) :
    busTrace (h ++ [e]) = busTrace h ++ [e] := by
  simp [busTrace, he]

theorem busTrace_append_other {e : Event} (he : e.isBus = false) (h : List Event) :
    busTrace (h ++ [e]) = busTrace h := by
  simp [busTrace, he]

/-- A micro-operation puts nothing on the bus. -/
theorem OpEffect.busTrace {s t : State} {op : MicroOp} (h : OpEffect s op t) :
    busTrace t.hist = busTrace s.hist := by
  cases h with
  | read op r a => exact (busTrace_append_other rfl _).trans (congrArg _ (readEffect_hist r s))
  | write op a hwrite => rw [writeReg_eq hwrite]; exact busTrace_append_other rfl _
  | fault | string => exact busTrace_append_other rfl _
  | halt => rfl

theorem fetchStep_busTrace {s t : State} (h : fetchStep s = .next t) : busTrace t.hist = busTrace s.hist := by
  obtain ⟨-, rfl⟩ | ⟨w, why, -, -, rfl⟩ | ⟨w, i, ops, -, -, rfl⟩ := fetchStep_effect h
  · rfl
  · exact busTrace_append_other rfl _
  · rfl

/-- A turn of the counter puts nothing on the bus: its event is an underflow. -/
theorem stkStep_busTrace (s : State) : busTrace (stkStep s).hist = busTrace s.hist := by
  unfold stkStep countStep
  split
  · dsimp only
    split
    · rfl
    · split
      · exact busTrace_append_other rfl _
      · rfl
  · rfl

/-- Only a turn of the peripheral puts anything on the bus. -/
theorem step_busTrace {s t : State} (hother : nextAgent s ≠ .i2cp) (h : step s = .next t) :
    busTrace t.hist = busTrace s.hist := by
  obtain ⟨-, -, -, hfetch⟩ | ⟨-, -, hq, hrun⟩ | ⟨-, -, rfl⟩ | ⟨ha, -⟩ | ⟨-, -, rfl⟩ := step_cases h
  · exact (fetchStep_busTrace hfetch :)
  · obtain ⟨op, rest, hq⟩ := List.exists_cons_of_ne_nil hq
    obtain hop | ⟨-, r, a, st, -, hst⟩ := runQueue_effect (s := s.takeTurn) hq hrun
    · exact (hop.busTrace :)
    · exact hst.busTrace.trans (loaded_effect op s.takeTurn r a).busTrace
  · rfl
  · exact absurd ha hother
  · exact stkStep_busTrace s.takeTurn

/-! ### Where the bus stands -/

/-- Reading `SR2` after `SR1` goes on from ADDR_ACKED to TX_READY: the bus stands after the address in both
(43_i2c R228). -/
theorem readEffect_phaseBus {s : State} (hs : FlagsMatch s) (r : Reg) :
    phaseBus (readEffect r s).i2cp.ph = phaseBus s.i2cp.ph := by
  by_cases hr : r = .i2cSr2
  · subst hr
    rw [readEffect, sr2ReadEffect]
    split
    · rename_i hc
      simp only [Bool.and_eq_true] at hc
      rw [hs.addr.1 hc.1.2]
      rfl
    · rfl
  · rw [(readEffect_flags_ph hr s).2]

/-- A completed write moves the phase only where the bus stands still: a byte written to `DR`, or a reset in
phase IDLE (43_i2c R226, 42_businit R197, R198). -/
theorem writeReg_phaseBus {r : Reg} {v : Word} {s t : State} (h : writeReg r v s = .done t) :
    phaseBus t.i2cp.ph = phaseBus s.i2cp.ph := by
  cases r with
  | i2cCr1 =>
    obtain ⟨-, rfl⟩ | ⟨-, hswrst⟩ | ⟨-, -, rfl⟩ := writeCr1_done h
    · rfl
    · obtain ⟨-, hph, rfl⟩ | ⟨-, rfl⟩ := writeSwrst_done hswrst
      · rw [hph]; rfl
      · rfl
    · rfl
  | i2cDr =>
    obtain ⟨-, rfl⟩ | ⟨-, hph, -, rfl⟩ | ⟨-, hph, -, rfl⟩ := writeDr_done h
    · rfl
    · rw [hph]; rfl
    · rw [hph]; rfl
  | rccApb1rstr =>
    obtain ⟨-, hph, rfl⟩ | ⟨-, rfl⟩ := writeApb1rstr_done h
    · rw [hph]; rfl
    · rfl
  | _ => rw [(writeReg_frame h).i2cp (by decide)]

theorem OpEffect.phaseBus {s t : State} {op : MicroOp} (hs : FlagsMatch s) (h : OpEffect s op t) :
    phaseBus t.i2cp.ph = phaseBus s.i2cp.ph := by
  cases h with
  | read op r => exact readEffect_phaseBus hs r
  | write op a hwrite => exact (writeReg_phaseBus hwrite :)
  | fault | string | halt => rfl

/-- A turn that is not the peripheral's leaves the bus where it stands. -/
theorem step_phaseBus {s t : State} (hs : FlagsMatch s) (hother : nextAgent s ≠ .i2cp)
    (h : step s = .next t) : phaseBus t.i2cp.ph = phaseBus s.i2cp.ph := by
  have hturn : FlagsMatch s.takeTurn := hs.congr rfl rfl
  obtain ⟨-, -, -, hfetch⟩ | ⟨-, -, hq, hrun⟩ | ⟨-, -, rfl⟩ | ⟨ha, -⟩ | ⟨-, -, rfl⟩ := step_cases h
  · rw [fetchStep_eq hfetch]; rfl
  · obtain ⟨op, rest, hq⟩ := List.exists_cons_of_ne_nil hq
    obtain hop | ⟨-, r, a, st, -, hst⟩ := runQueue_effect (s := s.takeTurn) hq hrun
    · exact (hop.phaseBus hturn :)
    · have hloaded : FlagsMatch (loaded s.takeTurn r a) := (hturn.of_readEffect r).congr rfl rfl
      exact (hst.phaseBus hloaded).trans (readEffect_phaseBus hturn r)
  · rfl
  · exact absurd ha hother
  · rw [stkStep_eq]; rfl

/-! ### The walk of the trace -/

theorem busWalk_append (b : BusState) (es fs : List Event) :
    busWalk b (es ++ fs) = (busWalk b es).bind fun b' => busWalk b' fs := by
  induction es generalizing b with
  | nil => rfl
  | cons e es ih => simp only [List.cons_append, busWalk, ih, Option.bind_assoc]

/-- One more bus event, from where the trace stands. -/
theorem busWalk_append_bus {b b' : BusState} {h : List Event} {e : Event} (he : e.isBus = true)
    (hnext : busNext b e = some b') (hwalk : busWalk .quiet (busTrace h) = some b) :
    busWalk .quiet (busTrace (h ++ [e])) = some b' := by
  rw [busTrace_append_bus he, busWalk_append, hwalk, Option.bind_some, busWalk, hnext]
  rfl

/-- Each step of the peripheral that emits an event moves the phase along with the walk (43_i2c R224 to
R231). -/
theorem I2cpEffect.busWalk {s t : State} (h : I2cpEffect s t)
    (hwalk : busWalk .quiet (busTrace s.hist) = some (phaseBus s.i2cp.ph)) :
    busWalk .quiet (busTrace t.hist) = some (phaseBus t.i2cp.ph) := by
  cases h with
  | stay => exact hwalk
  | start hacc hph => rw [hph] at hwalk; exact busWalk_append_bus rfl rfl hwalk
  | address hacc hph =>
    rw [hph] at hwalk
    cases nextAck s <;> exact busWalk_append_bus (h := s.hist) rfl rfl hwalk
  | shiftLoad hacc hph => rw [hph] at hwalk; exact hwalk
  | data hacc hph =>
    rw [hph] at hwalk
    cases nextAck s <;> exact busWalk_append_bus (h := s.hist) rfl rfl hwalk
  | stop hacc hph => rw [hph] at hwalk; exact busWalk_append_bus rfl rfl hwalk

/-- Settles O40: the peripheral's turn adds the event its phase allows, and no other turn moves the trace or
where the bus stands. -/
theorem busTraceMatchesPhaseIsKept : Obligations.BusTraceMatchesPhaseIsKept := by
  intro s t hwalk hflags h
  by_cases hi2cp : nextAgent s = .i2cp
  · rw [step_eq_of_i2cp hi2cp h]
    exact (i2cpStep_effect s.takeTurn).busWalk hwalk
  · rw [step_busTrace hi2cp h, step_phaseBus ((flagsMatchPhase_iff s).1 hflags) hi2cp h]
    exact hwalk

end Sys2Proof.Machine
end

section
/-! The I2C block's registers and steps, one case each: I2CW's start (43_i2c R220), the status reads (R225,
R228), writes of `DR` and `CR1` (R226, R223), and the turns of the peripheral (R222 to R231). -/

namespace Sys2Proof.Machine

/-! ### The start of I2CW (R220) -/

theorem addrByte_setWidth (a : BitVec 7) : (addrByte a).setWidth 32 = a.setWidth 32 <<< 1 := by
  apply BitVec.eq_of_getLsbD_eq
  intro i hi
  interval_cases i <;> simp [addrByte]

/-- Settles O8: the expansion's addresses written out from `B_I2C`, its masks as numbers. -/
theorem i2cwStarts : Obligations.I2cwStarts := by
  intro a b s base
  have hops : i2cwOps s.cfg a b =
      [.ldt base, .stor base 0x100, .poll (base + 0x14) 0x1, .wr (base + 0x10) (a.setWidth 32 <<< 1),
        .poll (base + 0x14) 0x2, .rd (base + 0x14), .rd (base + 0x18), .poll (base + 0x14) 0x80,
        .wr (base + 0x10) (b.setWidth 32), .poll (base + 0x14) 0x4, .ldt base, .stor base 0x200] := by
    rw [i2cwOps, regAddr_i2cCr1, addrByte_setWidth]
    rfl
  rw [← hops]
  rfl

/-! ### Status reads (R225, R228) -/

theorem sr1View_getLsbD (f : I2cFlags) (i : Nat) :
    (sr1View f).getLsbD i =
      ((i == 0 && f.sb) || (i == 1 && f.addr) || (i == 2 && f.btf) || (i == 7 && f.txe)
        || (i == 10 && f.af)) := by
  simp [sr1View, flagBit_getLsbD, beq_eq_decide, Bool.and_comm]

theorem sr2View_getLsbD (f : I2cFlags) (i : Nat) :
    (sr2View f).getLsbD i = ((i == 0 && f.msl) || (i == 1 && f.busy) || (i == 2 && f.tra)) := by
  simp [sr2View, flagBit_getLsbD, beq_eq_decide, Bool.and_comm]

/-- A status register that is not lost reads its view. -/
theorem readValue_sr1 {s : State} (hacc : i2cLost s = false) : readValue .i2cSr1 s = sr1View s.flags :=
  if_neg (Bool.eq_false_iff.1 hacc)

theorem readValue_sr2 {s : State} (hacc : i2cLost s = false) : readValue .i2cSr2 s = sr2View s.flags :=
  if_neg (Bool.eq_false_iff.1 hacc)

theorem sr1ReadEffect_of_acc {s : State} (hacc : i2cLost s = false) :
    sr1ReadEffect s = { s with i2cp := { s.i2cp with sr1Seen := s.i2cp.sr1Seen || s.flags.addr } } := by
  unfold sr1ReadEffect
  cases haddr : s.flags.addr <;> simp [hacc]

theorem sr2ReadEffect_of_seen {s : State} (hacc : i2cLost s = false) (haddr : s.flags.addr = true)
    (hseen : s.i2cp.sr1Seen = true) :
    sr2ReadEffect s = { s with
      flags := { s.flags with addr := false, txe := true }
      i2cp := { s.i2cp with sr1Seen := false, ph := .txReady } } := by
  simp [sr2ReadEffect, hacc, haddr, hseen]

theorem sr2ReadEffect_of_unseen {s : State} (h : (s.flags.addr && s.i2cp.sr1Seen) = false) :
    sr2ReadEffect s = s := by
  simp [sr2ReadEffect, Bool.and_assoc, h]

/-- Settles O21: the views bit by bit, and the two reads' effects. -/
theorem statusReadsAndAddrClearing : Obligations.StatusReadsAndAddrClearing := by
  intro s hclocked hreset
  have hacc : i2cLost s = false := i2cLost_eq_false hclocked hreset
  rw [readValue_sr1 hacc, readValue_sr2 hacc]
  exact ⟨fun i _ => sr1View_getLsbD s.flags i, sr1ReadEffect_of_acc hacc,
    fun i _ => sr2View_getLsbD s.flags i, sr2ReadEffect_of_seen hacc, sr2ReadEffect_of_unseen⟩

/-! ### Writes of `DR` (R226) -/

theorem writeDr_address {s : State} (v : Word) (hacc : i2cLost s = false) (hph : s.i2cp.ph = .startDone)
    (hsb : s.flags.sb = true) :
    writeDr v s = .done { s with
      i2c := { s.i2c with dr := v.setWidth 8 }
      i2cp := { s.i2cp with shift := v.setWidth 8, ph := .addrTx }
      flags := { s.flags with sb := false } } := by
  simp [writeDr, hacc, hph, hsb]

theorem writeDr_data {s : State} (v : Word) (hacc : i2cLost s = false) (hph : s.i2cp.ph = .txReady)
    (htxe : s.flags.txe = true) :
    writeDr v s = .done { s with
      i2c := { s.i2c with dr := v.setWidth 8 }
      i2cp := { s.i2cp with ph := .dataLoaded }
      flags := { s.flags with txe := false } } := by
  simp [writeDr, hacc, hph, htxe]

theorem writeDr_faults {s : State} (v : Word) (hacc : i2cLost s = false)
    (haddress : ¬ (s.i2cp.ph = .startDone ∧ s.flags.sb = true))
    (hdata : ¬ (s.i2cp.ph = .txReady ∧ s.flags.txe = true)) :
    writeDr v s = periphFault s .drWriteInPhase := by
  simp [writeDr, hacc, haddress, hdata]

/-- Settles O22: the three cases of a `DR` write that is not lost. -/
theorem dataRegisterWrite : Obligations.DataRegisterWrite := by
  intro s v hclocked hreset
  have hacc : i2cLost s = false := i2cLost_eq_false hclocked hreset
  exact ⟨writeDr_address v hacc, writeDr_data v hacc, writeDr_faults v hacc⟩

/-! ### Writes of `CR1` (R223) -/

/-- A write that leaves the software-reset bit 0, of a block that is not in reset, is none of item 1. -/
theorem not_swrst_write {s : State} {v : Word} (hset : v.getLsbD 15 = false) (hreleased : s.i2cp.inReset = false) :
    ¬ (v.getLsbD 15 = true ∨ (s.i2cp.inReset = true ∧ s.cfg.resetStyle = .swrst)) := by
  rw [hset, hreleased]
  rintro (h | ⟨h, -⟩) <;> cases h

/-- R223's start check for a write that item 1 does not take, the block gated or not. -/
theorem writeCr1_not_ready {s : State} {v : Word}
    (hswrst : ¬ (v.getLsbD 15 = true ∨ (s.i2cp.inReset = true ∧ s.cfg.resetStyle = .swrst)))
    (hready : v.getLsbD 8 = true ∧ busReady (setCr1 v s) = false) :
    writeCr1 v s = .raises (.busNotReady (currentCommand s) v) := by
  rw [writeCr1, if_neg (by simpa using hswrst), if_pos (by simpa using hready)]

/-- R223 after the start check: the lost write, the unmodelled cases, the store (items 3 to 5). -/
theorem writeCr1_checked {s : State} {v : Word}
    (hswrst : ¬ (v.getLsbD 15 = true ∨ (s.i2cp.inReset = true ∧ s.cfg.resetStyle = .swrst)))
    (hready : ¬ (v.getLsbD 8 = true ∧ busReady (setCr1 v s) = false)) :
    writeCr1 v s = if cr1Lost s then .done s else
      (cr1Unmodelled s.i2cp.ph s.i2c.cr1 v).elim (.done (setCr1 v s)) (periphFault s) := by
  rw [writeCr1, if_neg (by simpa using hswrst), if_neg (by simpa using hready)]
  cases cr1Unmodelled s.i2cp.ph s.i2c.cr1 v <;> rfl

/-- R223's item 4 in the rule's words: the first case that holds. -/
theorem cr1Unmodelled_cases (ph : Phase) (old v : Word) :
    let spurious := v.getLsbD 9 = true ∧ old.getLsbD 9 = false ∧ ph ≠ .dataDone
    let repeated := v.getLsbD 8 = true ∧ old.getLsbD 8 = false ∧
      ((ph ≠ .idle ∧ ph ≠ .dataDone) ∨ (ph = .dataDone ∧ v.getLsbD 9 = false))
    let withdrawn := (old.getLsbD 8 = true ∧ v.getLsbD 8 = false) ∨
      (old.getLsbD 9 = true ∧ v.getLsbD 9 = false)
    let disabled := v.getLsbD 0 = false ∧ ph ≠ .idle
    (spurious → cr1Unmodelled ph old v = some .spuriousStop) ∧
    (¬ spurious → repeated → cr1Unmodelled ph old v = some .repeatedStart) ∧
    (¬ spurious → ¬ repeated → withdrawn → cr1Unmodelled ph old v = some .requestWithdrawn) ∧
    (¬ spurious → ¬ repeated → ¬ withdrawn → disabled →
      cr1Unmodelled ph old v = some .disableDuringTransaction) ∧
    (¬ spurious → ¬ repeated → ¬ withdrawn → ¬ disabled → cr1Unmodelled ph old v = none) := by
  intro spurious repeated withdrawn disabled
  have heq : cr1Unmodelled ph old v = if spurious then some .spuriousStop
      else if repeated then some .repeatedStart else if withdrawn then some .requestWithdrawn
      else if disabled then some .disableDuringTransaction else none := by
    simp [cr1Unmodelled, spurious, repeated, withdrawn, disabled, and_assoc]
  rw [heq]
  refine ⟨?_, ?_, ?_, ?_, ?_⟩ <;> intros <;> simp only [*, if_true, if_false]

/-- Settles O23: R223's items as `writeCr1` takes them, the fourth by `cr1Unmodelled_cases`. -/
theorem controlRegisterWrite : Obligations.ControlRegisterWrite := by
  intro s v old asIf fault swrst gated notReady spurious repeated withdrawn disabled
  have hgated : cr1Lost s = true ↔ gated := cr1Lost_iff s
  have hacc (h : ¬ gated) : cr1Lost s = false := Bool.eq_false_iff.2 (mt hgated.1 h)
  have hitem1 (h : swrst) : writeReg .i2cCr1 v s = if cr1Lost s then .done s else writeSwrst v s :=
    writeCr1_of_swrst h
  refine ⟨fun h hg => (hitem1 h).trans (if_pos (hgated.2 hg)), fun h hg => ?reset,
    fun h hready => writeCr1_not_ready h hready, fun h hready hg => ?lost, fun h hready hg => ?checked⟩
  case reset =>
    rw [hitem1 h, hacc hg]
    exact ⟨writeSwrst_of_idle, writeSwrst_of_open, writeSwrst_of_release⟩
  case lost => exact (writeCr1_checked h hready).trans (if_pos (hgated.2 hg))
  case checked =>
    have hwrite : writeReg .i2cCr1 v s = (cr1Unmodelled s.i2cp.ph s.i2c.cr1 v).elim (.done asIf) fault :=
      (writeCr1_checked h hready).trans (if_neg (Bool.eq_false_iff.1 (hacc hg)))
    obtain ⟨hspurious, hrepeated, hwithdrawn, hdisabled, hnone⟩ := cr1Unmodelled_cases s.i2cp.ph s.i2c.cr1 v
    rw [hwrite]
    exact ⟨fun h1 => by rw [hspurious h1]; rfl, fun h1 h2 => by rw [hrepeated h1 h2]; rfl,
      fun h1 h2 h3 => by rw [hwithdrawn h1 h2 h3]; rfl,
      fun h1 h2 h3 h4 => by rw [hdisabled h1 h2 h3 h4]; rfl,
      fun h1 h2 h3 h4 => by rw [hnone h1 h2 h3 h4]; rfl⟩

/-! ### Turns of the peripheral (R222 to R231) -/

/-- A step in the peripheral's turn is its turn. -/
theorem step_of_i2cp {s : State} (hf : s.hasFaulted = false) (hi2cp : nextAgent s = .i2cp) :
    step s = .next (i2cpStep s.takeTurn) := by
  rw [step_eq hf, hi2cp]; rfl

section
variable {s : State}

theorem i2cpStep_start (hacc : accessible s = true) (hph : s.i2cp.ph = .idle)
    (hstart : s.i2c.cr1.getLsbD 8 = true) : i2cpStep s = startStep s := by
  simp [i2cpStep, hacc, hph, hstart]

theorem i2cpStep_address (hacc : accessible s = true) (hph : s.i2cp.ph = .addrTx) :
    i2cpStep s = addressStep (nextAck s) s.takeAck := by
  simp [i2cpStep, hacc, hph]

theorem i2cpStep_shiftLoad (hacc : accessible s = true) (hph : s.i2cp.ph = .dataLoaded) :
    i2cpStep s = shiftLoadStep s := by
  simp [i2cpStep, hacc, hph]

theorem i2cpStep_data (hacc : accessible s = true) (hph : s.i2cp.ph = .dataTx) :
    i2cpStep s = dataStep (nextAck s) s.takeAck := by
  simp [i2cpStep, hacc, hph]

theorem i2cpStep_stop (hacc : accessible s = true) (hph : s.i2cp.ph = .dataDone)
    (hstop : s.i2c.cr1.getLsbD 9 = true) : i2cpStep s = stopStep s := by
  simp [i2cpStep, hacc, hph, hstop]

theorem i2cpStep_waits (hph : s.i2cp.ph ∈ [Phase.startDone, .addrAcked, .txReady, .nacked]) :
    i2cpStep s = s := by
  simp only [List.mem_cons, List.not_mem_nil, or_false] at hph
  obtain hph | hph | hph | hph := hph <;> simp [i2cpStep, hph]

theorem i2cpStep_no_start (hph : s.i2cp.ph = .idle) (hstart : s.i2c.cr1.getLsbD 8 = false) :
    i2cpStep s = s := by
  simp only [i2cpStep, hph, hstart, Bool.false_eq_true, if_false, ite_self]

theorem i2cpStep_no_stop (hph : s.i2cp.ph = .dataDone) (hstop : s.i2c.cr1.getLsbD 9 = false) :
    i2cpStep s = s := by
  simp only [i2cpStep, hph, hstop, Bool.false_eq_true, if_false, ite_self]

end

/-- Settles O32: the turn is one no guard of `i2cpStep` admits. -/
theorem peripheralIdlesWithoutItsGuard : Obligations.PeripheralIdlesWithoutItsGuard := by
  intro s hf hi2cp hguard
  rw [step_of_i2cp hf hi2cp]
  obtain hacc | hph | ⟨hph, hstart⟩ | ⟨hph, hstop⟩ := hguard
  · rw [i2cpStep_inaccessible (s := s.takeTurn) hacc]
  · rw [i2cpStep_waits (s := s.takeTurn) hph]
  · rw [i2cpStep_no_start (s := s.takeTurn) hph hstart]
  · rw [i2cpStep_no_stop (s := s.takeTurn) hph hstop]

/-- Settles O31: each step of the peripheral for the answer drawn; `0x4E` is the expander's address byte. -/
theorem addressAndDataPhases : Obligations.AddressAndDataPhases := by
  intro s hf hi2cp hacc drawn
  have hturn := step_of_i2cp hf hi2cp
  have hack : nextAck s.takeTurn = nextAck s := rfl
  have hdrawn : s.takeTurn.takeAck = drawn := rfl
  refine ⟨fun hph hk => ?_, fun hph hk => ?_, fun hph => ?_, fun hph hk => ?_, fun hph hk => ?_⟩
  · rw [hturn, i2cpStep_address (s := s.takeTurn) hacc hph, hack, hk, hdrawn]; rfl
  · rw [hturn, i2cpStep_address (s := s.takeTurn) hacc hph, hack, hk, hdrawn]; rfl
  · rw [hturn, i2cpStep_shiftLoad (s := s.takeTurn) hacc hph]; rfl
  · rw [hturn, i2cpStep_data (s := s.takeTurn) hacc hph, hack, hk, hdrawn]; rfl
  · rw [hturn, i2cpStep_data (s := s.takeTurn) hacc hph, hack, hk, hdrawn]; rfl

/-! ### Phase NACKED -/

/-- Only phase NACKED has the bus after a NACK. -/
theorem eq_nacked_of_phaseBus {ph : Phase} (h : phaseBus ph = .nacked) : ph = .nacked := by
  cases ph with
  | nacked => rfl
  | _ => cases h

/-- Settles O30: a NACK leaves the bus in a state no turn leaves, and start and stop generation are steps of
`i2cpStep`. -/
theorem startAndStopGeneration : Obligations.StartAndStopGeneration := by
  refine ⟨fun s t hflags hph h => ?nacked, fun s hf hi2cp hacc => ⟨fun hstart hph => ?start,
    fun hstop hph => ?stop⟩⟩
  case nacked =>
    by_cases hi2cp : nextAgent s = .i2cp
    · rw [step_eq_of_i2cp hi2cp h, i2cpStep_waits (s := s.takeTurn) (by simp [hph])]
      exact hph
    · have hbus := step_phaseBus ((flagsMatchPhase_iff s).1 hflags) hi2cp h
      exact eq_nacked_of_phaseBus (hbus.trans (congrArg phaseBus hph))
  case start => rw [step_of_i2cp hf hi2cp, i2cpStep_start (s := s.takeTurn) hacc hph hstart]; rfl
  case stop => rw [step_of_i2cp hf hi2cp, i2cpStep_stop (s := s.takeTurn) hacc hph hstop]; rfl

end Sys2Proof.Machine
end

section
/-! The poll that a NACK leaves for ever (43_i2c R236), and the race of a stop with a start request (R239). -/

namespace Sys2Proof.Machine

/-! ### The poll after a NACK -/

/-- A poll for ADDR or BTF at the head of the queue in phase NACKED, both flags 0. -/
structure NackedPoll (cp : Nat) (mq : List MicroOp) (s : State) : Prop where
  cp : s.cp = cp
  mq : s.mq = mq
  running : s.status = .running
  ph : s.i2cp.ph = .nacked
  addr : s.flags.addr = false
  btf : s.flags.btf = false

/-- A lost `SR1` reads 0, so no poll of it is successful. -/
theorem flags_of_poll {s : State} {m : Word} (hm : m ≠ 0) (h : readValue .i2cSr1 s &&& m = m) :
    sr1View s.flags &&& m = m := by
  cases hlost : i2cLost s with
  | true =>
    have hzero : readValue .i2cSr1 s = 0 := if_pos hlost
    rw [hzero] at h
    exact absurd (BitVec.zero_and.symm.trans h).symm hm
  | false => rwa [readValue_sr1 hlost] at h

/-- The poll for ADDR or for BTF is unsuccessful while both flags are 0. -/
theorem NackedPoll.unsuccessful {cp : Nat} {mq : List MicroOp} {s : State} {m : Word} (h : NackedPoll cp mq s)
    (hm : m = mAddr ∨ m = mBtf) : ¬ readValue .i2cSr1 s &&& m = m := by
  intro hread
  obtain rfl | rfl := hm
  · exact Bool.eq_false_iff.1 h.addr ((sr1View_addr _).1 (flags_of_poll (by decide) hread))
  · exact Bool.eq_false_iff.1 h.btf ((sr1View_btf _).1 (flags_of_poll (by decide) hread))

theorem NackedPoll.step {c : Config} {cp : Nat} {rest : List MicroOp} {s : State} {m : Word}
    (hc : s.cfg = c) (hm : m = mAddr ∨ m = mBtf)
    (h : NackedPoll cp (.poll (regAddr c .i2cSr1) m :: rest) s) :
    ∃ t, step s = .next t ∧ t.cfg = c ∧ NackedPoll cp (.poll (regAddr c .i2cSr1) m :: rest) t := by
  subst hc
  have hunsuccessful := h.unsuccessful hm
  obtain ⟨hcp, hq, hrun, hph, haddr, hbtf⟩ := h
  have hf : s.hasFaulted = false := by simp [State.hasFaulted, hrun]
  cases ha : nextAgent s with
  | seq =>
    have hpoll := pollPopsOrStays s .i2cSr1 m rest ⟨hrun, ha, hq⟩
    rw [if_neg hunsuccessful] at hpoll
    obtain ⟨hflags, hph'⟩ := readEffect_flags_ph (r := .i2cSr1) (by decide) s.takeTurn
    refine ⟨_, hpoll, readEffect_cfg _ s.takeTurn, (readEffect_cp _ s.takeTurn).trans hcp, hq,
      (readEffect_status _ s.takeTurn).trans hrun, hph'.trans hph, ?_, ?_⟩
    · exact (congrArg I2cFlags.addr hflags).trans haddr
    · exact (congrArg I2cFlags.btf hflags).trans hbtf
  | i2cp =>
    have hturn := step_of_i2cp hf ha
    rw [i2cpStep_waits (s := s.takeTurn) (by simp [hph])] at hturn
    exact ⟨_, hturn, rfl, hcp, hq, hrun, hph, haddr, hbtf⟩
  | stk =>
    refine ⟨_, step_of_stk hf ha, ?_⟩
    rw [stkStep_eq]
    exact ⟨rfl, hcp, hq, hrun, hph, haddr, hbtf⟩

theorem NackedPoll.run {c : Config} {cp : Nat} {rest : List MicroOp} {m : Word} (n : Nat) {s : State}
    (hc : s.cfg = c) (hm : m = mAddr ∨ m = mBtf)
    (h : NackedPoll cp (.poll (regAddr c .i2cSr1) m :: rest) s) :
    ∃ t, run n s = .next t ∧ NackedPoll cp (.poll (regAddr c .i2cSr1) m :: rest) t := by
  induction n generalizing s with
  | zero => exact ⟨s, rfl, h⟩
  | succ n ih =>
    obtain ⟨u, hstep, hcfg, hu⟩ := h.step hc hm
    obtain ⟨t, hrun, ht⟩ := ih hcfg hu
    exact ⟨t, by rw [Machine.run, hstep]; exact hrun, ht⟩

/-- Settles O49: every step of the poll after a NACK is a next state that is one again. -/
theorem nackHangsThePoll : Obligations.NackHangsThePoll := by
  intro s m rest n hrun hm hq hph haddr hbtf
  have hpoll : NackedPoll s.cp (.poll (regAddr s.cfg .i2cSr1) m :: rest) s :=
    ⟨rfl, hq, hrun, hph, haddr, hbtf⟩
  obtain ⟨t, ht, hcp, hmq, hrun, hph, -, -⟩ := hpoll.run n rfl hm
  exact ⟨t, ht, hmq.trans hq.symm, hcp, hrun, hph⟩

/-! ### The race -/

/-- A ready bus is clocked, out of reset and enabled (42_businit R195). -/
theorem busReady_parts {s : State} (h : busReady s = true) :
    i2cClocked s = true ∧ s.i2cp.inReset = false ∧ s.i2c.cr1.getLsbD 0 = true := by
  simp only [busReady, Bool.and_eq_true, Bool.not_eq_eq_eq_not, Bool.not_true] at h
  obtain ⟨⟨⟨⟨⟨⟨⟨-, hclocked⟩, hreset⟩, hpe⟩, -⟩, -⟩, -⟩, -⟩ := h
  exact ⟨hclocked, hreset, hpe⟩

theorem accessible_of_busReady {s : State} (h : busReady s = true) : accessible s = true := by
  obtain ⟨hclocked, hreset, hpe⟩ := busReady_parts h
  simp only [accessible, hclocked, hreset, hpe]
  rfl

/-- A ready bus stays ready while PE stays 1. -/
theorem busReady_setCr1 {s : State} {v : Word} (h : busReady s = true) (hv : v.getLsbD 0 = true) :
    busReady (setCr1 v s) = true := by
  obtain ⟨-, -, hpe⟩ := busReady_parts h
  have hpe' : (setCr1 v s).i2c.cr1.getLsbD 0 = s.i2c.cr1.getLsbD 0 := by
    rw [hpe, setCr1_i2c, BitVec.getLsbD_and, hv]
    rfl
  rw [busReady, hpe']
  exact h

/-- The start request of R239's race: the value stored asks for a stop that is already done. -/
theorem writeCr1_of_race {s : State} (hclocked : i2cClocked s = true) (hreset : s.i2cp.inReset = false)
    (hready : busReady (setCr1 0x301 s) = true) (hph : s.i2cp.ph = .idle) (hcr1 : s.i2c.cr1 = 1) :
    writeCr1 0x301 s = periphFault s .spuriousStop := by
  rw [writeCr1_checked (not_swrst_write (by decide) hreset) (fun h => Bool.eq_false_iff.1 h.2 hready),
    cr1Lost_eq_false hclocked hreset, hph, hcr1]
  rfl

theorem run_cons {n : Nat} {s u : State} {x : Result} (hstep : step s = .next u) (hrun : run n u = x) :
    run (n + 1) s = x := by
  rw [run, hstep]
  exact hrun

/-- Settles O50: the stop leaves phase IDLE, where the stored stop request is spurious. -/
theorem stopRaceFaults : Obligations.StopRaceFaults := by
  intro s rest later hrun hready hph hcr1 htmp hq hsched
  obtain ⟨hclocked, hreset, -⟩ := busReady_parts hready
  have hf : s.hasFaulted = false := by simp [State.hasFaulted, hrun]
  have hi2cp : nextAgent s = .i2cp := by simp [nextAgent, hsched]
  have hrequest : s.takeTurn.i2c.cr1.getLsbD 9 = true := by rw [takeTurn_i2c, hcr1]; rfl
  have hstop : step s = .next (stopStep s.takeTurn) := by
    rw [step_of_i2cp hf hi2cp, i2cpStep_stop (s := s.takeTurn) (accessible_of_busReady hready) hph hrequest]
  have hstopped : (stopStep s.takeTurn).i2c.cr1 = 0x001 := by
    change s.i2c.cr1 &&& ~~~mStop = _
    rw [hcr1]
    rfl
  have hhead : AtHead (stopStep s.takeTurn) (.stor (regAddr s.cfg .i2cCr1) mStart) rest :=
    ⟨hrun, by simp [nextAgent, stopStep, hsched], hq⟩
  have hvalue : (0x301 : Word) = (stopStep s.takeTurn).tmp ||| mStart := by
    change _ = s.tmp ||| mStart
    rw [htmp]
    rfl
  have hready' : busReady (setCr1 0x301 s) = true := busReady_setCr1 hready rfl
  obtain ⟨-, hraise⟩ := storeMicroOpsRun (stopStep s.takeTurn) .i2cCr1 rest _ 0x301 hhead
    (.inr (.inl ⟨mStart, rfl, hvalue⟩))
  have hstore := hraise (.periphUnmodelled (s.cp - 1) .spuriousStop)
    (writeCr1_of_race (s := { (stopStep s.takeTurn).takeTurn with mq := rest }) hclocked hreset hready' rfl
      hstopped)
  exact ⟨_, run_cons hstop ((run_one _).trans hstore), rfl, by simp [stopStep], hstopped, rfl⟩

end Sys2Proof.Machine
end

section
/-! A transaction between the sequencer and the peripheral (43_i2c R220 to R231): at each stage of I2CW's
queue, the phase and `CR1` the peripheral can have, and the bus events still to come. -/

namespace Sys2Proof.Machine

/-! ### Stages -/

/-- The stages of I2CW's queue: between transactions, before the start request, after it, and from one poll to
the next. -/
inductive TxStage where
  | rest | opening | requested | started | addressing | addressed | ready | sending | sent
  deriving DecidableEq

/-- The phase and `CR1` the peripheral can have at a stage. Up to the poll for SB the stop of the transaction
before may still be pending (R231). -/
def TxStage.links : TxStage → List (Phase × Word)
  | .rest | .opening => [(.idle, 0x001), (.dataDone, 0x201)]
  | .requested => [(.dataDone, 0x301), (.idle, 0x101), (.startDone, 0x001)]
  | .started => [(.startDone, 0x001)]
  | .addressing => [(.addrTx, 0x001), (.addrAcked, 0x001), (.nacked, 0x001)]
  | .addressed => [(.addrAcked, 0x001)]
  | .ready => [(.txReady, 0x001)]
  | .sending => [(.dataLoaded, 0x001), (.dataTx, 0x001), (.dataDone, 0x001), (.nacked, 0x001)]
  | .sent => [(.dataDone, 0x001)]

/-- The moves of the peripheral, by its phase and `CR1` (R224 to R231). -/
def linkMoves : Phase × Word → List (Phase × Word)
  | (.idle, w) => if w.getLsbD 8 then [(.startDone, w &&& ~~~mStart)] else []
  | (.addrTx, w) => [(.addrAcked, w), (.nacked, w)]
  | (.dataLoaded, w) => [(.dataTx, w)]
  | (.dataTx, w) => [(.dataDone, w), (.nacked, w)]
  | (.dataDone, w) => if w.getLsbD 9 then [(.idle, w &&& ~~~mStop)] else []
  | (.startDone, _) | (.addrAcked, _) | (.txReady, _) | (.nacked, _) => []

/-- No move of the peripheral leads out of a stage. -/
theorem links_closed (st : TxStage) : ∀ l ∈ st.links, ∀ m ∈ linkMoves l, m ∈ st.links := by
  cases st <;> decide

/-- What the stage and the phase leave to come on the bus of the transaction of `b` to `a`, with the stop of
the one before. -/
def TxStage.owed (a : BitVec 7) (b : Byte) : TxStage → Phase → List Event
  | .rest, .dataDone => [.busStop]
  | .rest, _ => []
  | .opening, .dataDone | .requested, .dataDone => .busStop :: transactionEvents a b
  | _, .idle => transactionEvents a b
  | _, .startDone | _, .addrTx => [.busAddr (addrByte a) .ack, .busData b .ack, .busStop]
  | _, .addrAcked | _, .txReady | _, .dataLoaded | _, .dataTx => [.busData b .ack, .busStop]
  | _, .dataDone => [.busStop]
  | _, .nacked => []

/-! ### The peripheral at a stage -/

/-- The peripheral's link: its phase and `CR1`. -/
def State.link (s : State) : Phase × Word := (s.i2cp.ph, s.i2c.cr1)

/-- The state with `sr1_seen` clear: a read of `SR1` that saw no ADDR may have left it set. -/
def State.unseen (s : State) : State := { s with i2cp := { s.i2cp with sr1Seen := false } }

/-- A transaction of `b` to `a` stands at a stage: the peripheral is accessible, its flags match its phase, its
link is one of the stage's, and the address and data bytes are where the phase takes them from. -/
structure TxLink (a : BitVec 7) (b : Byte) (st : TxStage) (s : State) : Prop where
  link : s.link ∈ st.links
  flags : FlagsMatch s.unseen
  clocked : i2cClocked s = true
  released : s.i2cp.inReset = false
  addressByte : st = .addressing → s.i2cp.ph = .addrTx → s.i2cp.shift = addrByte a
  dataByte : st = .sending → s.i2cp.ph = .dataLoaded → s.i2c.dr = b
  shiftedByte : st = .sending → s.i2cp.ph = .dataTx → s.i2cp.shift = b
  seen : st = .addressed → s.i2cp.sr1Seen = true

section
variable {a : BitVec 7} {b : Byte} {st : TxStage} {s t : State}

theorem TxLink.acc (h : TxLink a b st s) : i2cLost s = false := i2cLost_eq_false h.clocked h.released

/-- The stage is about the peripheral and the clocks alone. -/
theorem TxLink.congr (h : TxLink a b st s) (hp : t.peripheral = s.peripheral) (hc : t.cfg = s.cfg) :
    TxLink a b st t := by
  simp only [State.peripheral, Prod.mk.injEq] at hp
  obtain ⟨hi2c, hi2cp, hflags, hrcc⟩ := hp
  obtain ⟨hlink, hf, hclocked, hreleased, haddress, hdata, hshift, hseen⟩ := h
  have hclocked' : i2cClocked t = i2cClocked s := by simp only [i2cClocked, hc, hrcc]
  have hlink' : t.link = s.link := by simp only [State.link, hi2c, hi2cp]
  refine ⟨hlink' ▸ hlink, hf.congr (by simp only [State.unseen, hi2cp]) hflags, hclocked'.trans hclocked,
    ?_, ?_, ?_, ?_, ?_⟩
  all_goals simp only [hi2cp, hi2c]; assumption

/-- Another stage with the same link; one that has read `SR1` asks for `sr1_seen`. -/
theorem TxLink.advance {st' : TxStage} (h : TxLink a b st s) (hlink : s.link ∈ st'.links)
    (haddressing : st' ≠ .addressing) (hsending : st' ≠ .sending)
    (hseen : st' = .addressed → s.i2cp.sr1Seen = true) (a' : BitVec 7) (b' : Byte) : TxLink a' b' st' s :=
  ⟨hlink, h.flags, h.clocked, h.released, fun h => absurd h haddressing, fun h => absurd h hsending,
    fun h => absurd h hsending, hseen⟩

/-- In the stages after an answered byte there was no NACK. -/
theorem TxLink.ne_nacked (h : TxLink a b st s) (hst : st ≠ .addressing ∧ st ≠ .sending) :
    s.i2cp.ph ≠ .nacked := by
  intro hph
  have hlink := h.link
  rw [State.link, hph] at hlink
  cases st <;> simp_all [TxStage.links]

/-! ### A turn of the peripheral -/

/-- No step of the peripheral looks at `sr1_seen`. -/
theorem I2cpEffect.unseen (h : I2cpEffect s t) : I2cpEffect s.unseen t.unseen := by
  cases h with
  | stay => exact .stay
  | start hacc hph hstart => exact .start (s := s.unseen) hacc hph hstart
  | address hacc hph =>
    have hmoved : I2cpEffect s.unseen (addressStep (nextAck s) s.unseen.takeAck) := .address hacc hph
    have heq : (addressStep (nextAck s) s.takeAck).unseen = addressStep (nextAck s) s.unseen.takeAck := by
      cases nextAck s <;> rfl
    rwa [heq]
  | shiftLoad hacc hph => exact .shiftLoad (s := s.unseen) hacc hph
  | data hacc hph =>
    have hmoved : I2cpEffect s.unseen (dataStep (nextAck s) s.unseen.takeAck) := .data hacc hph
    have heq : (dataStep (nextAck s) s.takeAck).unseen = dataStep (nextAck s) s.unseen.takeAck := by
      cases nextAck s <;> rfl
    rwa [heq]
  | stop hacc hph hstop => exact .stop (s := s.unseen) hacc hph hstop


theorem I2cpEffect.link_cases (h : I2cpEffect s t) : t = s ∨ t.link ∈ linkMoves s.link := by
  cases h with
  | stay => exact .inl rfl
  | start hacc hph hstart =>
    simp only [State.link, linkMoves, hph, hstart, if_true]
    exact .inr (List.mem_singleton.2 rfl)
  | address hacc hph =>
    simp only [State.link, linkMoves, hph]
    cases nextAck s
    · exact .inr (List.mem_cons_self ..)
    · exact .inr (List.mem_cons_of_mem _ (List.mem_cons_self ..))
  | shiftLoad hacc hph =>
    simp only [State.link, linkMoves, hph]
    exact .inr (List.mem_singleton.2 rfl)
  | data hacc hph =>
    simp only [State.link, linkMoves, hph]
    cases nextAck s
    · exact .inr (List.mem_cons_self ..)
    · exact .inr (List.mem_cons_of_mem _ (List.mem_cons_self ..))
  | stop hacc hph hstop =>
    simp only [State.link, linkMoves, hph, hstop, if_true]
    exact .inr (List.mem_singleton.2 rfl)

/-- A turn of the peripheral keeps the stage: it makes the moves of its phase, and only the load of the
shift register moves a byte (R229). -/
theorem TxLink.of_i2cpEffect (h : TxLink a b st s) (he : I2cpEffect s t) : TxLink a b st t := by
  have hlink : t.link ∈ st.links := by
    obtain rfl | hmove := he.link_cases
    · exact h.link
    · exact links_closed st _ h.link _ hmove
  have hflags := h.flags.of_i2cpEffect he.unseen
  obtain ⟨-, -, hclocked, hreleased, haddress, hdata, hshift, hseen⟩ := h
  cases he with
  | stay => exact ⟨hlink, hflags, hclocked, hreleased, haddress, hdata, hshift, hseen⟩
  | start => exact ⟨hlink, hflags, hclocked, hreleased, nofun, nofun, nofun, hseen⟩
  | address | data =>
    cases hk : nextAck s <;> rw [hk] at hlink hflags
    · exact ⟨hlink, hflags, hclocked, hreleased, nofun, nofun, nofun, hseen⟩
    · exact ⟨hlink, hflags, hclocked, hreleased, nofun, nofun, nofun, hseen⟩
  | shiftLoad hacc hph =>
    exact ⟨hlink, hflags, hclocked, hreleased, nofun, nofun, fun hst _ => hdata hst hph, hseen⟩
  | stop => exact ⟨hlink, hflags, hclocked, hreleased, nofun, nofun, nofun, hseen⟩

/-- The bus trace with what the stage and the phase leave to come. -/
def State.busTotal (a : BitVec 7) (b : Byte) (st : TxStage) (s : State) : List Event :=
  busTrace s.hist ++ st.owed a b s.i2cp.ph

/-- An event emitted is the first of those that were to come. -/
theorem busTotal_emit {e : Event} (he : e.isBus = true) (hhist : t.hist = s.hist ++ [e])
    (howed : st.owed a b s.i2cp.ph = e :: st.owed a b t.i2cp.ph) :
    t.busTotal a b st = s.busTotal a b st := by
  rw [State.busTotal, State.busTotal, hhist, busTrace_append_bus he, howed, List.append_assoc]
  rfl

/-- Unless it draws a NACK, a turn of the peripheral emits what is to come next, or nothing. -/
theorem TxLink.busTotal_of_i2cpEffect (h : TxLink a b st s) (he : I2cpEffect s t) (hack : t.i2cp.ph ≠ .nacked) :
    t.busTotal a b st = s.busTotal a b st := by
  obtain ⟨hlink, -, -, -, haddress, -, hshift, -⟩ := h
  cases he with
  | stay => rfl
  | start hacc hph hstart =>
    refine busTotal_emit rfl rfl ?_
    simp only [State.link, hph] at hlink
    rw [hph]
    cases st <;> simp_all [TxStage.links, TxStage.owed, startStep, transactionEvents]
  | address hacc hph =>
    simp only [State.link, hph] at hlink
    cases hk : nextAck s <;> rw [hk] at hack
    · refine busTotal_emit (e := .busAddr s.i2cp.shift .ack) rfl rfl ?_
      rw [hph]
      cases st <;> simp_all [TxStage.links, TxStage.owed, addressStep]
    · exact absurd rfl hack
  | shiftLoad hacc hph =>
    simp only [State.link, hph] at hlink
    rw [State.busTotal, State.busTotal, hph]
    cases st <;> simp_all [TxStage.links, TxStage.owed, shiftLoadStep]
  | data hacc hph =>
    simp only [State.link, hph] at hlink
    cases hk : nextAck s <;> rw [hk] at hack
    · refine busTotal_emit (e := .busData s.i2cp.shift .ack) rfl rfl ?_
      rw [hph]
      cases st <;> simp_all [TxStage.links, TxStage.owed, dataStep]
    · exact absurd rfl hack
  | stop hacc hph hstop =>
    refine busTotal_emit rfl rfl ?_
    simp only [State.link, hph] at hlink
    rw [hph]
    cases st <;> simp_all [TxStage.links, TxStage.owed, stopStep]

end

end Sys2Proof.Machine
end

section
/-! A transaction step by step: the position of the sequencer in I2CW's queue (43_i2c R220), and what each
agent's turn makes of it, fused read-modify-writes or not. -/

namespace Sys2Proof.Machine

/-! ### What a register access does at a stage -/

section
variable {a : BitVec 7} {b : Byte} {st : TxStage} {s t : State}

theorem TxLink.takeTurn (h : TxLink a b st s) : TxLink a b st s.takeTurn := h.congr rfl rfl

theorem TxLink.sr1Read (h : TxLink a b st s) : TxLink a b st (readEffect .i2cSr1 s) := by
  rw [readEffect, sr1ReadEffect_of_acc h.acc]
  obtain ⟨hlink, hflags, hclocked, hreleased, haddress, hdata, hshift, hseen⟩ := h
  exact ⟨hlink, hflags.congr rfl rfl, hclocked, hreleased, haddress, hdata, hshift,
    fun hst => Bool.or_eq_true_iff.2 (.inl (hseen hst))⟩

/-- The two reads that clear ADDR go on to TX_READY (R228). -/
theorem TxLink.sr2Read (h : TxLink a b .addressed s) :
    TxLink a b .ready (readEffect .i2cSr2 s) ∧ (readEffect .i2cSr2 s).i2cp.ph = .txReady := by
  have hacc := h.acc
  obtain ⟨hlink, hmatch, hclocked, hreleased, -, -, -, hseen⟩ := h
  simp only [TxStage.links, State.link, List.mem_singleton, Prod.mk.injEq] at hlink
  obtain ⟨hph, hcr1⟩ := hlink
  have haddr : s.flags.addr = true := hmatch.addr.2 hph
  have hmatch' : FlagsMatch s := { hmatch with sr1Seen := fun _ => haddr }
  have hflags := hmatch'.of_readEffect .i2cSr2
  rw [readEffect, sr2ReadEffect_of_seen hacc haddr (hseen rfl)] at hflags ⊢
  refine ⟨⟨?_, hflags.congr rfl rfl, hclocked, hreleased, nofun, nofun, nofun, nofun⟩, rfl⟩
  simp only [State.link, hcr1]
  exact List.mem_singleton.2 rfl

theorem TxLink.readValue_cr1 (h : TxLink a b st s) : readValue .i2cCr1 s = s.i2c.cr1 :=
  if_neg (Bool.eq_false_iff.1 (cr1Lost_eq_false h.clocked h.released))

/-- A write of `CR1` that leaves the software reset alone: the start check, the unmodelled cases, the store. -/
theorem TxLink.writeCr1 (h : TxLink a b st s) {v : Word} (hv : v.getLsbD 15 = false) :
    (v.getLsbD 8 = true ∧ writeCr1 v s = .raises (.busNotReady (currentCommand s) v)) ∨
    writeCr1 v s = (cr1Unmodelled s.i2cp.ph s.i2c.cr1 v).elim (.done (setCr1 v s)) (periphFault s) := by
  have hswrst := not_swrst_write hv h.released
  by_cases hready : v.getLsbD 8 = true ∧ busReady (setCr1 v s) = false
  · exact .inl ⟨hready.1, writeCr1_not_ready hswrst hready⟩
  · refine .inr ((writeCr1_checked hswrst hready).trans (if_neg ?_))
    exact Bool.eq_false_iff.1 (cr1Lost_eq_false h.clocked h.released)

/-- A store into `CR1` keeps all of a stage but the link. -/
theorem TxLink.of_setCr1 {st' : TxStage} (h : TxLink a b st s) {v : Word}
    (hlink : (s.i2cp.ph, v &&& cr1Fields) ∈ st'.links) (haddressing : st' ≠ .addressing)
    (hsending : st' ≠ .sending) (haddressed : st' ≠ .addressed) : TxLink a b st' (setCr1 v s) :=
  ⟨hlink, h.flags.congr rfl rfl, h.clocked, h.released, fun h => absurd h haddressing,
    fun h => absurd h hsending, fun h => absurd h hsending, fun h => absurd h haddressed⟩

/-- The faults a transaction can end in: `PERIPH_UNMODELLED` only for the race, only unfused (R239). -/
def Tolerated (c : Config) (f : BlockFault) : Prop :=
  match f with
  | .periphUnmodelled _ why => why = .spuriousStop ∧ c.rmwAtomic = false
  | _ => True

/-- The value loaded before a start request: of the link it is stored to, or of the stop since generated. -/
def StartValue (s : State) : Prop :=
  s.tmp = s.i2c.cr1 ∨ (s.cfg.rmwAtomic = false ∧ s.tmp = 0x201)

/-- The store of a start request is done, or raises a tolerated fault. -/
def StoresStart (a : BitVec 7) (b : Byte) (s : State) : Prop :=
  (∃ u, writeReg .i2cCr1 (s.tmp ||| mStart) s = .done u ∧ TxLink a b .requested u ∧ u.i2cp.ph = s.i2cp.ph) ∨
  ∃ f, writeReg .i2cCr1 (s.tmp ||| mStart) s = .raises f ∧ Tolerated s.cfg f

/-- On an idle bus and on one with its stop pending the request is stored, unless the start check fails; when
the stop came after the load, it is the race. -/
theorem TxLink.storeStart (h : TxLink a b .opening s) (hv : StartValue s) : StoresStart a b s := by
  have hlink := h.link
  have store {ph : Phase} {old tmp : Word} (hph : s.i2cp.ph = ph) (hcr1 : s.i2c.cr1 = old) (htmp : s.tmp = tmp)
      (hset : (tmp ||| mStart).getLsbD 15 = false) (hnone : cr1Unmodelled ph old (tmp ||| mStart) = none)
      (hto : (ph, (tmp ||| mStart) &&& cr1Fields) ∈ TxStage.requested.links) : StoresStart a b s := by
    subst hph hcr1 htmp
    obtain ⟨-, hraise⟩ | hstore := h.writeCr1 hset
    · exact .inr ⟨_, hraise, trivial⟩
    · rw [hnone] at hstore
      exact .inl ⟨_, hstore, h.of_setCr1 hto nofun nofun nofun, rfl⟩
  simp only [TxStage.links, State.link, List.mem_cons, Prod.mk.injEq, List.not_mem_nil, or_false] at hlink
  obtain ⟨hph, hcr1⟩ | ⟨hph, hcr1⟩ := hlink
  · obtain htmp | ⟨hsplit, htmp⟩ := hv
    · exact store hph hcr1 (htmp.trans hcr1) rfl rfl (by decide)
    · have hset : (s.tmp ||| mStart).getLsbD 15 = false := by rw [htmp]; rfl
      obtain ⟨-, hraise⟩ | hstore := h.writeCr1 hset
      · exact .inr ⟨_, hraise, trivial⟩
      · rw [hph, hcr1, htmp] at hstore
        rw [StoresStart, htmp]
        exact .inr ⟨_, hstore, rfl, hsplit⟩
  · have htmp : s.tmp = 0x201 := hv.elim (·.trans hcr1) (·.2)
    exact store hph hcr1 htmp rfl rfl (by decide)

/-- The store of a stop request is done. -/
theorem TxLink.storeStop (h : TxLink a b .sent s) (htmp : s.tmp = 0x001) :
    ∃ u, writeReg .i2cCr1 (s.tmp ||| mStop) s = .done u ∧ TxLink a b .rest u ∧ u.i2cp.ph = .dataDone := by
  have hlink := h.link
  simp only [TxStage.links, State.link, List.mem_singleton, Prod.mk.injEq] at hlink
  obtain ⟨hph, hcr1⟩ := hlink
  rw [htmp]
  obtain ⟨hstart, -⟩ | hstore := h.writeCr1 (v := 0x001 ||| mStop) rfl
  · cases hstart
  · rw [hph, hcr1] at hstore
    refine ⟨_, hstore, h.of_setCr1 ?_ nofun nofun nofun, hph⟩
    rw [hph]
    decide

/-- The byte written to `DR` after the poll for SB is the address byte (R226). -/
theorem TxLink.writeAddress (h : TxLink a b .started s) :
    ∃ u, writeReg .i2cDr ((addrByte a).setWidth 32) s = .done u ∧ TxLink a b .addressing u ∧
      u.i2cp.ph = .addrTx ∧ s.i2cp.ph = .startDone := by
  have hacc := h.acc
  obtain ⟨hlink, hflags, hclocked, hreleased, -, -, -, -⟩ := h
  simp only [TxStage.links, State.link, List.mem_singleton, Prod.mk.injEq] at hlink
  obtain ⟨hph, hcr1⟩ := hlink
  have hdone := writeDr_address ((addrByte a).setWidth 32) hacc hph (hflags.sb.2 hph)
  have hunseen := writeDr_address (s := s.unseen) ((addrByte a).setWidth 32) hacc hph (hflags.sb.2 hph)
  refine ⟨_, hdone, ⟨?_, hflags.of_writeDr hunseen, hclocked, hreleased, fun _ _ => by simp, nofun, nofun, nofun⟩,
    rfl, hph⟩
  simp only [State.link, hcr1]
  decide

/-- The byte written to `DR` after the poll for TXE is the data byte (R226). -/
theorem TxLink.writeData (h : TxLink a b .ready s) :
    ∃ u, writeReg .i2cDr (b.setWidth 32) s = .done u ∧ TxLink a b .sending u ∧
      u.i2cp.ph = .dataLoaded ∧ s.i2cp.ph = .txReady := by
  have hacc := h.acc
  obtain ⟨hlink, hflags, hclocked, hreleased, -, -, -, -⟩ := h
  simp only [TxStage.links, State.link, List.mem_singleton, Prod.mk.injEq] at hlink
  obtain ⟨hph, hcr1⟩ := hlink
  have hnack : s.i2cp.ph ≠ .nacked := by simp [hph]
  have htxe : s.flags.txe = true := (hflags.txe hnack).2 (.inl hph)
  have hdone := writeDr_data (b.setWidth 32) hacc hph htxe
  have hunseen := writeDr_data (s := s.unseen) (b.setWidth 32) hacc hph htxe
  refine ⟨_, hdone, ⟨?_, hflags.of_writeDr hunseen, hclocked, hreleased, nofun, fun _ _ => by simp, nofun, nofun⟩,
    rfl, hph⟩
  simp only [State.link, hcr1]
  decide

end

end Sys2Proof.Machine
end

section
/-! The sequencer's position in I2CW's queue (43_i2c R220), and a step from it, whichever agent takes it, fused
read-modify-writes or not. -/

namespace Sys2Proof.Machine

/-- The stage of a transaction after `k` of its twelve micro-operations. -/
def txStage : Nat → TxStage
  | 0 | 1 => .opening
  | 2 => .requested
  | 3 => .started
  | 4 => .addressing
  | 5 | 6 => .addressed
  | 7 | 8 => .ready
  | 9 => .sending
  | 10 | 11 => .sent
  | _ => .rest

/-- `k` micro-operations of I2CW `a`, `b` are done and the others stand before `rest`. Between a load of `CR1`
and its store `TMP` holds what `CR1` held, or the stop since generated. -/
structure InTx (a : BitVec 7) (b : Byte) (rest : List MicroOp) (k : Nat) (s : State) : Prop where
  queue : s.mq = (i2cwOps s.cfg a b).drop k ++ rest
  link : TxLink a b (txStage k) s
  startValue : k = 1 → s.cfg.rmwAtomic = false ∧ (s.tmp = 0x201 ∨ (s.tmp = 0x001 ∧ s.i2cp.ph = .idle))
  stopValue : k = 11 → s.tmp = 0x001

/-- A step from there: some micro-operations done and, but for a NACK, the same events on the bus or to come;
or a tolerated fault. -/
inductive TxStep (a : BitVec 7) (b : Byte) (rest : List MicroOp) (k : Nat) (s t : State) : Prop
  | moves (j : Nat) (hkj : k ≤ j) (hj : j ≤ 12) (hat : InTx a b rest j t) (hrun : t.status = s.status)
      (htotal : t.i2cp.ph = .nacked ∨
        (s.i2cp.ph ≠ .nacked ∧ t.busTotal a b (txStage j) = s.busTotal a b (txStage k)))
  | faults (f : BlockFault) (hf : t.status = .faulted f) (htolerated : Tolerated s.cfg f)

section
variable {a : BitVec 7} {b : Byte} {rest : List MicroOp} {k : Nat} {s t : State}

/-! ### Turns of the devices -/

/-- While `TMP` holds the value of an idle bus, the peripheral has no move. -/
theorem TxLink.idle_stays (h : TxLink a b .opening s) (he : I2cpEffect s t) (hph : s.i2cp.ph = .idle) :
    t.i2cp.ph = .idle := by
  have hlink := h.link
  simp only [TxStage.links, State.link, hph, List.mem_cons, Prod.mk.injEq, List.not_mem_nil, or_false] at hlink
  obtain ⟨-, hcr1⟩ | ⟨h, -⟩ := hlink
  · obtain rfl | hmove := he.link_cases
    · exact hph
    · rw [State.link, State.link, hph, hcr1] at hmove
      cases hmove
  · cases h

/-- A device's turn, at any position and after the last. -/
theorem InTx.device (h : InTx a b rest k s) (hk : k ≤ 12) (hdev : nextAgent s ≠ .seq)
    (hstep : step s = .next t) : TxStep a b rest k s t := by
  have hstatus := step_status_of_device hdev hstep
  obtain ⟨hq, hlink, hstart, hstop⟩ := h
  cases ha : nextAgent s with
  | seq => exact absurd ha hdev
  | i2cp =>
    obtain rfl := step_eq_of_i2cp ha hstep
    have he := i2cpStep_effect s.takeTurn
    have heq := i2cpStep_eq s.takeTurn
    have hcfg : (i2cpStep s.takeTurn).cfg = s.cfg := by rw [heq]; rfl
    have hmq : (i2cpStep s.takeTurn).mq = s.mq := by rw [heq]; rfl
    have htmp : (i2cpStep s.takeTurn).tmp = s.tmp := by rw [heq]; rfl
    refine .moves k le_rfl hk ⟨by rw [hmq, hcfg, hq], hlink.takeTurn.of_i2cpEffect he, ?_, ?_⟩ hstatus
      (or_iff_not_imp_left.2 fun hack => ⟨fun hph => ?_, hlink.takeTurn.busTotal_of_i2cpEffect he hack⟩)
    · rintro rfl
      rw [hcfg, htmp]
      obtain ⟨hsplit, hvalue⟩ := hstart rfl
      exact ⟨hsplit, hvalue.imp_right fun ⟨h1, hph⟩ => ⟨h1, hlink.takeTurn.idle_stays he hph⟩⟩
    · rw [htmp]; exact hstop
    · rw [i2cpStep_waits (s := s.takeTurn) (by simp [hph])] at hack
      exact hack hph
  | stk =>
    obtain rfl := step_eq_of_stk ha hstep
    have heq := stkStep_eq s.takeTurn
    have hcfg : (stkStep s.takeTurn).cfg = s.cfg := by rw [heq]; rfl
    have hmq : (stkStep s.takeTurn).mq = s.mq := by rw [heq]; rfl
    have htmp : (stkStep s.takeTurn).tmp = s.tmp := by rw [heq]; rfl
    have hi2cp : (stkStep s.takeTurn).i2cp = s.i2cp := by rw [heq]; rfl
    refine .moves k le_rfl hk ⟨by rw [hmq, hcfg, hq], hlink.congr (stkStep_peripheral _) hcfg, ?_, ?_⟩ hstatus
      (or_iff_not_imp_left.2 fun hack => ⟨hi2cp ▸ hack, ?_⟩)
    · rw [hcfg, htmp, hi2cp]; exact hstart
    · rw [htmp]; exact hstop
    · rw [State.busTotal, State.busTotal, stkStep_busTrace, hi2cp]
      rfl

/-! ### Turns of the sequencer -/

/-- A sequencer's turn puts nothing on the bus: what is to come stays the same. -/
theorem TxStep.of_seq {j : Nat} (hseq : nextAgent s = .seq) (hstep : step s = .next t) (hkj : k ≤ j) (hj : j ≤ 12)
    (hat : InTx a b rest j t) (hrun : t.status = s.status) (hnack : t.i2cp.ph = .nacked ∨ s.i2cp.ph ≠ .nacked)
    (howed : (txStage j).owed a b t.i2cp.ph = (txStage k).owed a b s.i2cp.ph) : TxStep a b rest k s t := by
  refine .moves j hkj hj hat hrun (hnack.imp_right fun hack => ⟨hack, ?_⟩)
  rw [State.busTotal, State.busTotal, howed, step_busTrace (by simp [hseq]) hstep]

/-- What a successful poll goes on to. -/
def PollEnds (a : BitVec 7) (b : Byte) (m : Word) (st st' : TxStage) : Prop :=
  ∀ s : State, TxLink a b st s → sr1View s.flags &&& m = m → (s.flags.addr = true → s.i2cp.sr1Seen = true) →
    TxLink a b st' s ∧ st'.owed a b s.i2cp.ph = st.owed a b s.i2cp.ph

/-- A poll of `SR1` stays or ends (40_microops R138). -/
theorem InTx.poll {m : Word} (h : InTx a b rest k s) (hk : k + 1 ≤ 12) (hrun : s.status = .running)
    (hseq : nextAgent s = .seq) (hstep : step s = .next t)
    (hop : (i2cwOps s.cfg a b).drop k = .poll (regAddr s.cfg .i2cSr1) m :: (i2cwOps s.cfg a b).drop (k + 1))
    (hends : PollEnds a b m (txStage k) (txStage (k + 1))) (hstart : k ≠ 1 ∧ k + 1 ≠ 1)
    (hstop : k ≠ 11 ∧ k + 1 ≠ 11) : TxStep a b rest k s t := by
  have hhead : AtHead s (.poll (regAddr s.cfg .i2cSr1) m) ((i2cwOps s.cfg a b).drop (k + 1) ++ rest) :=
    ⟨hrun, hseq, by rw [h.queue, hop]; rfl⟩
  have hread := h.link.takeTurn.sr1Read
  have hacc : i2cLost s.takeTurn = false := h.link.acc
  have heffect : readEffect .i2cSr1 s.takeTurn = _ := sr1ReadEffect_of_acc hacc
  have hpoll := pollPopsOrStays s .i2cSr1 m _ hhead
  rw [readValue_sr1 h.link.acc] at hpoll
  rw [heffect] at hpoll hread
  cases hpoll.symm.trans hstep
  by_cases hset : sr1View s.flags &&& m = m
  · have hseen : s.flags.addr = true → (s.i2cp.sr1Seen || s.flags.addr) = true := fun haddr => by simp [haddr]
    obtain ⟨hnext, howed⟩ := hends _ hread hset hseen
    exact .of_seq hseq hstep (Nat.le_succ k) hk ⟨if_pos hset, hnext.congr rfl rfl, fun h => absurd h hstart.2,
      fun h => absurd h hstop.2⟩ rfl (Decidable.em _) howed
  · exact .of_seq hseq hstep le_rfl (by omega) ⟨(if_neg hset).trans h.queue, hread.congr rfl rfl,
      fun h => absurd h hstart.1, fun h => absurd h hstop.1⟩ rfl (Decidable.em _) rfl

/-- A poll whose flag is one phase's goes on to the stage with that phase's link. -/
theorem pollEnds_of_phase {m : Word} {st st' : TxStage} (ph : Phase)
    (hph : ∀ s, FlagsMatch s → sr1View s.flags &&& m = m → s.i2cp.ph = ph)
    (hlinks : ∀ l ∈ st.links, l.1 = ph → l ∈ st'.links) (hst : st' ≠ .addressing ∧ st' ≠ .sending)
    (hseen : st' = .addressed → ph = .addrAcked) (howed : st'.owed a b ph = st.owed a b ph) :
    PollEnds a b m st st' := by
  intro s h hset hread
  have hphase : s.i2cp.ph = ph := hph s.unseen h.flags hset
  refine ⟨h.advance (hlinks _ h.link hphase) hst.1 hst.2 (fun hst' => hread ?_) a b, by rw [hphase, howed]⟩
  exact h.flags.addr.2 (hphase.trans (hseen hst'))

theorem pollEnds_sb : PollEnds a b mSb .requested .started :=
  pollEnds_of_phase .startDone (fun _ h hset => h.sb.1 ((sr1View_sb _).1 hset)) (by decide) (by decide) nofun rfl

theorem pollEnds_addr : PollEnds a b mAddr .addressing .addressed :=
  pollEnds_of_phase .addrAcked (fun _ h hset => h.addr.1 ((sr1View_addr _).1 hset)) (by decide) (by decide)
    (fun _ => rfl) rfl

theorem pollEnds_txe : PollEnds a b mTxe .ready .ready := fun _ h _ _ => ⟨h, rfl⟩

theorem pollEnds_btf : PollEnds a b mBtf .sending .sent :=
  pollEnds_of_phase .dataDone (fun _ h hset => h.btf.1 ((sr1View_btf _).1 hset)) (by decide) (by decide) nofun rfl

/-- `WR` at the head of the queue is one write after the pop. -/
theorem step_of_wr {r v : Word} (h : AtHead s (.wr r v) rest) :
    step s = memWrite r v { s.takeTurn with mq := rest } := by
  rw [← h.pop_takeTurn]
  exact step_eq_runOp h nofun

/-- `STOR` at the head of the queue is one write after the pop. -/
theorem step_of_stor {r m : Word} (h : AtHead s (.stor r m) rest) :
    step s = memWrite r (s.tmp ||| m) { s.takeTurn with mq := rest } := by
  rw [← h.pop_takeTurn]
  exact step_eq_runOp h nofun

/-- The write of a sequencer's turn, done: the next position. -/
theorem TxStep.of_write {j : Nat} {r : Reg} {v : Word} {x u : State} (hseq : nextAgent s = .seq)
    (hstep : step s = .next t) (hmem : step s = memWrite (regAddr x.cfg r) v x)
    (hcfg : x.cfg = s.cfg) (hmq : x.mq = (i2cwOps s.cfg a b).drop j ++ rest) (hrun : x.status = s.status)
    (hdone : writeReg r v x = .done u) (hu : TxLink a b (txStage j) u)
    (hack : s.i2cp.ph ≠ .nacked) (howed : (txStage j).owed a b u.i2cp.ph = (txStage k).owed a b s.i2cp.ph)
    (hkj : k ≤ j) (hj : j ≤ 12) (hload : j ≠ 1 ∧ j ≠ 11) : TxStep a b rest k s t := by
  have heq := writeReg_eq hdone
  have hucfg : u.cfg = s.cfg := by rw [heq]; exact hcfg
  have humq : u.mq = x.mq := by rw [heq]
  have hustatus : u.status = x.status := by rw [heq]
  rw [hmem, memWrite_of_done hdone] at hstep
  cases hstep
  rw [memWrite_of_done hdone] at hmem
  refine .of_seq hseq hmem hkj hj ⟨?_, hu.congr rfl rfl, fun h => absurd h hload.1, fun h => absurd h hload.2⟩
    (hustatus.trans hrun) (.inr hack) howed
  rw [emit_mq, humq, hmq, emit_cfg, hucfg]

/-- The store of a start request, in a turn of its own or fused with its load. -/
theorem TxStep.of_storeStart {x : State} (hseq : nextAgent s = .seq) (hstep : step s = .next t)
    (hk : k ≤ 1) (hmem : step s = memWrite (regAddr x.cfg .i2cCr1) (x.tmp ||| mStart) x)
    (hcfg : x.cfg = s.cfg) (hmq : x.mq = (i2cwOps s.cfg a b).drop 2 ++ rest) (hrun : x.status = s.status)
    (hph : x.i2cp.ph = s.i2cp.ph) (hx : TxLink a b .opening x) (hv : StartValue x) :
    TxStep a b rest k s t := by
  have howed : TxStage.owed a b .requested s.i2cp.ph = (txStage k).owed a b s.i2cp.ph := by
    have hlink := hx.link
    simp only [State.link, hph, TxStage.links, List.mem_cons, Prod.mk.injEq, List.not_mem_nil, or_false]
      at hlink
    have hopening : txStage k = .opening := by interval_cases k <;> rfl
    rw [hopening]
    obtain ⟨hph, -⟩ | ⟨hph, -⟩ := hlink <;> rw [hph] <;> rfl
  obtain ⟨u, hdone, hu, huph⟩ | ⟨f, hraise, htolerated⟩ := hx.storeStart hv
  · exact .of_write (j := 2) hseq hstep hmem hcfg hmq hrun hdone hu
      (hph ▸ hx.ne_nacked (by decide)) (by rw [huph, hph]; exact howed)
      (by omega) (by omega) (by decide)
  · rw [hmem, memWrite_of_raises hraise] at hstep
    cases hstep
    exact .faults f rfl (hcfg ▸ htolerated)

/-- The store of a stop request, in a turn of its own or fused with its load. -/
theorem TxStep.of_storeStop {x : State} (hseq : nextAgent s = .seq) (hstep : step s = .next t)
    (hk : k = 10 ∨ k = 11) (hmem : step s = memWrite (regAddr x.cfg .i2cCr1) (x.tmp ||| mStop) x)
    (hcfg : x.cfg = s.cfg) (hmq : x.mq = rest) (hrun : x.status = s.status)
    (hph : x.i2cp.ph = s.i2cp.ph) (hx : TxLink a b .sent x) (hv : x.tmp = 0x001) :
    TxStep a b rest k s t := by
  have hsent : s.i2cp.ph = .dataDone := by
    have hlink := hx.link
    simp only [State.link, hph, TxStage.links, List.mem_singleton, Prod.mk.injEq] at hlink
    exact hlink.1
  obtain ⟨u, hdone, hu, huph⟩ := hx.storeStop hv
  refine .of_write (j := 12) hseq hstep hmem hcfg hmq hrun hdone hu
    (hph ▸ hx.ne_nacked (by decide)) ?_ (by omega) le_rfl (by decide)
  rw [huph, hsent]
  obtain rfl | rfl := hk <;> rfl

/-- What a turn's load of `CR1` leaves, with its queue. -/
def cr1Loaded (s : State) (mq : List MicroOp) : State :=
  { s.takeTurn with
    mq := mq
    tmp := s.i2c.cr1
    hist := s.hist ++ [Event.rd (regAddr s.cfg .i2cCr1) s.i2c.cr1] }

/-- A load of `CR1` fills `TMP`; fused, the store follows in the same turn (40_microops R142). -/
theorem InTx.load_cr1 {m : Word} {ops : List MicroOp} (h : InTx a b rest k s) (hrun : s.status = .running)
    (hseq : nextAgent s = .seq) (hstep : step s = .next t)
    (hop : (i2cwOps s.cfg a b).drop k = .ldt (regAddr s.cfg .i2cCr1) :: .stor (regAddr s.cfg .i2cCr1) m :: ops) :
    (s.cfg.rmwAtomic = false ∧ t = cr1Loaded s (.stor (regAddr s.cfg .i2cCr1) m :: (ops ++ rest))) ∨
    step s = memWrite (regAddr s.cfg .i2cCr1) (s.i2c.cr1 ||| m) (cr1Loaded s (ops ++ rest)) := by
  have hhead : AtHead s (.ldt (regAddr s.cfg .i2cCr1)) (.stor (regAddr s.cfg .i2cCr1) m :: (ops ++ rest)) :=
    ⟨hrun, hseq, by rw [h.queue, hop]; rfl⟩
  obtain ⟨hfused, hsplit⟩ := rmwAtomicFusesThePair s .i2cCr1 _ _ m 0 hhead
  rw [h.link.readValue_cr1] at hfused hsplit
  cases hatomic : s.cfg.rmwAtomic with
  | false =>
    cases (hsplit hatomic).symm.trans hstep
    exact .inl ⟨rfl, rfl⟩
  | true => exact .inr ((hfused hatomic).1 rfl)

theorem InTx.startLoad (h : InTx a b rest 0 s) (hrun : s.status = .running)
    (hseq : nextAgent s = .seq) (hstep : step s = .next t) : TxStep a b rest 0 s t := by
  have hlink : TxLink a b .opening s := h.link
  obtain ⟨hsplit, rfl⟩ | hfused := h.load_cr1 hrun hseq hstep rfl
  · refine .of_seq hseq hstep (j := 1) (by omega) (by omega) ⟨rfl, hlink.congr rfl rfl, fun _ => ⟨hsplit, ?_⟩,
      nofun⟩ rfl (.inr (hlink.ne_nacked (by decide))) rfl
    have hcr1 := hlink.link
    simp only [TxStage.links, State.link, List.mem_cons, Prod.mk.injEq, List.not_mem_nil, or_false] at hcr1
    exact hcr1.elim (fun h => .inr h.symm) (fun h => .inl h.2)
  · exact .of_storeStart hseq hstep (by omega) hfused rfl rfl rfl rfl (hlink.congr rfl rfl) (.inl rfl)

theorem InTx.startStore (h : InTx a b rest 1 s) (hrun : s.status = .running)
    (hseq : nextAgent s = .seq) (hstep : step s = .next t) : TxStep a b rest 1 s t := by
  have hlink : TxLink a b .opening s := h.link
  obtain ⟨hsplit, hvalue⟩ := h.startValue rfl
  refine .of_storeStart hseq hstep le_rfl (step_of_stor ⟨hrun, hseq, h.queue⟩) rfl rfl rfl rfl
    (hlink.congr rfl rfl) ?_
  obtain htmp | ⟨htmp, hph⟩ := hvalue
  · exact .inr ⟨hsplit, htmp⟩
  · have hcr1 := hlink.link
    simp only [TxStage.links, State.link, hph, List.mem_cons, Prod.mk.injEq, List.not_mem_nil, or_false] at hcr1
    exact .inl (htmp.trans (hcr1.elim (·.2) (fun h => nomatch h.1)).symm)

theorem InTx.addressStore (h : InTx a b rest 3 s) (hrun : s.status = .running)
    (hseq : nextAgent s = .seq) (hstep : step s = .next t) : TxStep a b rest 3 s t := by
  have hlink : TxLink a b .started { s.takeTurn with mq := (i2cwOps s.cfg a b).drop 4 ++ rest } :=
    h.link.congr rfl rfl
  obtain ⟨u, hdone, hu, hph, hstarted⟩ := hlink.writeAddress
  have hstarted : s.i2cp.ph = .startDone := hstarted
  exact .of_write hseq hstep (step_of_wr ⟨hrun, hseq, h.queue⟩) rfl rfl rfl hdone (j := 4) hu
    (h.link.ne_nacked (by decide)) (by rw [hph, hstarted]; rfl) (by omega) (by omega) (by decide)

theorem InTx.dataStore (h : InTx a b rest 8 s) (hrun : s.status = .running)
    (hseq : nextAgent s = .seq) (hstep : step s = .next t) : TxStep a b rest 8 s t := by
  have hlink : TxLink a b .ready { s.takeTurn with mq := (i2cwOps s.cfg a b).drop 9 ++ rest } :=
    h.link.congr rfl rfl
  obtain ⟨u, hdone, hu, hph, hready⟩ := hlink.writeData
  have hready : s.i2cp.ph = .txReady := hready
  exact .of_write hseq hstep (step_of_wr ⟨hrun, hseq, h.queue⟩) rfl rfl rfl hdone (j := 9) hu
    (h.link.ne_nacked (by decide)) (by rw [hph, hready]; rfl) (by omega) (by omega) (by decide)

/-- The read of `SR1` after the poll for ADDR. -/
theorem InTx.sr1Read (h : InTx a b rest 5 s) (hrun : s.status = .running)
    (hseq : nextAgent s = .seq) (hstep : step s = .next t) : TxStep a b rest 5 s t := by
  have hread : TxLink a b .addressed (readEffect .i2cSr1 s.takeTurn) := h.link.takeTurn.sr1Read
  have hrd := step_of_rd (s := s) (r := .i2cSr1) ⟨hrun, hseq, h.queue⟩
  have hcfg := readEffect_cfg .i2cSr1 s.takeTurn
  have hstatus := readEffect_status .i2cSr1 s.takeTurn
  obtain ⟨-, hph⟩ := readEffect_flags_ph (r := .i2cSr1) (by decide) s.takeTurn
  generalize readEffect .i2cSr1 s.takeTurn = u at *
  cases hrd.symm.trans hstep
  exact .of_seq hseq hstep (j := 6) (by omega) (by omega) ⟨by rw [hcfg]; rfl, hread.congr rfl rfl, nofun, nofun⟩
    hstatus (.inr (h.link.ne_nacked (by decide))) (congrArg (TxStage.owed a b .addressed) hph)

/-- The read of `SR2`, which clears ADDR. -/
theorem InTx.sr2Read (h : InTx a b rest 6 s) (hrun : s.status = .running)
    (hseq : nextAgent s = .seq) (hstep : step s = .next t) : TxStep a b rest 6 s t := by
  have hlink : TxLink a b .addressed s.takeTurn := h.link.takeTurn
  have haddressed := hlink.link
  simp only [TxStage.links, State.link, List.mem_singleton, Prod.mk.injEq] at haddressed
  have haddressed : s.i2cp.ph = .addrAcked := haddressed.1
  obtain ⟨hread, hph⟩ := hlink.sr2Read
  have hrd := step_of_rd (s := s) (r := .i2cSr2) ⟨hrun, hseq, h.queue⟩
  have hcfg := readEffect_cfg .i2cSr2 s.takeTurn
  have hstatus := readEffect_status .i2cSr2 s.takeTurn
  generalize readEffect .i2cSr2 s.takeTurn = u at *
  cases hrd.symm.trans hstep
  refine .of_seq hseq hstep (j := 7) (by omega) (by omega) ⟨by rw [hcfg]; rfl, hread.congr rfl rfl, nofun, nofun⟩
    hstatus (.inr (h.link.ne_nacked (by decide))) ?_
  rw [haddressed]
  exact congrArg (TxStage.owed a b .ready) hph

theorem InTx.stopLoad (h : InTx a b rest 10 s) (hrun : s.status = .running)
    (hseq : nextAgent s = .seq) (hstep : step s = .next t) : TxStep a b rest 10 s t := by
  have hlink : TxLink a b .sent s := h.link
  have hcr1 := hlink.link
  simp only [TxStage.links, State.link, List.mem_singleton, Prod.mk.injEq] at hcr1
  obtain ⟨hsplit, rfl⟩ | hfused := h.load_cr1 hrun hseq hstep rfl
  · exact .of_seq hseq hstep (j := 11) (by omega) (by omega) ⟨rfl, hlink.congr rfl rfl, nofun, fun _ => hcr1.2⟩
      rfl (.inr (hlink.ne_nacked (by decide))) rfl
  · exact .of_storeStop hseq hstep (.inl rfl) hfused rfl rfl rfl rfl (hlink.congr rfl rfl) hcr1.2

theorem InTx.stopStore (h : InTx a b rest 11 s) (hrun : s.status = .running)
    (hseq : nextAgent s = .seq) (hstep : step s = .next t) : TxStep a b rest 11 s t :=
  have hlink : TxLink a b .sent s := h.link
  .of_storeStop hseq hstep (.inr rfl) (step_of_stor ⟨hrun, hseq, h.queue⟩) rfl rfl rfl rfl
    (hlink.congr rfl rfl) (h.stopValue rfl)

/-- A step of a transaction, whichever agent takes it. -/
theorem InTx.step (h : InTx a b rest k s) (hk : k < 12) (hrun : s.status = .running) (hstep : step s = .next t) :
    TxStep a b rest k s t := by
  by_cases hseq : nextAgent s = .seq
  · match k, hk with
    | 0, _ => exact h.startLoad hrun hseq hstep
    | 1, _ => exact h.startStore hrun hseq hstep
    | 2, _ => exact h.poll (by omega) hrun hseq hstep rfl pollEnds_sb (by decide) (by decide)
    | 3, _ => exact h.addressStore hrun hseq hstep
    | 4, _ => exact h.poll (by omega) hrun hseq hstep rfl pollEnds_addr (by decide) (by decide)
    | 5, _ => exact h.sr1Read hrun hseq hstep
    | 6, _ => exact h.sr2Read hrun hseq hstep
    | 7, _ => exact h.poll (by omega) hrun hseq hstep rfl pollEnds_txe (by decide) (by decide)
    | 8, _ => exact h.dataStore hrun hseq hstep
    | 9, _ => exact h.poll (by omega) hrun hseq hstep rfl pollEnds_btf (by decide) (by decide)
    | 10, _ => exact h.stopLoad hrun hseq hstep
    | 11, _ => exact h.stopStore hrun hseq hstep
  · exact h.device (Nat.le_of_lt hk) hseq hstep

end

end Sys2Proof.Machine
end

section
/-! A DELAY step by step, among other commands and on any counter (41_timer R160 to R163, R170): the position of
the sequencer in its queue, and the counter steps it has still to wait for. -/

namespace Sys2Proof.Machine

/-! ### Counter steps still to come -/

/-- A wait with `k` iterations left on a cleared counter that reloads `L`: the counter steps so far, with those
up to the underflow after the last iteration, pass `N`. -/
structure Timed (N L k : Nat) (s : State) : Prop where
  load : s.stk.load.toNat = L
  val : s.stk.val.toNat ≤ L
  bound : N + (L + 1) + s.stk.countflag.toNat * (L + 1) ≤ s.ticks + s.stk.toUnderflow + k * (L + 1)

section
variable {N L k : Nat} {s t : State}

theorem Timed.congr (h : Timed N L k s) (hload : t.stk.load = s.stk.load) (hval : t.stk.val = s.stk.val)
    (hflag : t.stk.countflag = s.stk.countflag) (hticks : t.ticks = s.ticks) : Timed N L k t := by
  have hto : t.stk.toUnderflow = s.stk.toUnderflow := by simp only [Stk.toUnderflow, hload, hval]
  obtain ⟨hl, hv, hb⟩ := h
  exact ⟨hload ▸ hl, hval ▸ hv, by rw [hflag, hticks, hto]; exact hb⟩

/-- Every counter step takes one off, and an underflow pays for the iteration it sets the flag for. -/
theorem Timed.stkStep (h : Timed N L k s) : Timed N L k (stkStep s) := by
  obtain ⟨hload, hval, hbound⟩ := h
  cases hen : s.stk.enable with
  | false => rw [stkStep_disabled hen]; exact ⟨hload, hval, hbound⟩
  | true =>
    by_cases h0 : s.stk.val = 0
    · rw [toUnderflow_of_val_zero h0, hload] at hbound
      have hto (k : Stk) (hk : k.val = k.load) : k.load.toNat ≤ k.toUnderflow := by
        unfold Stk.toUnderflow
        split
        · exact Nat.le_succ _
        · rw [hk]
      rw [stkStep_of_val_zero hen h0]
      refine ⟨hload, hload.le, ?_⟩
      have hreload := hto { s.stk with val := s.stk.load } rfl
      dsimp only at hreload ⊢
      omega
    rw [toUnderflow_of_val_ne_zero h0] at hbound
    by_cases h1 : s.stk.val = 1
    · have hflag : s.stk.countflag.toNat * (L + 1) ≥ 0 := Nat.zero_le _
      rw [h1] at hbound
      rw [stkStep_of_val_one hen h1]
      refine ⟨hload, Nat.zero_le _, ?_⟩
      rw [toUnderflow_of_val_zero rfl, hload, Bool.toNat_true, Nat.one_mul]
      change N + (L + 1) + _ ≤ s.ticks + 1 + _ at hbound
      change _ ≤ s.ticks + 1 + _ + _
      omega
    · have hne : s.stk.val - 1 ≠ 0 := sub_ne_zero.mpr h1
      have hsub : s.stk.val.toNat = (s.stk.val - 1).toNat + 1 := by bv_omega
      rw [stkStep_of_val_other hen h0 h1]
      refine ⟨hload, by dsimp only; omega, ?_⟩
      rw [toUnderflow_of_val_ne_zero hne]
      dsimp only
      omega

/-- With no iteration left the wait is over. -/
theorem Timed.ticks_le (h : Timed N L k s) : N ≤ s.ticks + k * (L + 1) := by
  obtain ⟨hload, hval, hbound⟩ := h
  have hto : s.stk.toUnderflow ≤ L + 1 := by
    unfold Stk.toUnderflow
    split <;> omega
  have hflag := Nat.zero_le (s.stk.countflag.toNat * (L + 1))
  omega

end

/-! ### Positions -/

/-- A DELAY once the counter is loaded and cleared: enable, wait, disarm (R160, R162). -/
def waitOps (c : Config) (n : Nat) : List MicroOp :=
  .wr (regAddr c .stkCtrl) 0x0000_0005 :: (if n > 0 then [.tickwait n] else []) ++
    [.wr (regAddr c .stkCtrl) 0x0000_0000]

theorem delayOps_eq (c : Config) (n : Nat) :
    delayOps c n = .wr (regAddr c .stkLoad) (BitVec.ofNat 32 (reload c)) ::
      ((if c.armClearsVal then [.wr (regAddr c .stkVal) 0] else []) ++ waitOps c n) := by
  simp [delayOps, waitOps]

/-- Where the sequencer stands in a DELAY, by what is left of it before the `later` iterations of other DELAYs.
When the arm clears the counter, the counter steps so far and the iterations to come pass `N`. -/
inductive DelayAt (c : Config) (N later : Nat) (s : State) : List MicroOp → Prop
  | arm (n : Nat) (htime : c.armClearsVal = true → N ≤ s.ticks + (n + later) * (reload c + 1)) :
      DelayAt c N later s (delayOps c n)
  | clear (n : Nat) (hload : s.stk.load.toNat = reload c)
      (htime : N ≤ s.ticks + (n + later) * (reload c + 1)) :
      DelayAt c N later s (.wr (regAddr c .stkVal) 0 :: waitOps c n)
  | enable (n : Nat) (htime : c.armClearsVal = true → Timed N (reload c) (n + later) s) :
      DelayAt c N later s (waitOps c n)
  | wait (k : Nat) (hk : 1 ≤ k) (htime : c.armClearsVal = true → Timed N (reload c) (k + later) s) :
      DelayAt c N later s [.tickwait k, .wr (regAddr c .stkCtrl) 0x0000_0000]
  | disarm (htime : c.armClearsVal = true → Timed N (reload c) later s) :
      DelayAt c N later s [.wr (regAddr c .stkCtrl) 0x0000_0000]

/-- What a turn of the sequencer in a DELAY leaves: the rest of the DELAY, or its end with its counter steps
taken. -/
inductive DelayLeft (c : Config) (N later : Nat) (t : State) : List MicroOp → Prop
  | inside {ops : List MicroOp} (h : DelayAt c N later t ops) : DelayLeft c N later t ops
  | ended (htime : c.armClearsVal = true → N ≤ t.ticks + later * (reload c + 1)) : DelayLeft c N later t []

section
variable {c : Config} {N later : Nat} {s t : State} {ops rest : List MicroOp}

theorem DelayAt.ne_nil (h : DelayAt c N later s ops) : ops ≠ [] := by
  cases h with
  | arm n => rw [delayOps_eq]; nofun
  | _ => nofun

/-- A device's turn keeps the position. -/
theorem DelayAt.device (h : DelayAt c N later s ops) (hdev : nextAgent s ≠ .seq) (hstep : step s = .next t) :
    DelayAt c N later t ops := by
  have hticks := step_ticks_le hstep
  have htimed {k : Nat} (hs : Timed N (reload c) k s) : Timed N (reload c) k t := by
    cases ha : nextAgent s with
    | seq => exact absurd ha hdev
    | i2cp =>
      obtain ⟨hstk, hsame⟩ := i2cpStep_stk_ticks s.takeTurn
      rw [step_eq_of_i2cp ha hstep]
      exact hs.congr (by rw [hstk]; rfl) (by rw [hstk]; rfl) (by rw [hstk]; rfl) hsame
    | stk =>
      have hturn : Timed N (reload c) k s.takeTurn := hs.congr rfl rfl rfl rfl
      rw [step_eq_of_stk ha hstep]
      exact hturn.stkStep
  have hload : t.stk.load = s.stk.load := by
    cases ha : nextAgent s with
    | seq => exact absurd ha hdev
    | i2cp => rw [step_eq_of_i2cp ha hstep, (i2cpStep_stk_ticks _).1]; rfl
    | stk => rw [step_eq_of_stk ha hstep, stkStep_load]; rfl
  cases h with
  | arm n htime => exact .arm n fun hclears => (htime hclears).trans (by omega)
  | clear n hl htime => exact .clear n (hload ▸ hl) (by omega)
  | enable n htime => exact .enable n fun hclears => htimed (htime hclears)
  | wait k hk htime => exact .wait k hk fun hclears => htimed (htime hclears)
  | disarm htime => exact .disarm fun hclears => htimed (htime hclears)

/-- A write to a register of the counter changes the counter alone. -/
theorem step_of_wr_stk {r : Reg} {v : Word} {k : Stk}
    (hdone : writeReg r v { s.takeTurn with mq := rest } = .done { s.takeTurn with mq := rest, stk := k })
    (hrun : s.status = .running) (hseq : nextAgent s = .seq) (hq : s.mq = .wr (regAddr s.cfg r) v :: rest) :
    step s = .next { s.takeTurn with mq := rest, stk := k, hist := s.hist ++ [.wr (regAddr s.cfg r) v] } := by
  rw [step_of_wr ⟨hrun, hseq, hq⟩]
  exact memWrite_of_done hdone

/-- An admitted reload value fits the register. -/
theorem reload_toNat {c : Config} (h : reload c ≤ 0xFFFFFF) :
    ((BitVec.ofNat 32 (reload c)).setWidth 24).toNat = reload c := by
  rw [BitVec.toNat_setWidth, BitVec.toNat_ofNat]
  omega

/-- What a turn of the sequencer in a DELAY changes besides the counter: its queue and the history. -/
structure DelayTurn (c : Config) (N later : Nat) (rest : List MicroOp) (s t : State) : Prop where
  peripheral : t.peripheral = s.peripheral
  cfg : t.cfg = s.cfg
  status : t.status = s.status
  left : ∃ ops, t.mq = ops ++ rest ∧ DelayLeft c N later t ops

/-- After the enabling write: the wait, or with nothing to wait for the disarm (R160, R162). -/
theorem delayAt_enabled (n : Nat) (htime : c.armClearsVal = true → Timed N (reload c) (n + later) s) :
    DelayAt c N later s ((if n > 0 then [.tickwait n] else []) ++ [.wr (regAddr c .stkCtrl) 0x0000_0000]) := by
  cases n with
  | zero => exact .disarm fun hclears => by simpa using htime hclears
  | succ n => exact .wait (n + 1) (Nat.succ_pos n) htime

/-- A sequencer's turn in a DELAY. -/
theorem DelayAt.seq (h : DelayAt s.cfg N later s ops) (hreload : reload s.cfg ≤ 0xFFFFFF)
    (hq : s.mq = ops ++ rest) (hrun : s.status = .running) (hseq : nextAgent s = .seq)
    (hstep : step s = .next t) : DelayTurn s.cfg N later rest s t := by
  cases h with
  | arm n htime =>
    rw [delayOps_eq] at hq
    cases (step_of_wr_stk rfl hrun hseq hq).symm.trans hstep
    refine ⟨rfl, rfl, rfl, _, rfl, .inside ?_⟩
    cases hclears : s.cfg.armClearsVal with
    | false => exact .enable n fun h => absurd (hclears.symm.trans h) nofun
    | true => exact .clear n (reload_toNat hreload) (htime hclears)
  | clear n hload htime =>
    cases (step_of_wr_stk rfl hrun hseq hq).symm.trans hstep
    refine ⟨rfl, rfl, rfl, _, rfl, .inside (.enable n fun _ => ⟨hload, Nat.zero_le _, ?_⟩)⟩
    rw [toUnderflow_of_val_zero rfl]
    change _ + 0 * _ ≤ s.ticks + (s.stk.load.toNat + 1) + _
    rw [hload]
    omega
  | enable n htime =>
    cases (step_of_wr_stk rfl hrun hseq hq).symm.trans hstep
    exact ⟨rfl, rfl, rfl, _, rfl, .inside (delayAt_enabled n fun hclears => (htime hclears).congr rfl rfl rfl rfl)⟩
  | wait k hk htime =>
    cases (tickwaitCountsTheFlag s k _ ⟨hrun, hseq, hq⟩).symm.trans hstep
    cases hflag : s.stk.countflag with
    | false =>
      refine ⟨rfl, rfl, rfl, _, hq, .inside (.wait k hk fun hclears => ?_)⟩
      exact (htime hclears).congr rfl rfl hflag.symm rfl
    | true =>
      have hread (hclears : s.cfg.armClearsVal = true) (mq : List MicroOp) (hist : List Event) :
          Timed N (reload s.cfg) (k - 1 + later)
            { s.takeTurn with stk := { s.stk with countflag := false }, mq := mq, hist := hist } := by
        obtain ⟨hload, hval, hbound⟩ := htime hclears
        refine ⟨hload, hval, ?_⟩
        rw [hflag, Bool.toNat_true, Nat.one_mul] at hbound
        have hsucc : k + later = k - 1 + later + 1 := by omega
        rw [hsucc, Nat.succ_mul] at hbound
        change _ + 0 * _ ≤ s.ticks + s.stk.toUnderflow + _
        omega
      refine ⟨rfl, rfl, rfl, ?_⟩
      by_cases hlast : k = 1
      · exact ⟨_, if_pos hlast, .inside (.disarm fun hclears => by simpa [hlast] using hread hclears _ _)⟩
      · exact ⟨[.tickwait (k - 1), .wr (regAddr s.cfg .stkCtrl) 0], if_neg hlast,
          .inside (.wait (k - 1) (by omega) fun hclears => hread hclears _ _)⟩
  | disarm htime =>
    cases (step_of_wr_stk rfl hrun hseq hq).symm.trans hstep
    exact ⟨rfl, rfl, rfl, [], rfl, .ended fun hclears => (htime hclears).ticks_le⟩

end

end Sys2Proof.Machine
end

section
/-! A queue of sends (43_i2c R220, R234, 41_timer R170): its transactions one after another, its delays between
them, and what is on the bus when it has run empty. -/

namespace Sys2Proof.Machine

/-- The bus events of a list of sends. -/
def sendEvents (a : BitVec 7) (l : List Send) : List Event := (sendBytes l).flatMap (transactionEvents a)

/-- The milliseconds of a list of sends. -/
def sendMs (l : List Send) : Nat := (sendDelays l).sum

theorem sendEvents_byte (a : BitVec 7) (b : Byte) (l : List Send) :
    sendEvents a (.byte b :: l) = transactionEvents a b ++ sendEvents a l := rfl

/-- Where the sequencer stands in a queue of sends to `a` before `tail`. Unless a byte was answered NACK, the
bus trace with what is to come is `X`; and when the arm clears the counter, its steps with those of the delays
to come pass `N`. -/
inductive Sending (a : BitVec 7) (tail : List MicroOp) (X : List Event) (N : Nat) (s : State) : Prop
  | byte (b : Byte) (l : List Send) (k : Nat) (hk : k < 12) (hat : InTx a b (sendOps s.cfg a l ++ tail) k s)
      (hbus : s.i2cp.ph = .nacked ∨ s.busTotal a b (txStage k) ++ sendEvents a l = X)
      (htime : s.cfg.armClearsVal = true → N ≤ s.ticks + sendMs l * (reload s.cfg + 1))
  | delay (ops : List MicroOp) (l : List Send) (hat : InTx a 0 (ops ++ (sendOps s.cfg a l ++ tail)) 12 s)
      (hdelay : DelayAt s.cfg N (sendMs l) s ops) (hbus : s.busTotal a 0 .rest ++ sendEvents a l = X)
  | done (hat : InTx a 0 tail 12 s) (hbus : s.busTotal a 0 .rest = X)
      (htime : s.cfg.armClearsVal = true → N ≤ s.ticks)

section
variable {a : BitVec 7} {b : Byte} {rest tail : List MicroOp} {X : List Event} {N : Nat} {s t : State}

/-- Between transactions no byte and no address is on its way. -/
theorem InTx.between (h : InTx a b rest 12 s) (a' : BitVec 7) (b' : Byte) : InTx a' b' rest 12 s :=
  ⟨h.queue, TxLink.advance (st := .rest) h.link h.link.link nofun nofun nofun a' b', nofun, nofun⟩

theorem busTotal_rest (a a' : BitVec 7) (b b' : Byte) : s.busTotal a b .rest = s.busTotal a' b' .rest := by
  rw [State.busTotal, State.busTotal]
  cases s.i2cp.ph <;> rfl

/-- At rest the next transaction is still to come, after a stop that is pending. -/
theorem TxLink.busTotal_opening (h : TxLink a b .rest s) :
    s.busTotal a b .opening = s.busTotal a b .rest ++ transactionEvents a b := by
  have hlink := h.link
  simp only [TxStage.links, State.link, List.mem_cons, Prod.mk.injEq, List.not_mem_nil, or_false] at hlink
  rw [State.busTotal, State.busTotal, List.append_assoc]
  obtain ⟨hph, -⟩ | ⟨hph, -⟩ := hlink <;> rw [hph] <;> rfl

/-- Between two sends the position is the next one's first, or the end. -/
theorem Sending.of_rest (l : List Send) (hat : InTx a 0 (sendOps s.cfg a l ++ tail) 12 s)
    (hbus : s.busTotal a 0 .rest ++ sendEvents a l = X)
    (htime : s.cfg.armClearsVal = true → N ≤ s.ticks + sendMs l * (reload s.cfg + 1)) :
    Sending a tail X N s := by
  cases l with
  | nil => exact .done hat (by simpa [sendEvents, sendBytes] using hbus) (by simpa [sendMs, sendDelays] using htime)
  | cons x l =>
    cases x with
    | byte b =>
      have hlink : TxLink a b .rest s := (hat.between a b).link
      have hopening : TxLink a b .opening s := hlink.advance (st' := .opening) hlink.link nofun nofun nofun a b
      have hqueue : s.mq = (i2cwOps s.cfg a b ++ sendOps s.cfg a l) ++ tail := hat.queue
      refine .byte b l 0 (by omega) ⟨hqueue.trans (List.append_assoc ..), hopening, nofun, nofun⟩ (.inr ?_) htime
      rw [← hbus, sendEvents_byte, ← List.append_assoc, busTotal_rest a a 0 b]
      exact congrArg (· ++ _) hlink.busTotal_opening
    | delay n =>
      have hqueue : s.mq = (delayOps s.cfg n ++ sendOps s.cfg a l) ++ tail := hat.queue
      exact .delay _ l ⟨hqueue.trans (List.append_assoc ..), hat.link, nofun, nofun⟩ (.arm n htime) hbus

/-- Between transactions a device's turn keeps the position and what is to come. -/
theorem InTx.rest_device (h : InTx a b rest 12 s) (hrun : s.status = .running) (hdev : nextAgent s ≠ .seq)
    (hstep : Machine.step s = .next t) :
    InTx a b rest 12 t ∧ t.status = .running ∧ t.busTotal a b .rest = s.busTotal a b .rest := by
  obtain ⟨j, hkj, hj, hat, hstatus, htotal⟩ | ⟨f, hf, -⟩ := h.device le_rfl hdev hstep
  · obtain rfl := Nat.le_antisymm hj hkj
    obtain ⟨-, htotal⟩ := htotal.resolve_left (hat.link.ne_nacked (by decide))
    exact ⟨hat, hstatus.trans hrun, htotal⟩
  · cases hf.symm.trans ((step_status_of_device hdev hstep).trans hrun)

/-- A turn in a transaction of the queue: on in it, on to the next send, or a tolerated fault. -/
theorem Sending.byteStep {k : Nat} {l : List Send} (hk : k < 12) (hat : InTx a b (sendOps s.cfg a l ++ tail) k s)
    (hbus : s.i2cp.ph = .nacked ∨ s.busTotal a b (txStage k) ++ sendEvents a l = X)
    (htime : s.cfg.armClearsVal = true → N ≤ s.ticks + sendMs l * (reload s.cfg + 1)) (hrun : s.status = .running)
    (hstep : step s = .next t) :
    (Sending a tail X N t ∧ t.status = .running) ∨ ∃ f, t.status = .faulted f ∧ Tolerated s.cfg f := by
  obtain ⟨-, -, hcfg⟩ := launchDataNeverChanges s t hstep
  have hticks := step_ticks_le hstep
  obtain ⟨j, -, hj, hat, hstatus, htotal⟩ | ⟨f, hf, htolerated⟩ := hat.step hk hrun hstep
  · have htime : t.cfg.armClearsVal = true → N ≤ t.ticks + sendMs l * (reload t.cfg + 1) := by
      rw [hcfg]
      exact fun hclears => (htime hclears).trans (by omega)
    have hbus : t.i2cp.ph = .nacked ∨ t.busTotal a b (txStage j) ++ sendEvents a l = X :=
      htotal.imp_right fun ⟨hph, htotal⟩ => htotal ▸ hbus.resolve_left hph
    rw [← hcfg] at hat
    refine .inl ⟨?_, hstatus.trans hrun⟩
    obtain hj | rfl := Nat.lt_or_eq_of_le hj
    · exact .byte b l j hj hat hbus htime
    · have hack : t.i2cp.ph ≠ .nacked := hat.link.ne_nacked (by decide)
      exact .of_rest l (hat.between a 0) (busTotal_rest a a b 0 ▸ hbus.resolve_left hack) htime
  · exact .inr ⟨f, hf, htolerated⟩

/-- A turn in a delay of the queue: on in it, or on to the next send. -/
theorem Sending.delayStep {ops : List MicroOp} {l : List Send}
    (hat : InTx a 0 (ops ++ (sendOps s.cfg a l ++ tail)) 12 s) (hdelay : DelayAt s.cfg N (sendMs l) s ops)
    (hbus : s.busTotal a 0 .rest ++ sendEvents a l = X) (hreload : reload s.cfg ≤ 0xFFFFFF)
    (hrun : s.status = .running) (hstep : step s = .next t) : Sending a tail X N t ∧ t.status = .running := by
  obtain ⟨-, -, hcfg⟩ := launchDataNeverChanges s t hstep
  by_cases hseq : nextAgent s = .seq
  · obtain ⟨hperipheral, -, hstatus, ops', hmq, hleft⟩ := hdelay.seq hreload hat.queue hrun hseq hstep
    have hlink : TxLink a 0 .rest t := TxLink.congr hat.link hperipheral hcfg
    have hat' : InTx a 0 (ops' ++ (sendOps t.cfg a l ++ tail)) 12 t :=
      ⟨by rw [hcfg]; exact hmq, hlink, nofun, nofun⟩
    have hi2cp : t.i2cp = s.i2cp := congrArg (·.2.1) hperipheral
    have hbus : t.busTotal a 0 .rest ++ sendEvents a l = X := by
      rw [State.busTotal, hi2cp, step_busTrace (by simp [hseq]) hstep]
      exact hbus
    refine ⟨?_, hstatus.trans hrun⟩
    cases hleft with
    | inside hdelay => exact .delay _ l hat' (hcfg ▸ hdelay) hbus
    | ended htime => exact .of_rest l hat' hbus (hcfg ▸ htime)
  · obtain ⟨hat, hrun, htotal⟩ := hat.rest_device hrun hseq hstep
    rw [← hcfg] at hat
    exact ⟨.delay ops l hat (hcfg ▸ hdelay.device hseq hstep) (htotal ▸ hbus), hrun⟩

/-- A turn of the queue of sends: it goes on, takes a tolerated fault, or is the sequencer's at the queue's
end. -/
theorem Sending.step (h : Sending a tail X N s) (hreload : reload s.cfg ≤ 0xFFFFFF) (hrun : s.status = .running)
    (hstep : step s = .next t) :
    (Sending a tail X N t ∧ t.status = .running) ∨ (∃ f, t.status = .faulted f ∧ Tolerated s.cfg f) ∨
      (nextAgent s = .seq ∧ InTx a 0 tail 12 s) := by
  cases h with
  | byte b l k hk hat hbus htime => exact (Sending.byteStep hk hat hbus htime hrun hstep).imp_right .inl
  | delay ops l hat hdelay hbus => exact .inl (Sending.delayStep hat hdelay hbus hreload hrun hstep)
  | done hat hbus htime =>
    by_cases hseq : nextAgent s = .seq
    · exact .inr (.inr ⟨hseq, hat⟩)
    · obtain ⟨-, -, hcfg⟩ := launchDataNeverChanges s t hstep
      obtain ⟨hat, hrun, htotal⟩ := hat.rest_device hrun hseq hstep
      refine .inl ⟨.done hat (htotal ▸ hbus) ?_, hrun⟩
      rw [hcfg]
      exact fun hclears => (htime hclears).trans (step_ticks_le hstep)

/-- A bus at rest is between transactions. -/
theorem txLink_of_busAtRest (a : BitVec 7) (b : Byte) (h : busAtRest s = true) : TxLink a b .rest s := by
  simp only [busAtRest, Bool.and_eq_true, beq_iff_eq] at h
  obtain ⟨⟨⟨hready, hph⟩, hflags⟩, hcr1⟩ := h
  obtain ⟨hclocked, hreleased, -⟩ := busReady_parts hready
  refine ⟨?_, flagsMatch_of_reset hph rfl hflags, hclocked, hreleased, nofun, nofun, nofun, nofun⟩
  simp only [State.link, hph, hcr1]
  exact List.mem_cons_self ..

theorem busTotal_of_busAtRest (h : busAtRest s = true) : s.busTotal a b .rest = busTrace s.hist := by
  simp only [busAtRest, Bool.and_eq_true, beq_iff_eq] at h
  obtain ⟨⟨⟨-, hph⟩, -⟩, -⟩ := h
  rw [State.busTotal, hph]
  exact List.append_nil _

end

/-! ### A run of the queue -/

/-- A run past its command at `cp`: halted, about to halt, faulted, or at a later command. -/
def PastCommand (cp : Nat) (s : State) : Prop := s.status ≠ .running ∨ cp < s.cp ∨ s.mq = [.halt]

section
variable {cp : Nat} {s t : State}

theorem PastCommand.step (h : PastCommand cp s) (hstep : step s = .next t) : PastCommand cp t := by
  obtain ⟨-, hidle, hfaulted, -⟩ := statusIsLeftOnlyByHaltOrFault
  by_cases hrun : s.status = .running
  · obtain hnot | hlater | hhalt := h
    · exact absurd hrun hnot
    · refine .inr (.inl (hlater.trans_le ?_))
      by_cases hfetch : AtFetch s
      · rw [step_of_atFetch hfetch] at hstep
        obtain ⟨-, rfl⟩ | ⟨w, why, -, -, rfl⟩ | ⟨w, i, ops, -, -, rfl⟩ := fetchStep_effect hstep
        · exact le_rfl
        · exact le_rfl
        · exact Nat.le_succ _
      · exact (step_cp_of_not_atFetch hfetch hstep).ge
    · cases ha : nextAgent s with
      | seq =>
        cases (haltEntersIdle.1 s [] ⟨hrun, ha, hhalt⟩).symm.trans hstep
        exact .inl nofun
      | i2cp => exact .inr (.inr (by rw [step_eq_of_i2cp ha hstep, i2cpStep_eq]; exact hhalt))
      | stk => exact .inr (.inr (by rw [step_eq_of_stk ha hstep, stkStep_eq]; exact hhalt))
  · cases hs : s.status with
    | running => exact absurd hs hrun
    | idle => exact .inl (by rw [hidle s t hstep hs]; nofun)
    | faulted f => exact absurd hstep (hfaulted s f hs t)

/-- A fetch leaves the command. -/
theorem pastCommand_of_fetch (hfetch : AtFetch s) (hstep : step s = .next t) : PastCommand s.cp t := by
  rw [step_of_atFetch hfetch] at hstep
  obtain ⟨-, rfl⟩ | ⟨w, why, -, -, rfl⟩ | ⟨w, i, ops, -, -, rfl⟩ := fetchStep_effect hstep
  · exact .inr (.inr rfl)
  · exact .inl nofun
  · exact .inr (.inl (Nat.lt_succ_self _))

/-- A run of a command's queue of sends: on its way, or past it. -/
def SendingOrPast (c : Config) (cp : Nat) (a : BitVec 7) (X : List Event) (N : Nat) (s : State) : Prop :=
  (Sending a [] X N s ∧ s.status = .running ∧ s.cp = cp ∧ s.cfg = c) ∨ PastCommand cp s

theorem SendingOrPast.step {c : Config} {a : BitVec 7} {X : List Event} {N : Nat} (hreload : reload c ≤ 0xFFFFFF)
    (h : SendingOrPast c cp a X N s) (hstep : step s = .next t) : SendingOrPast c cp a X N t := by
  obtain ⟨hsending, hrun, rfl, rfl⟩ | hpast := h
  · by_cases hfetch : AtFetch s
    · exact .inr (pastCommand_of_fetch hfetch hstep)
    · obtain ⟨-, -, hcfg⟩ := launchDataNeverChanges s t hstep
      obtain ⟨hsending, hrun⟩ | ⟨f, hf, -⟩ | ⟨hseq, hat⟩ := hsending.step hreload hrun hstep
      · exact .inl ⟨hsending, hrun, step_cp_of_not_atFetch hfetch hstep, hcfg⟩
      · exact .inr (.inl (by rw [hf]; nofun))
      · exact absurd ⟨hrun, hseq, hat.queue⟩ hfetch
  · exact .inr (hpast.step hstep)

/-- With the queue run empty the sends are done. -/
theorem Sending.of_nil {a : BitVec 7} {tail : List MicroOp} {X : List Event} {N : Nat} (h : Sending a tail X N s)
    (hq : s.mq = []) :
    TxLink a 0 .rest s ∧ s.busTotal a 0 .rest = X ∧ (s.cfg.armClearsVal = true → N ≤ s.ticks) := by
  cases h with
  | byte b l k hk hat =>
    have hlength := congrArg List.length (hat.queue.symm.trans hq)
    have hops : (i2cwOps s.cfg a b).length = 12 := rfl
    simp only [List.length_append, List.length_drop, hops, List.length_nil] at hlength
    omega
  | delay ops l hat hdelay =>
    have hqueue : ops ++ (sendOps s.cfg a l ++ tail) = [] := hat.queue.symm.trans hq
    obtain ⟨hops, -⟩ := List.append_eq_nil_iff.1 hqueue
    exact absurd hops hdelay.ne_nil
  | done hat hbus htime => exact ⟨hat.link, hbus, htime⟩

/-- Between transactions only a stop may be pending. -/
theorem TxLink.pending {a : BitVec 7} {b : Byte} (h : TxLink a b .rest s) :
    ∃ pending, s.busTotal a b .rest = busTrace s.hist ++ pending ∧
      ((s.i2cp.ph = .idle ∧ pending = []) ∨
        (s.i2cp.ph = .dataDone ∧ s.i2c.cr1.getLsbD 9 = true ∧ pending = [.busStop])) := by
  have hlink := h.link
  simp only [TxStage.links, State.link, List.mem_cons, Prod.mk.injEq, List.not_mem_nil, or_false] at hlink
  refine ⟨TxStage.owed a b .rest s.i2cp.ph, rfl, ?_⟩
  obtain ⟨hph, -⟩ | ⟨hph, hcr1⟩ := hlink
  · exact .inl ⟨hph, by rw [hph]; rfl⟩
  · exact .inr ⟨hph, by rw [hcr1]; rfl, by rw [hph]; rfl⟩

end

/-- Settles O46: the position in the queue of sends is kept until the queue has run empty. -/
theorem queuedSendsReachTheBus : Obligations.QueuedSendsReachTheBus := by
  intro s t a l n hreload hrun hq hrest hsteps hempty hcp hrunning
  have hstart : InTx a 0 (sendOps s.cfg a l ++ []) 12 s :=
    ⟨hq.trans (List.append_nil _).symm, txLink_of_busAtRest a 0 hrest, nofun, nofun⟩
  have hsending := Sending.of_rest l hstart rfl fun _ => le_rfl
  rw [busTotal_of_busAtRest hrest] at hsending
  have hend : SendingOrPast s.cfg s.cp a _ _ t :=
    run_keeps (fun _ _ => SendingOrPast.step hreload) n s t (.inl ⟨hsending, hrun, rfl, rfl⟩) hsteps
  obtain ⟨hsending, -, -, hcfg⟩ | hstopped | hlater | hhalt := hend
  · obtain ⟨hlink, hbus, htime⟩ := hsending.of_nil hempty
    obtain ⟨pending, htotal, hpending⟩ := hlink.pending
    exact ⟨⟨pending, htotal.symm.trans hbus, hpending⟩, fun hclears => htime (hcfg.symm ▸ hclears)⟩
  · exact absurd hrunning hstopped
  · omega
  · cases hempty.symm.trans hhalt

end Sys2Proof.Machine
end

section
/-! Runs of admitted streams (45_display R315): before INIT_BUS, in it, and after it. First what a fetch can
queue, and a machine whose bus is quiet. -/

namespace Sys2Proof.Machine

/-! ### Expansions as sends -/

/-- What can stand after a command's sends: nothing, or a string still to be fetched (R140). -/
def StringTail (tail : List MicroOp) : Prop := tail = [] ∨ ∃ p, tail = [.strch p]

/-- A queue of sends to one address. -/
def IsSends (c : Config) (a : BitVec 7) (ops : List MicroOp) : Prop := ∃ l, ops = sendOps c a l

section
variable {c : Config} {a : BitVec 7}

theorem sendOps_append (l l' : List Send) : sendOps c a (l ++ l') = sendOps c a l ++ sendOps c a l' := by
  induction l with
  | nil => rfl
  | cons x l ih => cases x <;> simp [sendOps, ih]

theorem IsSends.append {ops ops' : List MicroOp} (h : IsSends c a ops) (h' : IsSends c a ops') :
    IsSends c a (ops ++ ops') := by
  obtain ⟨l, rfl⟩ := h
  obtain ⟨l', rfl⟩ := h'
  exact ⟨l ++ l', (sendOps_append l l').symm⟩

theorem isSends_delayOps (n : Nat) : IsSends c a (delayOps c n) := ⟨[.delay n], (List.append_nil _).symm⟩

theorem isSends_i2cwOps (b : Byte) : IsSends c a (i2cwOps c a b) := ⟨[.byte b], (List.append_nil _).symm⟩

theorem isSends_nybOps (d : BitVec 4) (r : BitVec 1) : IsSends c slaveAddr (nybOps c d r) :=
  ((isSends_i2cwOps _).append (isSends_delayOps _)).append (isSends_i2cwOps _)

theorem isSends_byteOps (b : Byte) (r : BitVec 1) : IsSends c slaveAddr (byteOps c b r) :=
  (isSends_nybOps _ r).append (isSends_nybOps _ r)

theorem isSends_lcdinitOps : IsSends c slaveAddr (lcdinitOps c) := by
  have hreset : IsSends c slaveAddr (resetNybOps c) := (isSends_nybOps _ 0).append (isSends_delayOps _)
  have hwake : IsSends c slaveAddr (wakeOps c) :=
    (((isSends_delayOps _).append hreset).append hreset).append hreset
  have hconfigure : IsSends c slaveAddr (configureOps c) :=
    ((isSends_byteOps _ 0).append (isSends_byteOps _ 0)).append (isSends_byteOps _ 0)
  exact (hwake.append (isSends_nybOps _ 0)).append hconfigure

end

/-- Every command but INIT_BUS and IDLE queues sends, and PRINT a string. -/
theorem exec_sends {i : Instr} (hinit : i ≠ .initBus) (hidle : i ≠ .idle) (s : State) :
    ∃ a l tail, StringTail tail ∧ exec i s = .next (s.startCommand (sendOps s.cfg a l ++ tail)) := by
  have sends {a : BitVec 7} {ops : List MicroOp} (h : IsSends s.cfg a ops)
      (hexec : exec i s = .next (s.startCommand ops)) :
      ∃ a l tail, StringTail tail ∧ exec i s = .next (s.startCommand (sendOps s.cfg a l ++ tail)) := by
    obtain ⟨l, rfl⟩ := h
    exact ⟨a, l, [], .inl rfl, by rw [List.append_nil]; exact hexec⟩
  cases i with
  | delay ms => exact sends (a := 0) (isSends_delayOps ms) rfl
  | i2cw a b => exact sends (isSends_i2cwOps b) rfl
  | nyb d r => exact sends (isSends_nybOps d r) rfl
  | cmd b | data b => exact sends (isSends_byteOps b _) rfl
  | lcdInit => exact sends isSends_lcdinitOps rfl
  | clear => exact sends ((isSends_byteOps cmdClear 0).append (isSends_delayOps tClear)) rfl
  | print p => exact ⟨0, [], [.strch p], .inr ⟨p, rfl⟩, rfl⟩
  | initBus => exact absurd rfl hinit
  | idle => exact absurd rfl hidle

/-! ### Fetches from an admitted stream -/

/-- The rest of the stream is admitted (R315), with INIT_BUS passed or not. -/
def Follows (busDone : Bool) (s : State) : Prop :=
  ∃ lcdDone, streamWf busDone lcdDone ((s.cs.drop s.cp).map fun w => (decode w).instr?) = true

theorem Follows.congr {busDone : Bool} {s t : State} (h : Follows busDone s) (hcs : t.cs = s.cs)
    (hcp : t.cp = s.cp) : Follows busDone t := by
  rw [Follows, hcs, hcp]
  exact h

/-- After an INIT_BUS there is no other, and no command else makes one allowed. -/
theorem streamWf_cons {busDone lcdDone : Bool} {i : Instr} {rest : List (Option Instr)}
    (h : streamWf busDone lcdDone (some i :: rest) = true) (hidle : i ≠ .idle) :
    (i = .initBus ∧ busDone = false ∧ ∃ lcdDone', streamWf true lcdDone' rest = true) ∨
    (i ≠ .initBus ∧ ∃ lcdDone', streamWf busDone lcdDone' rest = true) := by
  rw [streamWf, if_neg hidle] at h
  split at h
  · cases h
  · split at h
    · simp only [Bool.and_eq_true, Bool.not_eq_eq_eq_not, Bool.not_true] at h
      exact .inl ⟨‹_›, h.1, _, h.2⟩
    · split at h
      · exact .inr ⟨‹_›, _, h⟩
      · exact .inr ⟨‹_›, _, h⟩

/-- What a fetch from an admitted stream leads to. -/
inductive Fetched (busDone : Bool) (s t : State) : Prop
  | halts (hq : t.mq = [.halt]) (hstatus : t.status = s.status)
  | faults (f : BlockFault) (hf : t.status = .faulted f) (htolerated : Tolerated s.cfg f)
  | initialises (hfirst : busDone = false) (ht : t = s.takeTurn.startCommand (initbusOps s.cfg))
      (hleft : Follows true t)
  | sends (a : BitVec 7) (l : List Send) (tail : List MicroOp) (htail : StringTail tail)
      (ht : t = s.takeTurn.startCommand (sendOps s.cfg a l ++ tail)) (hleft : Follows busDone t)

theorem fetched {busDone : Bool} {s t : State} (hfetch : AtFetch s) (h : Follows busDone s)
    (hstep : step s = .next t) : Fetched busDone s t := by
  rw [step_of_atFetch hfetch] at hstep
  obtain ⟨-, rfl⟩ | ⟨w, why, -, -, rfl⟩ | ⟨w, i, hw, hi, hexec⟩ := fetchStep_cases hstep
  · exact .halts rfl rfl
  · exact .faults _ rfl trivial
  · obtain ⟨lcdDone, hwf⟩ := h
    have hw : s.cs[s.cp]? = some w := hw
    obtain ⟨hlt, rfl⟩ := List.getElem?_eq_some_iff.1 hw
    rw [List.drop_eq_getElem_cons hlt, List.map_cons, hi] at hwf
    by_cases hidle : i = .idle
    · subst hidle
      cases hexec
      exact .halts rfl rfl
    · obtain ⟨rfl, hfirst, hleft⟩ | ⟨hinit, hleft⟩ := streamWf_cons hwf hidle
      · cases hexec
        exact .initialises hfirst rfl hleft
      · obtain ⟨a, l, tail, htail, hsends⟩ := exec_sends hinit hidle s.takeTurn
        cases hsends.symm.trans hexec
        exact .sends a l tail htail rfl hleft

/-! ### A quiet bus -/

/-- No transaction is open and none is requested: the peripheral has no move. -/
structure Quiet (s : State) : Prop where
  idle : s.i2cp.ph = .idle
  noStart : s.i2c.cr1.getLsbD 8 = false

/-- The state with another counter and tick count. -/
def State.counted (s : State) (k : Stk) (n : Nat) : State := { s with stk := k, ticks := n }

section
variable {s t u : State} {r : Reg} {v : Word}

/-- On a quiet bus a device's turn is at most a step of the counter. -/
theorem Quiet.device (h : Quiet s) (hdev : nextAgent s ≠ .seq) (hstep : step s = .next t) :
    ∃ k n hist env, t = (s.counted k n).inTurn s.mq s.tmp hist env := by
  cases ha : nextAgent s with
  | seq => exact absurd ha hdev
  | i2cp =>
    rw [step_eq_of_i2cp ha hstep, i2cpStep_no_start (s := s.takeTurn) h.idle h.noStart]
    exact ⟨s.stk, s.ticks, s.hist, _, rfl⟩
  | stk =>
    rw [step_eq_of_stk ha hstep, stkStep_eq]
    exact ⟨_, _, _, _, rfl⟩

/-- A completed write leaves the bus quiet, but for one to `DR` and for a start request. -/
theorem Quiet.of_writeReg (h : Quiet s) (hr : r ≠ .i2cDr) (hv : r = .i2cCr1 → v.getLsbD 8 = false)
    (hdone : writeReg r v s = .done u) : Quiet u := by
  obtain ⟨hidle, hnostart⟩ := h
  have hframe := writeReg_frame hdone
  have store (hv : v.getLsbD 8 = false) : (v &&& cr1Fields).getLsbD 8 = false := by
    rw [BitVec.getLsbD_and, hv, Bool.false_and]
  cases r with
  | i2cCr1 =>
    have hstored := store (hv rfl)
    obtain ⟨-, rfl⟩ | ⟨-, hswrst⟩ | ⟨-, -, rfl⟩ := writeCr1_done hdone
    · exact ⟨hidle, hnostart⟩
    · obtain ⟨-, -, rfl⟩ | ⟨-, rfl⟩ := writeSwrst_done hswrst
      · exact ⟨rfl, (by decide : mSwrst.getLsbD 8 = false)⟩
      · exact ⟨hidle, hstored⟩
    · exact ⟨hidle, hstored⟩
  | i2cDr => exact absurd rfl hr
  | rccApb1rstr =>
    obtain ⟨-, -, rfl⟩ | ⟨-, rfl⟩ := writeApb1rstr_done hdone
    · exact ⟨rfl, (by decide : I2cRegs.reset.cr1.getLsbD 8 = false)⟩
    · exact ⟨hidle, hnostart⟩
  | i2cCcr => obtain ⟨-, rfl⟩ | ⟨-, -, rfl⟩ := writeCcr_done hdone <;> exact ⟨hidle, hnostart⟩
  | i2cCr2 | i2cOar1 | i2cOar2 | i2cTrise | i2cFltr =>
    obtain ⟨-, rfl⟩ | ⟨-, rfl⟩ := writeI2cPlain_done hdone <;> exact ⟨hidle, hnostart⟩
  | i2cSr1 | i2cSr2 | stkCtrl | stkLoad | stkVal | stkCalib | rccAhb1enr | rccApb1enr
  | gpioModer | gpioOtyper | gpioOspeedr | gpioPupdr | gpioAfrl | gpioAfrh =>
    exact ⟨(congrArg I2cp.ph (hframe.i2cp (by decide))).trans hidle,
      (congrArg (·.cr1.getLsbD 8) (hframe.i2c (by decide))).trans hnostart⟩

/-- A fetched character of a string, or the string's end, or its overrun (R140). -/
theorem strch_cases {p : Nat} (hhead : AtHead s (.strch p) []) (hstep : step s = .next t) :
    (∃ f, t.status = .faulted f ∧ Tolerated s.cfg f) ∨
    (∃ l tail hist, StringTail tail ∧
      t = s.takeTurn.inTurn (sendOps s.cfg slaveAddr l ++ tail) s.tmp hist s.takeTurn.env) := by
  obtain ⟨hoverrun, hend, hchar⟩ := strchFetchesTheCharacter s p [] hhead
  by_cases hin : p < s.cfg.strmemSize
  · by_cases hzero : s.str.read p = 0
    · cases (hend hin hzero).symm.trans hstep
      exact .inr ⟨[], [], _, .inl rfl, rfl⟩
    · cases (hchar hin hzero).symm.trans hstep
      obtain ⟨l, hl⟩ : IsSends s.cfg slaveAddr (charOps s.cfg (s.str.read p)) :=
        (isSends_byteOps _ 1).append (isSends_delayOps _)
      refine .inr ⟨l, [.strch (p + 1)], s.hist ++ [.str p (s.str.read p)], .inr ⟨p + 1, rfl⟩, ?_⟩
      rw [← hl, List.append_nil]
      rfl
  · cases (hoverrun (Nat.le_of_not_lt hin)).symm.trans hstep
    exact .inl ⟨_, rfl, trivial⟩

end

end Sys2Proof.Machine
end

section
/-! The two stages of a run before its bus is ready: with the peripheral's clock off, and in INIT_BUS (42_businit
R190 to R199, 43_i2c R223). -/

namespace Sys2Proof.Machine

/-! ### With the clock off -/

/-- The peripheral's clock is off, and it is out of reset with a quiet bus. -/
structure Gated (s : State) : Prop where
  unclocked : i2cClocked s = false
  released : s.i2cp.inReset = false
  quiet : Quiet s

/-- Where the sequencer stands in a command but INIT_BUS while the clock is off: among its sends, or between
the load and the store of a start request. -/
inductive GatedAt (s : State) : Prop
  | sends (ops : List MicroOp) (a : BitVec 7) (l : List Send) (tail : List MicroOp) (htail : StringTail tail)
      (hq : s.mq = ops ++ (sendOps s.cfg a l ++ tail)) (hops : ops = [] ∨ DelayAt s.cfg 0 0 s ops)
  | asks (rest : List MicroOp) (hq : s.mq = .stor (regAddr s.cfg .i2cCr1) mStart :: rest) (htmp : s.tmp = 0)

section
variable {s t : State} {a : BitVec 7} {b : Byte} {rest : List MicroOp}

theorem Gated.congr (h : Gated s) (hp : t.peripheral = s.peripheral) (hc : t.cfg = s.cfg) : Gated t := by
  simp only [State.peripheral, Prod.mk.injEq] at hp
  obtain ⟨hi2c, hi2cp, -, hrcc⟩ := hp
  obtain ⟨hunclocked, hreleased, hidle, hnostart⟩ := h
  have hclocked : i2cClocked t = i2cClocked s := by simp only [i2cClocked, hc, hrcc]
  exact ⟨hclocked.trans hunclocked, hi2cp ▸ hreleased, hi2cp ▸ hidle, hi2c ▸ hnostart⟩

/-- With the clock off the start check fails. -/
theorem Gated.start_raises (h : Gated s) :
    memWrite (regAddr s.cfg .i2cCr1) (0 ||| mStart) s
      = .next (s.raise (.busNotReady (currentCommand s) (0 ||| mStart))) :=
  memWrite_of_raises (writeCr1_of_notReady (by decide) h.released (by decide)
    (busReady_eq_false_of_unclocked (s := setCr1 _ s) h.unclocked))

theorem Gated.readValue_cr1 (h : Gated s) : readValue .i2cCr1 s = 0 :=
  if_pos ((cr1Lost_iff s).2 (.inl h.unclocked))

/-- A transaction begun with the clock off faults at its start request. -/
theorem Gated.startTurn (h : Gated s) (hhead : AtHead s (.ldt (regAddr s.cfg .i2cCr1))
      (.stor (regAddr s.cfg .i2cCr1) mStart :: rest)) (hstep : step s = .next t) :
    (Gated t ∧ GatedAt t ∧ t.status = s.status) ∨ ∃ f, t.status = .faulted f ∧ Tolerated s.cfg f := by
  obtain ⟨hfused, hsplit⟩ := rmwAtomicFusesThePair s .i2cCr1 _ _ mStart 0 hhead
  rw [h.readValue_cr1] at hfused hsplit
  cases hatomic : s.cfg.rmwAtomic with
  | false =>
    cases (hsplit hatomic).symm.trans hstep
    exact .inl ⟨h.congr rfl rfl, .asks _ rfl rfl, rfl⟩
  | true =>
    obtain ⟨hfused, -⟩ := hfused hatomic
    have hloaded : Gated { readEffect .i2cCr1 s.takeTurn with
        mq := rest, tmp := 0, hist := s.hist ++ [.rd (regAddr s.cfg .i2cCr1) 0] } := h.congr rfl rfl
    cases (hloaded.start_raises.symm.trans (hfused rfl).symm).trans hstep
    exact .inr ⟨_, rfl, trivial⟩

/-- A sequencer's turn with the clock off: on to another position, or a fault it may take. -/
theorem GatedAt.seq (h : GatedAt s) (hgated : Gated s) (hreload : reload s.cfg ≤ 0xFFFFFF)
    (hrun : s.status = .running) (hseq : nextAgent s = .seq) (hbusy : s.mq ≠ []) (hstep : step s = .next t) :
    (Gated t ∧ GatedAt t ∧ t.status = s.status) ∨ ∃ f, t.status = .faulted f ∧ Tolerated s.cfg f := by
  have delay {ops : List MicroOp} {a : BitVec 7} {l : List Send} {tail : List MicroOp} (htail : StringTail tail)
      (hq : s.mq = ops ++ (sendOps s.cfg a l ++ tail)) (hdelay : DelayAt s.cfg 0 0 s ops) :
      (Gated t ∧ GatedAt t ∧ t.status = s.status) ∨ ∃ f, t.status = .faulted f ∧ Tolerated s.cfg f := by
    obtain ⟨hperipheral, hcfg, hstatus, ops', hmq, hleft⟩ := hdelay.seq hreload hq hrun hseq hstep
    refine .inl ⟨hgated.congr hperipheral hcfg, .sends ops' a l tail htail (by rw [hcfg, hmq]) ?_, hstatus⟩
    rw [hcfg]
    cases hleft with
    | inside hdelay => exact .inr hdelay
    | ended => exact .inl rfl
  cases h with
  | asks rest hq htmp =>
    have hstor := step_of_stor ⟨hrun, hseq, hq⟩
    rw [htmp] at hstor
    have hpopped : Gated { s.takeTurn with mq := rest } := hgated.congr rfl rfl
    cases (hpopped.start_raises.symm.trans hstor.symm).trans hstep
    exact .inr ⟨_, rfl, trivial⟩
  | sends ops a l tail htail hq hops =>
    obtain rfl | hdelay := hops
    · cases l with
      | nil =>
        obtain rfl | ⟨p, rfl⟩ := htail
        · exact absurd hq hbusy
        · obtain hfault | ⟨l, tail, hist, htail, rfl⟩ := strch_cases ⟨hrun, hseq, hq⟩ hstep
          · exact .inr hfault
          · exact .inl ⟨hgated.congr rfl rfl, .sends [] slaveAddr l tail htail rfl (.inl rfl), rfl⟩
      | cons x l =>
        cases x with
        | byte b => exact hgated.startTurn ⟨hrun, hseq, hq⟩ hstep
        | delay n =>
          refine delay (ops := delayOps s.cfg n) (a := a) (l := l) htail ?_ (.arm n fun _ => Nat.zero_le _)
          rw [← List.append_assoc]
          exact hq
    · exact delay htail hq hdelay

/-- A device's turn with the clock off keeps the position. -/
theorem GatedAt.device (h : GatedAt s) (hgated : Gated s) (hdev : nextAgent s ≠ .seq) (hstep : step s = .next t) :
    Gated t ∧ GatedAt t := by
  have hdelay {ops : List MicroOp} (hd : DelayAt s.cfg 0 0 s ops) := hd.device hdev hstep
  obtain ⟨k, n, hist, env, rfl⟩ := hgated.quiet.device hdev hstep
  refine ⟨hgated.congr rfl rfl, ?_⟩
  cases h with
  | sends ops a l tail htail hq hops => exact .sends ops a l tail htail hq (hops.imp_right hdelay)
  | asks rest hq htmp => exact .asks rest hq htmp

end

/-! ### In INIT_BUS -/

/-- A read-modify-write of INIT_BUS: a silent load, no store to the counter or to `DR`, and no start request. -/
structure Rmw.Configures (x : Rmw) : Prop where
  silent : x.Silent
  reg : x.reg ∉ [Reg.stkCtrl, .stkLoad, .stkVal, .stkCalib, .i2cDr]
  noStart : x.reg = .i2cCr1 → ∀ w : Word, w.getLsbD 8 = false → (x.value w).getLsbD 8 = false

namespace Rmw

theorem configures_of_reg {x : Rmw}
    (hr : x.reg ∉ [Reg.i2cCr1, .i2cDr, .i2cSr1, .i2cSr2, .stkCtrl, .stkLoad, .stkVal, .stkCalib]) : x.Configures := by
  simp only [List.mem_cons, List.not_mem_nil, or_false, not_or] at hr
  obtain ⟨hcr1, hdr, hsr1, hsr2, hctrl, hload, hval, hcalib⟩ := hr
  exact ⟨by simp [Silent, hsr1, hsr2, hctrl], by simp [hctrl, hload, hval, hcalib, hdr], fun h => absurd h hcr1⟩

theorem configures_set_cr1 {m : Word} (hm : m.getLsbD 8 = false) : (Rmw.set .i2cCr1 m).Configures :=
  ⟨by simp [Silent, reg], by simp [reg], fun _ w hw => by rw [value, BitVec.getLsbD_or, hm, hw]; rfl⟩

theorem configures_clear_cr1 (m : Word) : (Rmw.clear .i2cCr1 m).Configures :=
  ⟨by simp [Silent, reg], by simp [reg], fun _ w hw => by rw [value, BitVec.getLsbD_and, hw]; rfl⟩

end Rmw

theorem initbusRmws_configures (c : Config) : ∀ x ∈ initbusRmws c, x.Configures := by
  have hreset : ∀ x ∈ resetRmws c, x.Configures := by
    unfold resetRmws
    split
    · simp [Rmw.configures_of_reg, Rmw.reg]
    · simp [Rmw.configures_set_cr1 (m := mSwrst) rfl, Rmw.configures_clear_cr1]
  have hpins : ∀ x ∈ pinRmws c, x.Configures := fun x hx => Rmw.configures_of_reg <| by
    have hgpio := pinRmws_gpioRegs c x hx
    simp only [gpioRegs, List.mem_cons, List.not_mem_nil, or_false] at hgpio
    obtain h | h | h | h | h | h := hgpio <;> rw [h] <;> decide
  simp only [initbusRmws, List.forall_mem_append]
  refine ⟨⟨⟨?_, hreset⟩, hpins⟩, ?_⟩
  · simp [clockRmws, Rmw.configures_of_reg, Rmw.reg]
  · simp [peripheralRmws, Rmw.configures_set_cr1 (m := mPe) rfl, Rmw.configures_clear_cr1, Rmw.configures_of_reg,
      Rmw.reg]

section
variable {s t u : State} {x : Rmw} {xs : List Rmw} {rest : List MicroOp} {tmp : Word} {hist : List Event} {env : Env}

/-- A write to none of the counter's registers neither sees nor changes the counter. -/
theorem writeReg_counted (k : Stk) (n : Nat) {r : Reg} (hr : r ∉ [Reg.stkCtrl, .stkLoad, .stkVal, .stkCalib, .i2cDr])
    (v : Word) (s : State) : writeReg r v (s.counted k n) = (writeReg r v s).map (·.counted k n) := by
  cases r with
  | i2cCr1 =>
    simp only [writeReg, writeCr1, writeSwrst, apply_ite (WriteResult.map _)]
    have hcase : cr1Unmodelled (s.counted k n).i2cp.ph (s.counted k n).i2c.cr1 v
        = cr1Unmodelled s.i2cp.ph s.i2c.cr1 v := rfl
    rw [hcase]
    cases cr1Unmodelled s.i2cp.ph s.i2c.cr1 v <;> rfl
  | i2cSr1 => simp only [writeReg, apply_ite (WriteResult.map _)]; rfl
  | i2cCcr => simp only [writeReg, writeCcr, apply_ite (WriteResult.map _)]; rfl
  | rccApb1rstr => simp only [writeReg, writeApb1rstr, apply_ite (WriteResult.map _)]; rfl
  | i2cCr2 | i2cOar1 | i2cOar2 | i2cTrise | i2cFltr =>
    simp only [writeReg, writeI2cPlain, apply_ite (WriteResult.map _)]; rfl
  | gpioModer | gpioOtyper | gpioOspeedr | gpioPupdr | gpioAfrl | gpioAfrh =>
    simp only [writeReg, writeGpio, apply_ite (WriteResult.map _)]; rfl
  | stkCtrl | stkLoad | stkVal | stkCalib | i2cDr => simp at hr
  | i2cSr2 | rccAhb1enr | rccApb1enr => rfl

namespace Rmw.Configures

theorem readValue_counted (h : x.Configures) (s : State) (k : Stk) (n : Nat) :
    readValue x.reg (s.counted k n) = readValue x.reg s := by
  have hreg := h.reg
  cases hr : x.reg with
  | stkCtrl | stkLoad | stkVal | stkCalib => simp [hr] at hreg
  | _ => rfl

/-- It leaves the bus quiet. -/
theorem quiet (h : x.Configures) (hs : Quiet s) (hwrite : x.write s = .done u) : Quiet u := by
  refine hs.of_writeReg (fun hr => h.reg (by simp [hr])) (fun hr => h.noStart hr _ ?_) hwrite
  rw [hr]
  by_cases hlost : cr1Lost s = true
  · rw [readValue, if_pos hlost]; rfl
  · rw [readValue, if_neg hlost]; exact hs.noStart

end Rmw.Configures

/-- What the sequencer's turn and the counter hold is no matter to a sequence of read-modify-writes. -/
theorem Applies.counted_inTurn (h : Applies xs s t) (hxs : ∀ x ∈ xs, x.Configures) (k : Stk) (n : Nat)
    (mq : List MicroOp) (tmp : Word) (hist : List Event) (env : Env) :
    Applies xs ((s.counted k n).inTurn mq tmp hist env) ((t.counted k n).inTurn mq tmp hist env) := by
  induction h with
  | nil => exact .nil _
  | @cons x xs s u t hwrite _ ih =>
    obtain ⟨hx, hxs⟩ := List.forall_mem_cons.1 hxs
    refine .cons ?_ (ih hxs)
    rw [Rmw.write, readValue_inTurn, hx.readValue_counted, writeReg_inTurn, writeReg_counted k n hx.reg]
    rw [Rmw.write] at hwrite
    rw [hwrite]
    rfl

/-- What is left of INIT_BUS: it will complete and leave the bus at rest, and the bus is quiet meanwhile. -/
structure Initialising (xs : List Rmw) (s : State) : Prop where
  configures : ∀ x ∈ xs, x.Configures
  quiet : Quiet s
  applies : ∃ t, Applies xs s t ∧ busAtRest t = true

/-- Where the sequencer stands in INIT_BUS: before a read-modify-write, or between its load and its store. -/
inductive InitAt (s : State) : Prop
  | load (xs : List Rmw) (hleft : Initialising xs s) (hq : s.mq = xs.flatMap (Rmw.ops s.cfg))
  | store (x : Rmw) (xs : List Rmw) (hleft : Initialising (x :: xs) s)
      (hq : s.mq = x.store s.cfg :: xs.flatMap (Rmw.ops s.cfg)) (htmp : s.tmp = readValue x.reg s)

theorem Initialising.counted_inTurn (h : Initialising xs s) (k : Stk) (n : Nat) (mq : List MicroOp) (tmp : Word)
    (hist : List Event) (env : Env) : Initialising xs ((s.counted k n).inTurn mq tmp hist env) := by
  obtain ⟨hxs, ⟨hidle, hnostart⟩, t, happlies, hrest⟩ := h
  exact ⟨hxs, ⟨hidle, hnostart⟩, _, happlies.counted_inTurn hxs k n mq tmp hist env, hrest⟩

theorem InitAt.quiet (h : InitAt s) : Quiet s := by
  cases h with
  | load xs hleft => exact hleft.quiet
  | store x xs hleft => exact hleft.quiet

/-- A device's turn keeps the position. -/
theorem InitAt.device (h : InitAt s) (hdev : nextAgent s ≠ .seq) (hstep : step s = .next t) : InitAt t := by
  obtain ⟨k, n, hist, env, rfl⟩ := h.quiet.device hdev hstep
  cases h with
  | load xs hleft hq => exact .load xs (hleft.counted_inTurn k n _ _ hist env) hq
  | store x xs hleft hq htmp =>
    refine .store x xs (hleft.counted_inTurn k n _ _ hist env) hq ?_
    rw [readValue_inTurn, (hleft.configures x (List.mem_cons_self ..)).readValue_counted]
    exact htmp

/-- The store of a read-modify-write, in a turn of its own or fused with its load, is done. -/
theorem Initialising.storeTurn (hleft : Initialising (x :: xs) s) (hrun : s.status = .running)
    (hstep : step s = runOp (x.store s.cfg)
      (s.inTurn (x.store s.cfg :: xs.flatMap (Rmw.ops s.cfg)) (readValue x.reg s) hist env))
    (ht : step s = .next t) : InitAt t ∧ t.status = .running := by
  obtain ⟨hxs, hquiet, v, happlies, hrest⟩ := hleft
  obtain ⟨hx, hxs⟩ := List.forall_mem_cons.1 hxs
  cases happlies with
  | @cons _ _ _ u _ hwrite happlies =>
    have hdone : writeReg x.reg (x.value (readValue x.reg s))
          (s.inTurn (xs.flatMap (Rmw.ops s.cfg)) (readValue x.reg s) hist env)
        = .done (u.inTurn (xs.flatMap (Rmw.ops s.cfg)) (readValue x.reg s) hist env) :=
      (writeReg_inTurn _ _ _ _ x.reg _ s).trans (congrArg _ hwrite)
    have heq := writeReg_eq hwrite
    have hcfg : u.cfg = s.cfg := by rw [heq]
    have hstatus : u.status = s.status := by rw [heq]
    rw [hstep, Rmw.runOp_store] at ht
    cases (memWrite_of_done hdone).symm.trans ht
    have hleft : Initialising xs u := ⟨hxs, hx.quiet hquiet hwrite, v, happlies, hrest⟩
    refine ⟨.load xs (hleft.counted_inTurn u.stk u.ticks _ _ _ _) ?_, hstatus.trans hrun⟩
    change xs.flatMap (Rmw.ops s.cfg) = xs.flatMap (Rmw.ops u.cfg)
    rw [hcfg]

/-- A sequencer's turn in INIT_BUS. -/
theorem InitAt.seq (h : InitAt s) (hrun : s.status = .running) (hseq : nextAgent s = .seq) (hbusy : s.mq ≠ [])
    (hstep : step s = .next t) : InitAt t ∧ t.status = .running := by
  cases h with
  | load xs hleft hq =>
    cases xs with
    | nil => exact absurd hq hbusy
    | cons x xs =>
      have hx := hleft.configures x (List.mem_cons_self ..)
      have hhead : AtHead s (.ldt (regAddr s.cfg x.reg)) (x.store s.cfg :: xs.flatMap (Rmw.ops s.cfg)) :=
        ⟨hrun, hseq, hq⟩
      cases hatomic : s.cfg.rmwAtomic with
      | true =>
        have hfused := step_of_fused hhead hatomic (x.storesTo_store s.cfg)
        rw [hx.silent.readEffect] at hfused
        exact hleft.storeTurn hrun hfused hstep
      | false =>
        have hload := step_of_ldt hhead (by simp [fusesWith, hatomic])
        rw [hx.silent.readEffect] at hload
        cases hload.symm.trans hstep
        exact ⟨.store x xs (hleft.counted_inTurn s.stk s.ticks _ _ _ _) rfl (readValue_inTurn ..).symm, hrun⟩
  | store x xs hleft hq htmp =>
    have hstore := step_eq_runOp ⟨hrun, hseq, hq⟩ fun a ha => absurd ha (x.store_ne_ldt _ a)
    have hturn : s.takeTurn = s.inTurn (x.store s.cfg :: xs.flatMap (Rmw.ops s.cfg)) (readValue x.reg s) s.hist
        s.takeTurn.env := by
      rw [← hq, ← htmp]; rfl
    rw [hturn] at hstore
    exact hleft.storeTurn hrun hstore hstep

/-- When INIT_BUS's queue has run empty the bus is at rest. -/
theorem InitAt.atRest (h : InitAt s) (hq : s.mq = []) : busAtRest s = true := by
  cases h with
  | load xs hleft hmq =>
    cases xs with
    | nil =>
      obtain ⟨-, -, t, happlies, hrest⟩ := hleft
      cases happlies
      exact hrest
    | cons x xs => cases hq.symm.trans hmq
  | store x xs hleft hmq => cases hq.symm.trans hmq

/-- INIT_BUS begins on a quiet bus. -/
theorem initAt_initbusOps (hquiet : Quiet s) (hdivider : ccrVal s.cfg ≤ 0xFFF) (hq : s.mq = initbusOps s.cfg) :
    InitAt s :=
  .load (initbusRmws s.cfg) ⟨initbusRmws_configures s.cfg, hquiet, _, applies_initbusRmws hquiet.idle hdivider,
    busInitialised_atRest hdivider⟩ (hq.trans (initbusOps_eq s.cfg))

end

end Sys2Proof.Machine
end

section
/-! Every run from a launch passes the stages in order, and takes only tolerated faults (43_i2c R223, R226, R239,
42_businit R200). -/

namespace Sys2Proof.Machine

/-- The stages of a run: with the clock off, in INIT_BUS, after it, and at its end. -/
inductive RunStage (s : State) : Prop
  | gated (hgated : Gated s) (hat : GatedAt s) (hleft : Follows false s)
  | initialising (hat : InitAt s) (hleft : Follows true s)
  | sending (a : BitVec 7) (tail : List MicroOp) (X : List Event) (N : Nat) (htail : StringTail tail)
      (hat : Sending a tail X N s) (hleft : Follows true s)
  | halting (hq : s.mq = [.halt])

/-- A run under the configuration `c`: in one of its stages, or ended by IDLE or by a tolerated fault. -/
inductive RunsAdmitted (c : Config) (s : State) : Prop
  | running (hrun : s.status = .running) (hat : RunStage s)
  | idle (hidle : s.status = .idle)
  | faulted (f : BlockFault) (hf : s.status = .faulted f) (htolerated : Tolerated c f)

section
variable {c : Config} {s t : State} {a : BitVec 7} {tail : List MicroOp} {l : List Send}

theorem Follows.step {busDone : Bool} (h : Follows busDone s) (hnofetch : ¬ AtFetch s) (hstep : step s = .next t) :
    Follows busDone t :=
  h.congr (launchDataNeverChanges s t hstep).1 (step_cp_of_not_atFetch hnofetch hstep)

/-- After INIT_BUS, between transactions: a queue of sends, and then a string or nothing. -/
theorem RunStage.of_rest (hlink : TxLink a 0 .rest s) (htail : StringTail tail) (hq : s.mq = sendOps s.cfg a l ++ tail)
    (hleft : Follows true s) : RunStage s :=
  .sending a tail _ 0 htail (.of_rest l ⟨hq, hlink, nofun, nofun⟩ rfl fun _ => Nat.zero_le _) hleft

/-- A fetch with the bus at rest. -/
theorem runsAdmitted_of_fetch_atRest (hlink : TxLink a 0 .rest s) (hleft : Follows true s) (hfetch : AtFetch s)
    (hstep : step s = .next t) : RunsAdmitted s.cfg t := by
  have hrun : s.status = .running := hfetch.1
  cases fetched hfetch hleft hstep with
  | halts hq hstatus => exact .running (hstatus.trans hrun) (.halting hq)
  | faults f hf htolerated => exact .faulted f hf htolerated
  | initialises hfirst => cases hfirst
  | sends a' l tail htail ht hleft =>
    subst ht
    have hrest : TxLink a' 0 .rest s := hlink.advance hlink.link nofun nofun nofun a' 0
    exact .running hrun (.of_rest (hrest.congr rfl rfl) htail rfl hleft)

/-- A step of the stage with the clock off. -/
theorem runsAdmitted_of_gated (hok : configOk s.cfg = true) (hgated : Gated s) (hat : GatedAt s)
    (hleft : Follows false s) (hrun : s.status = .running) (hstep : step s = .next t) : RunsAdmitted s.cfg t := by
  obtain ⟨-, hreload, -, hdivider, -⟩ := (configOk_iff s.cfg).1 hok
  by_cases hseq : nextAgent s = .seq
  · by_cases hq : s.mq = []
    · cases fetched ⟨hrun, hseq, hq⟩ hleft hstep with
      | halts hq hstatus => exact .running (hstatus.trans hrun) (.halting hq)
      | faults f hf htolerated => exact .faulted f hf htolerated
      | initialises hfirst ht hleft =>
        subst ht
        have hquiet : Quiet (s.takeTurn.startCommand (initbusOps s.cfg)) :=
          ⟨hgated.quiet.idle, hgated.quiet.noStart⟩
        exact .running hrun (.initialising (initAt_initbusOps hquiet hdivider rfl) hleft)
      | sends a l tail htail ht hleft =>
        subst ht
        exact .running hrun (.gated (hgated.congr rfl rfl) (.sends [] a l tail htail rfl (.inl rfl)) hleft)
    · obtain ⟨hgated, hat, hstatus⟩ | ⟨f, hf, htolerated⟩ := hat.seq hgated hreload hrun hseq hq hstep
      · exact .running (hstatus.trans hrun) (.gated hgated hat (hleft.step (fun h => hq h.2.2) hstep))
      · exact .faulted f hf htolerated
  · obtain ⟨hgated, hat⟩ := hat.device hgated hseq hstep
    exact .running ((step_status_of_device hseq hstep).trans hrun)
      (.gated hgated hat (hleft.step (fun h => hseq h.2.1) hstep))

/-- A step of INIT_BUS. -/
theorem runsAdmitted_of_initialising (hat : InitAt s) (hleft : Follows true s) (hrun : s.status = .running)
    (hstep : step s = .next t) : RunsAdmitted s.cfg t := by
  by_cases hseq : nextAgent s = .seq
  · by_cases hq : s.mq = []
    · exact runsAdmitted_of_fetch_atRest (txLink_of_busAtRest 0 0 (hat.atRest hq)) hleft ⟨hrun, hseq, hq⟩ hstep
    · obtain ⟨hat, hrun⟩ := hat.seq hrun hseq hq hstep
      exact .running hrun (.initialising hat (hleft.step (fun h => hq h.2.2) hstep))
  · exact .running ((step_status_of_device hseq hstep).trans hrun)
      (.initialising (hat.device hseq hstep) (hleft.step (fun h => hseq h.2.1) hstep))

/-- A step after INIT_BUS: of the sends, of the string after them, or a fetch. -/
theorem runsAdmitted_of_sending {X : List Event} {N : Nat} (hreload : reload s.cfg ≤ 0xFFFFFF)
    (htail : StringTail tail) (hat : Sending a tail X N s) (hleft : Follows true s) (hrun : s.status = .running)
    (hstep : step s = .next t) : RunsAdmitted s.cfg t := by
  by_cases hfetch : AtFetch s
  · obtain ⟨hrun, hseq, hq⟩ := hfetch
    obtain ⟨hlink, -, -⟩ := hat.of_nil hq
    exact runsAdmitted_of_fetch_atRest hlink hleft ⟨hrun, hseq, hq⟩ hstep
  · have hleft' := hleft.step hfetch hstep
    obtain ⟨hat, hrun⟩ | ⟨f, hf, htolerated⟩ | ⟨hseq, hat⟩ := hat.step hreload hrun hstep
    · exact .running hrun (.sending a tail X N htail hat hleft')
    · exact .faulted f hf htolerated
    · obtain rfl | ⟨p, rfl⟩ := htail
      · exact absurd ⟨hrun, hseq, hat.queue⟩ hfetch
      · obtain ⟨f, hf, htolerated⟩ | ⟨l, tail, hist, htail, rfl⟩ :=
          strch_cases ⟨hrun, hseq, hat.queue⟩ hstep
        · exact .faulted f hf htolerated
        · have hrest : TxLink slaveAddr 0 .rest s := (hat.between slaveAddr 0).link
          exact .running hrun (.of_rest (hrest.congr rfl rfl) htail rfl hleft')

theorem RunsAdmitted.step (h : RunsAdmitted s.cfg s) (hok : configOk s.cfg = true) (hstep : step s = .next t) :
    RunsAdmitted s.cfg t := by
  obtain ⟨-, hidleStays, hfaulted, -⟩ := statusIsLeftOnlyByHaltOrFault
  obtain ⟨-, hreload, -⟩ := (configOk_iff s.cfg).1 hok
  cases h with
  | idle hidle => exact .idle (hidleStays s t hstep hidle)
  | faulted f hf => exact absurd hstep (hfaulted s f hf t)
  | running hrun hat =>
    cases hat with
    | gated hgated hat hleft => exact runsAdmitted_of_gated hok hgated hat hleft hrun hstep
    | initialising hat hleft => exact runsAdmitted_of_initialising hat hleft hrun hstep
    | sending a tail X N htail hat hleft => exact runsAdmitted_of_sending hreload htail hat hleft hrun hstep
    | halting hq =>
      cases ha : nextAgent s with
      | seq =>
        cases (haltEntersIdle.1 s [] ⟨hrun, ha, hq⟩).symm.trans hstep
        exact .idle rfl
      | i2cp =>
        rw [step_eq_of_i2cp ha hstep, i2cpStep_eq]
        exact .running hrun (.halting hq)
      | stk =>
        rw [step_eq_of_stk ha hstep, stkStep_eq]
        exact .running hrun (.halting hq)

end

/-- A launch starts with the clock off, before the first fetch. -/
theorem runsAdmitted_of_launch {c : Config} {d : ResetDraws} {cs : List Word} {str : Memory} {s : State} (e : Env)
    (h : launch c d cs str = .next s) :
    configOk c = true ∧ s.cfg = c ∧ RunsAdmitted c { s with env := e } := by
  unfold launch at h
  split at h
  · cases h
  · split at h
    · cases h
    · rename_i hok hstream
      simp only [Bool.not_eq_eq_eq_not, Bool.not_true, Bool.not_eq_false] at hok hstream
      cases h
      refine ⟨hok, rfl, .running rfl (.gated ⟨?_, rfl, rfl, ?_⟩ ?_ ⟨false, hstream⟩)⟩
      · exact BitVec.getLsbD_zero
      · exact BitVec.getLsbD_zero
      · exact .sends [] 0 [] [] (.inl rfl) rfl (.inl rfl)

/-- Settles O51: a run from a launch keeps to its stages, and the faults of each are tolerated. -/
theorem onlyTheStopRaceIsUnmodelled : Obligations.OnlyTheStopRaceIsUnmodelled := by
  intro c d cs str e s t n hlaunch hrun
  obtain ⟨hok, hcfg, hstart⟩ := runsAdmitted_of_launch e hlaunch
  have hend : t.cfg = c ∧ RunsAdmitted c t := by
    refine run_keeps (P := fun u => u.cfg = c ∧ RunsAdmitted c u) ?_ n { s with env := e } t ⟨hcfg, hstart⟩ hrun
    rintro u v ⟨rfl, hu⟩ hstep
    exact ⟨(launchDataNeverChanges u v hstep).2.2, hu.step hok hstep⟩
  cases hend.2 with
  | running hrunning => rw [hrunning]; trivial
  | idle hidle => rw [hidle]; trivial
  | faulted f hf htolerated =>
    rw [hf]
    cases f with
    | periphUnmodelled k why => exact htolerated
    | _ => trivial

end Sys2Proof.Machine
end

section
/-! One transaction with no unsuccessful poll (43_i2c R237): each of its turns, and the seventeen in order. -/

namespace Sys2Proof.Machine

/-- The flags in each phase of a transaction answered ACK (R224 to R231). -/
def txFlags : Phase → I2cFlags
  | .startDone => { I2cFlags.reset with sb := true, msl := true, busy := true }
  | .addrTx => { I2cFlags.reset with msl := true, busy := true }
  | .addrAcked => { I2cFlags.reset with addr := true, msl := true, busy := true, tra := true }
  | .txReady | .dataTx => { I2cFlags.reset with txe := true, msl := true, busy := true, tra := true }
  | .dataLoaded => { I2cFlags.reset with msl := true, busy := true, tra := true }
  | .dataDone => { I2cFlags.reset with btf := true, txe := true, msl := true, busy := true, tra := true }
  | .idle | .nacked => I2cFlags.reset

/-- What a transaction changes besides the phase, the flags and `CR1`. -/
structure TxView where
  mq : List MicroOp
  tmp : Word
  dr : Byte
  shift : Byte
  sr1Seen : Bool
  hist : List Event
  obs : Observer
  env : Env

/-- The state in a phase of a transaction, with `CR1`. -/
def State.during (s : State) (ph : Phase) (cr1 : Word) (x : TxView) : State :=
  { s with
    mq := x.mq
    tmp := x.tmp
    i2c := { s.i2c with cr1 := cr1, dr := x.dr }
    i2cp := { s.i2cp with ph := ph, shift := x.shift, sr1Seen := x.sr1Seen }
    flags := txFlags ph
    hist := x.hist
    obs := x.obs
    env := x.env }

/-- The view after a turn of the sequencer: the queue left, and the event. -/
def TxView.ran (x : TxView) (mq : List MicroOp) (e : Event) : TxView :=
  { x with mq := mq, hist := x.hist ++ [e], env := x.env.afterTurn }

/-- The view after a turn of the peripheral that emits an event. -/
def TxView.emitted (x : TxView) (e : Event) : TxView :=
  { x with hist := x.hist ++ [e], obs := observe x.obs e, env := x.env.afterTurn }

/-- The view after a draw is used up. -/
def TxView.drew (x : TxView) : TxView :=
  { x with env := { x.env with acks := x.env.acks.tail, ackPos := x.env.ackPos + 1 } }

/-- A running block with the bus ready and read-modify-writes in two steps. -/
structure SplitRun (s : State) : Prop where
  running : s.status = .running
  split : s.cfg.rmwAtomic = false
  ready : busReady s = true

section
variable {s : State} {ph : Phase} {cr1 : Word} {x : TxView} {rest : List MicroOp}

namespace SplitRun

theorem busReady_during (h : SplitRun s) (hpe : cr1.getLsbD 0 = true) : busReady (s.during ph cr1 x) = true := by
  obtain ⟨-, -, hpe'⟩ := busReady_parts h.ready
  have heq : (s.during ph cr1 x).i2c.cr1.getLsbD 0 = s.i2c.cr1.getLsbD 0 := hpe.trans hpe'.symm
  rw [busReady, heq]
  exact h.ready

theorem accessible_during (h : SplitRun s) (hpe : cr1.getLsbD 0 = true) : accessible (s.during ph cr1 x) = true :=
  accessible_of_busReady (h.busReady_during hpe)

theorem not_lost (h : SplitRun s) (ph : Phase) (cr1 : Word) (x : TxView) : i2cLost (s.during ph cr1 x) = false := by
  obtain ⟨hclocked, hreleased, -⟩ := busReady_parts h.ready
  exact i2cLost_eq_false hclocked hreleased

theorem cr1_not_lost (h : SplitRun s) : cr1Lost (s.during ph cr1 x) = false := by
  obtain ⟨hclocked, hreleased, -⟩ := busReady_parts h.ready
  exact cr1Lost_eq_false hclocked hreleased

theorem not_faulted (h : SplitRun s) : (s.during ph cr1 x).hasFaulted = false := by
  have hrun : (s.during ph cr1 x).status = .running := h.running
  simp [State.hasFaulted, hrun]

/-! ### Turns of the sequencer -/

/-- The load of `CR1`. -/
theorem load (h : SplitRun s) {m : Word}
    (hhead : AtHead (s.during ph cr1 x) (.ldt (regAddr s.cfg .i2cCr1)) (.stor (regAddr s.cfg .i2cCr1) m :: rest)) :
    step (s.during ph cr1 x) = .next (s.during ph cr1
      { x.ran (.stor (regAddr s.cfg .i2cCr1) m :: rest) (.rd (regAddr s.cfg .i2cCr1) cr1) with tmp := cr1 }) := by
  obtain ⟨-, hunfused⟩ := rmwAtomicFusesThePair (s.during ph cr1 x) .i2cCr1 _ _ m 0 hhead
  have hread : readValue .i2cCr1 (s.during ph cr1 x) = cr1 := if_neg (Bool.eq_false_iff.1 h.cr1_not_lost)
  rw [hunfused h.split, hread]
  rfl

/-- A write of `CR1` that keeps PE and the software reset and meets no unmodelled case. -/
theorem writeCr1_during (h : SplitRun s) {v : Word} (hfields : v &&& cr1Fields = v) (hset : v.getLsbD 15 = false)
    (hpe : v.getLsbD 0 = true) (hmodelled : cr1Unmodelled ph cr1 v = none) :
    writeCr1 v (s.during ph cr1 x) = .done (s.during ph v x) := by
  obtain ⟨-, hreleased, -⟩ := busReady_parts h.ready
  have hstored : setCr1 v (s.during ph cr1 x) = s.during ph v x := by
    rw [setCr1, hfields]
    rfl
  have hready : busReady (setCr1 v (s.during ph cr1 x)) = true := hstored ▸ h.busReady_during hpe
  rw [writeCr1_checked (s := s.during ph cr1 x) (not_swrst_write hset hreleased)
    fun h => Bool.eq_false_iff.1 h.2 hready, h.cr1_not_lost, hstored]
  exact (if_neg Bool.false_ne_true).trans (congrArg (fun why => Option.elim why _ _) hmodelled)

/-- The store of a request. -/
theorem store (h : SplitRun s) {m tmp v : Word}
    (hhead : AtHead (s.during ph cr1 x) (.stor (regAddr s.cfg .i2cCr1) m) rest) (htmp : x.tmp = tmp)
    (hv : tmp ||| m = v) (hfields : v &&& cr1Fields = v) (hset : v.getLsbD 15 = false) (hpe : v.getLsbD 0 = true)
    (hmodelled : cr1Unmodelled ph cr1 v = none) :
    step (s.during ph cr1 x) = .next (s.during ph v (x.ran rest (.wr (regAddr s.cfg .i2cCr1) v))) := by
  have hdone := h.writeCr1_during (x := { x with mq := rest, env := x.env.afterTurn }) hfields hset hpe hmodelled
  subst htmp hv
  rw [step_of_stor hhead]
  exact memWrite_of_done (r := .i2cCr1) hdone

theorem storeStart (h : SplitRun s)
    (hhead : AtHead (s.during .idle 0x001 x) (.stor (regAddr s.cfg .i2cCr1) mStart) rest) (htmp : x.tmp = 0x001) :
    step (s.during .idle 0x001 x) = .next (s.during .idle 0x101 (x.ran rest (.wr (regAddr s.cfg .i2cCr1) 0x101))) :=
  h.store hhead htmp (by decide) (by decide) (by decide) (by decide) (by decide)

theorem storeStop (h : SplitRun s)
    (hhead : AtHead (s.during .dataDone 0x001 x) (.stor (regAddr s.cfg .i2cCr1) mStop) rest) (htmp : x.tmp = 0x001) :
    step (s.during .dataDone 0x001 x)
      = .next (s.during .dataDone 0x201 (x.ran rest (.wr (regAddr s.cfg .i2cCr1) 0x201))) :=
  h.store hhead htmp (by decide) (by decide) (by decide) (by decide) (by decide)

/-- A successful poll of `SR1`. -/
theorem poll (h : SplitRun s) {m w : Word} (hhead : AtHead (s.during ph cr1 x) (.poll (regAddr s.cfg .i2cSr1) m) rest)
    (hview : sr1View (txFlags ph) = w) (hset : w &&& m = m) :
    step (s.during ph cr1 x) = .next (s.during ph cr1 { x.ran rest (.rd (regAddr s.cfg .i2cSr1) w) with
      sr1Seen := x.sr1Seen || (txFlags ph).addr }) := by
  have hread : readValue .i2cSr1 (s.during ph cr1 x) = w := (readValue_sr1 (h.not_lost ph cr1 x)).trans hview
  rw [pollPopsOrStays _ .i2cSr1 m rest hhead, hread, if_pos hset, readEffect,
    sr1ReadEffect_of_acc (s := (s.during ph cr1 x).takeTurn) (h.not_lost ph cr1 x)]
  rfl

theorem readSr1 (h : SplitRun s) {w : Word} (hhead : AtHead (s.during ph cr1 x) (.rd (regAddr s.cfg .i2cSr1)) rest)
    (hview : sr1View (txFlags ph) = w) :
    step (s.during ph cr1 x) = .next (s.during ph cr1 { x.ran rest (.rd (regAddr s.cfg .i2cSr1) w) with
      sr1Seen := x.sr1Seen || (txFlags ph).addr }) := by
  have hread : readValue .i2cSr1 (s.during ph cr1 x) = w := (readValue_sr1 (h.not_lost ph cr1 x)).trans hview
  rw [step_of_rd hhead, hread, readEffect,
    sr1ReadEffect_of_acc (s := (s.during ph cr1 x).takeTurn) (h.not_lost ph cr1 x)]
  rfl

/-- The read of `SR2` that clears ADDR. -/
theorem readSr2 (h : SplitRun s) (hhead : AtHead (s.during .addrAcked cr1 x) (.rd (regAddr s.cfg .i2cSr2)) rest)
    (hseen : x.sr1Seen = true) :
    step (s.during .addrAcked cr1 x) = .next (s.during .txReady cr1
      { x.ran rest (.rd (regAddr s.cfg .i2cSr2) 0x7) with sr1Seen := false }) := by
  have hread : readValue .i2cSr2 (s.during .addrAcked cr1 x) = 0x7 :=
    (readValue_sr2 (h.not_lost .addrAcked cr1 x)).trans (by decide : sr2View (txFlags .addrAcked) = 0x7)
  rw [step_of_rd hhead, hread, readEffect,
    sr2ReadEffect_of_seen (s := (s.during .addrAcked cr1 x).takeTurn) (h.not_lost .addrAcked cr1 x) rfl hseen]
  rfl

theorem writeAddress (h : SplitRun s) {y : Byte}
    (hhead : AtHead (s.during .startDone cr1 x) (.wr (regAddr s.cfg .i2cDr) (y.setWidth 32)) rest) :
    step (s.during .startDone cr1 x) = .next (s.during .addrTx cr1
      { x.ran rest (.wr (regAddr s.cfg .i2cDr) (y.setWidth 32)) with dr := y, shift := y }) := by
  have hdone := writeDr_address (s := { (s.during .startDone cr1 x).takeTurn with mq := rest }) (y.setWidth 32)
    (h.not_lost .startDone cr1 x) rfl rfl
  have hy : (y.setWidth 32).setWidth 8 = y := by simp
  rw [hy] at hdone
  rw [step_of_wr hhead]
  exact memWrite_of_done (r := .i2cDr) hdone

theorem writeData (h : SplitRun s) {y : Byte}
    (hhead : AtHead (s.during .txReady cr1 x) (.wr (regAddr s.cfg .i2cDr) (y.setWidth 32)) rest) :
    step (s.during .txReady cr1 x) = .next (s.during .dataLoaded cr1
      { x.ran rest (.wr (regAddr s.cfg .i2cDr) (y.setWidth 32)) with dr := y }) := by
  have hdone := writeDr_data (s := { (s.during .txReady cr1 x).takeTurn with mq := rest }) (y.setWidth 32)
    (h.not_lost .txReady cr1 x) rfl rfl
  have hy : (y.setWidth 32).setWidth 8 = y := by simp
  rw [hy] at hdone
  rw [step_of_wr hhead]
  exact memWrite_of_done (r := .i2cDr) hdone

/-! ### Turns of the peripheral -/

theorem start (h : SplitRun s) (hi2cp : nextAgent (s.during .idle 0x101 x) = .i2cp) :
    step (s.during .idle 0x101 x) = .next (s.during .startDone 0x001 (x.emitted .busStart)) := by
  have hacc : accessible (s.during .idle 0x101 x).takeTurn = true := h.accessible_during rfl
  have hcr1 : (s.during .idle 0x101 x).takeTurn.i2c.cr1 &&& ~~~mStart = 0x001 :=
    (by decide : (0x101 : Word) &&& ~~~mStart = 0x001)
  rw [step_of_i2cp h.not_faulted hi2cp, i2cpStep_start hacc rfl (by decide : (0x101 : Word).getLsbD 8 = true),
    startStep, hcr1]
  rfl

/-- The address byte to write to, answered ACK. -/
theorem ackAddress (h : SplitRun s) (hi2cp : nextAgent (s.during .addrTx 0x001 x) = .i2cp)
    (hack : nextAck (s.during .addrTx 0x001 x) = .ack) (hwrite : x.shift.getLsbD 0 = false) :
    step (s.during .addrTx 0x001 x) = .next (s.during .addrAcked 0x001 (x.emitted (.busAddr x.shift .ack)).drew) := by
  have hacc : accessible (s.during .addrTx 0x001 x).takeTurn = true := h.accessible_during rfl
  have hack : nextAck (s.during .addrTx 0x001 x).takeTurn = .ack := hack
  have hwrite : (s.during .addrTx 0x001 x).takeTurn.takeAck.i2cp.shift.getLsbD 0 = false := hwrite
  rw [step_of_i2cp h.not_faulted hi2cp, i2cpStep_address hacc rfl, hack, addressStep, hwrite]
  rfl

theorem shiftLoad (h : SplitRun s) (hi2cp : nextAgent (s.during .dataLoaded 0x001 x) = .i2cp) :
    step (s.during .dataLoaded 0x001 x) = .next (s.during .dataTx 0x001
      { x with shift := x.dr, env := x.env.afterTurn }) := by
  have hacc : accessible (s.during .dataLoaded 0x001 x).takeTurn = true := h.accessible_during rfl
  rw [step_of_i2cp h.not_faulted hi2cp, i2cpStep_shiftLoad hacc rfl]
  rfl

/-- The data byte, answered ACK. -/
theorem ackData (h : SplitRun s) (hi2cp : nextAgent (s.during .dataTx 0x001 x) = .i2cp)
    (hack : nextAck (s.during .dataTx 0x001 x) = .ack) :
    step (s.during .dataTx 0x001 x) = .next (s.during .dataDone 0x001 (x.emitted (.busData x.shift .ack)).drew) := by
  have hacc : accessible (s.during .dataTx 0x001 x).takeTurn = true := h.accessible_during rfl
  have hack : nextAck (s.during .dataTx 0x001 x).takeTurn = .ack := hack
  rw [step_of_i2cp h.not_faulted hi2cp, i2cpStep_data hacc rfl, hack]
  rfl

theorem stop (h : SplitRun s) (hi2cp : nextAgent (s.during .dataDone 0x201 x) = .i2cp) :
    step (s.during .dataDone 0x201 x) = .next (s.during .idle 0x001 (x.emitted .busStop)) := by
  have hacc : accessible (s.during .dataDone 0x201 x).takeTurn = true := h.accessible_during rfl
  have hcr1 : (s.during .dataDone 0x201 x).takeTurn.i2c.cr1 &&& ~~~mStop = 0x001 :=
    (by decide : (0x201 : Word) &&& ~~~mStop = 0x001)
  rw [step_of_i2cp h.not_faulted hi2cp, i2cpStep_stop hacc rfl (by decide : (0x201 : Word).getLsbD 9 = true),
    stopStep, hcr1]
  rfl

end SplitRun

end

/-! ### The seventeen turns -/

/-- The view of a state. -/
def State.view (s : State) : TxView where
  mq := s.mq
  tmp := s.tmp
  dr := s.i2c.dr
  shift := s.i2cp.shift
  sr1Seen := s.i2cp.sr1Seen
  hist := s.hist
  obs := s.obs
  env := s.env

/-- The view with a transaction queued, the schedule with no unsuccessful poll, and two answers ACK (R237). -/
def TxView.beginning (x : TxView) (c : Config) (a : BitVec 7) (b : Byte) (later : List Agent) (acks : List Ack) :
    TxView :=
  { x with
    mq := i2cwOps c a b
    env := { x.env with
      sched := [.seq, .seq, .i2cp, .seq, .seq, .i2cp, .seq, .seq, .seq, .seq, .seq, .i2cp, .i2cp,
        .seq, .seq, .seq, .i2cp] ++ later
      acks := .ack :: .ack :: acks } }

/-- The events of a transaction with no unsuccessful poll. -/
def minimalEvents (c : Config) (x b : Byte) : List Event :=
  let cr1 := regAddr c .i2cCr1
  let dr := regAddr c .i2cDr
  let sr1 := regAddr c .i2cSr1
  let sr2 := regAddr c .i2cSr2
  [.rd cr1 0x1, .wr cr1 0x101, .busStart, .rd sr1 0x1, .wr dr (x.setWidth 32),
    .busAddr x .ack, .rd sr1 0x2, .rd sr1 0x2, .rd sr2 0x7, .rd sr1 0x80, .wr dr (b.setWidth 32),
    .busData b .ack, .rd sr1 0x84, .rd cr1 0x1, .wr cr1 0x201, .busStop]

/-- The seventeen turns in order. -/
theorem SplitRun.run_minimal {s : State} (h : SplitRun s) (x : TxView) (a : BitVec 7) (b : Byte)
    (later : List Agent) (acks : List Ack) :
    ∃ y, run 17 (s.during .idle 0x001 (x.beginning s.cfg a b later acks)) = .next (s.during .idle 0x001 y) ∧
      y.mq = [] ∧ y.dr = b ∧ y.hist = x.hist ++ minimalEvents s.cfg (addrByte a) b := by
  have hrun : s.status = .running := h.running
  have haddress : (addrByte a).getLsbD 0 = false := by simp [addrByte]
  refine ⟨_,
    run_cons (h.load ⟨hrun, rfl, rfl⟩) <|
    run_cons (h.storeStart ⟨hrun, rfl, rfl⟩ rfl) <|
    run_cons (h.start rfl) <|
    run_cons (h.poll (w := 0x1) ⟨hrun, rfl, rfl⟩ (by decide) (by decide)) <|
    run_cons (h.writeAddress (y := addrByte a) ⟨hrun, rfl, rfl⟩) <|
    run_cons (h.ackAddress rfl rfl haddress) <|
    run_cons (h.poll (w := 0x2) ⟨hrun, rfl, rfl⟩ (by decide) (by decide)) <|
    run_cons (h.readSr1 (w := 0x2) ⟨hrun, rfl, rfl⟩ (by decide)) <|
    run_cons (h.readSr2 ⟨hrun, rfl, rfl⟩ (Bool.or_true _)) <|
    run_cons (h.poll (w := 0x80) ⟨hrun, rfl, rfl⟩ (by decide) (by decide)) <|
    run_cons (h.writeData (y := b) ⟨hrun, rfl, rfl⟩) <|
    run_cons (h.shiftLoad rfl) <|
    run_cons (h.ackData rfl rfl) <|
    run_cons (h.poll (w := 0x84) ⟨hrun, rfl, rfl⟩ (by decide) (by decide)) <|
    run_cons (h.load ⟨hrun, rfl, rfl⟩) <|
    run_cons (h.storeStop ⟨hrun, rfl, rfl⟩ rfl) <|
    run_cons (h.stop rfl) rfl, rfl, rfl, ?_⟩
  simp only [TxView.ran, TxView.emitted, TxView.drew, TxView.beginning, minimalEvents, List.append_assoc,
    List.cons_append, List.nil_append]

/-- A bus at rest with the transaction queued is where the seventeen turns begin. -/
theorem during_eq_of_busAtRest {s : State} {a : BitVec 7} {b : Byte} {later : List Agent} {acks : List Ack}
    (hq : s.mq = i2cwOps s.cfg a b) (hph : s.i2cp.ph = .idle) (hflags : s.flags = I2cFlags.reset)
    (hcr1 : s.i2c.cr1 = 0x001)
    (hsched : s.env.sched = [.seq, .seq, .i2cp, .seq, .seq, .i2cp, .seq, .seq, .seq, .seq, .seq, .i2cp, .i2cp,
      .seq, .seq, .seq, .i2cp] ++ later)
    (hacks : s.env.acks = .ack :: .ack :: acks) :
    s.during .idle 0x001 (s.view.beginning s.cfg a b later acks) = s := by
  have hview : s.view.beginning s.cfg a b later acks = s.view := by
    rw [TxView.beginning, ← hq, ← hsched, ← hacks]
    rfl
  have hidle : txFlags s.i2cp.ph = s.flags := by
    rw [hph, hflags]
    rfl
  rw [hview, ← hph, ← hcr1, State.during, hidle]
  rfl

/-- Settles O45: from a bus at rest the seventeen turns put the rule's events in the history and leave only
`DR` changed. -/
theorem i2cwMinimalTransaction : Obligations.I2cwMinimalTransaction := by
  intro s a b later acks hrun hsplit hq hrest hsched hacks x cr1 dr sr1 sr2
  have hbyte : addrByte a = x := BitVec.or_zero
  simp only [busAtRest, Bool.and_eq_true, beq_iff_eq] at hrest
  obtain ⟨⟨⟨hready, hph⟩, hflags⟩, hcr1⟩ := hrest
  obtain ⟨y, hsteps, hmq, hdr, hhist⟩ :=
    SplitRun.run_minimal ⟨hrun, hsplit, hready⟩ s.view a b later acks
  rw [during_eq_of_busAtRest hq hph hflags hcr1 hsched hacks] at hsteps
  refine ⟨_, hsteps, hmq, hrun, rfl, hhist.trans (by rw [hbyte]; rfl), ?_, rfl, rfl, rfl, rfl, rfl, rfl⟩
  rw [State.during, hdr, ← hcr1]

end Sys2Proof.Machine
end

section
/-! The observer of the bus (44_nybble R274, R275): a step moves it by the bus events the step appends, and by
nothing else. -/

namespace Sys2Proof.Machine

section
variable {s t u : State}

/-- From `s` to `t` the bus trace grows, and the observer takes in exactly the new events. -/
def Observes (s t : State) : Prop :=
  ∃ es, busTrace t.hist = busTrace s.hist ++ es ∧ t.obs = es.foldl observe s.obs

theorem Observes.of_quiet (hbus : busTrace t.hist = busTrace s.hist) (hobs : t.obs = s.obs) : Observes s t :=
  ⟨[], by rw [hbus, List.append_nil], hobs⟩

theorem Observes.of_emit {e : Event} (he : e.isBus = true) (hhist : t.hist = s.hist ++ [e])
    (hobs : t.obs = observe s.obs e) : Observes s t :=
  ⟨[e], by rw [hhist, busTrace_append_bus he], hobs⟩

theorem Observes.trans (hst : Observes s t) (htu : Observes t u) : Observes s u := by
  obtain ⟨es, hes, hobs⟩ := hst
  obtain ⟨fs, hfs, hobs'⟩ := htu
  exact ⟨es ++ fs, by rw [hfs, hes, List.append_assoc], by rw [hobs', hobs, List.foldl_append]⟩

/-- Every event the peripheral emits is a bus event, observed as it is appended. -/
theorem I2cpEffect.observes (h : I2cpEffect s t) : Observes s t := by
  cases h with
  | stay => exact .of_quiet rfl rfl
  | start => exact .of_emit (e := .busStart) rfl rfl rfl
  | address => cases nextAck s <;> exact .of_emit (e := .busAddr s.i2cp.shift _) rfl rfl rfl
  | shiftLoad => exact .of_quiet rfl rfl
  | data => cases nextAck s <;> exact .of_emit (e := .busData s.i2cp.shift _) rfl rfl rfl
  | stop => exact .of_emit (e := .busStop) rfl rfl rfl

/-- Only a turn of the peripheral moves the observer. -/
theorem step_obs (hother : nextAgent s ≠ .i2cp) (h : step s = .next t) : t.obs = s.obs := by
  cases ha : nextAgent s with
  | seq => rw [step_eq_of_seq ha h]; rfl
  | i2cp => exact absurd ha hother
  | stk => rw [step_eq_of_stk ha h, stkStep_eq]; rfl

theorem step_observes (h : step s = .next t) : Observes s t := by
  by_cases hi2cp : nextAgent s = .i2cp
  · rw [step_eq_of_i2cp hi2cp h]
    exact (i2cpStep_effect s.takeTurn).observes
  · exact .of_quiet (step_busTrace hi2cp h) (step_obs hi2cp h)

theorem run_observes {n : Nat} (h : run n s = .next t) : Observes s t :=
  run_keeps (P := Observes s) (fun _ _ hsofar hstep => hsofar.trans (step_observes hstep)) n s t
    (.of_quiet rfl rfl) h

end

/-- Settles O42: the observer after a step is the fold of the old trace and then of the step's events. -/
theorem observerFollowsTheHistory : Obligations.ObserverFollowsTheHistory := by
  intro o s t hobs hstep
  obtain ⟨es, hbus, hnew⟩ := step_observes hstep
  rw [hnew, hbus, hobs, List.foldl_append]

end Sys2Proof.Machine
end

section
/-! NYB, CMD and DATA (44_nybble R270 to R277): their expansions as queues of sends, and the nybbles the LCD
latches from these. -/

namespace Sys2Proof.Machine

/-! ### The expansions -/

/-- The sends of one nybble: enable high, the pulse, enable low (R271). -/
def nybSends (d : BitVec 4) (r : BitVec 1) : List Send := [.byte (pack d 1 r), .delay tPulse, .byte (pack d 0 r)]

/-- The sends of a byte: its two nybbles, high first (R272, R273). -/
def byteSends (b : Byte) (r : BitVec 1) : List Send := nybSends (highNyb b) r ++ nybSends (lowNyb b) r

theorem sendOps_nybSends (c : Config) (d : BitVec 4) (r : BitVec 1) :
    sendOps c slaveAddr (nybSends d r) = nybOps c d r := by
  simp only [nybSends, sendOps, nybOps, List.append_nil, List.append_assoc]

theorem sendOps_byteSends (c : Config) (b : Byte) (r : BitVec 1) :
    sendOps c slaveAddr (byteSends b r) = byteOps c b r := by
  rw [byteSends, sendOps_append, sendOps_nybSends, sendOps_nybSends, byteOps]

/-- The expander byte written as its fields in order (R270). -/
theorem pack_eq_append (d : BitVec 4) (en rs : BitVec 1) : pack d en rs = d ++ 1#1 ++ en ++ 0#1 ++ rs := by
  apply BitVec.eq_of_getLsbD_eq
  intro i hi
  rw [BitVec.getLsbD_append, BitVec.getLsbD_append, BitVec.getLsbD_append, BitVec.getLsbD_append]
  interval_cases i <;> simp [pack]

theorem pack_high (d : BitVec 4) (rs : BitVec 1) : pack d 1 rs = d ++ 0b11#2 ++ 0#1 ++ rs :=
  (pack_eq_append d 1 rs).trans
    (congrArg (· ++ 0#1 ++ rs) (BitVec.append_assoc (x₁ := d) (x₂ := 1#1) (x₃ := 1#1)))

theorem pack_low (d : BitVec 4) (rs : BitVec 1) : pack d 0 rs = d ++ 0b10#2 ++ 0#1 ++ rs :=
  (pack_eq_append d 0 rs).trans
    (congrArg (· ++ 0#1 ++ rs) (BitVec.append_assoc (x₁ := d) (x₂ := 1#1) (x₃ := 0#1)))

/-- Settles O9: the expansions are queues of sends, whose bytes are `pack`'s written out. -/
theorem nybbleCommandsStart : Obligations.NybbleCommandsStart := by
  unfold Obligations.NybbleCommandsStart
  intro nybble
  have hnybble (c : Config) (d : BitVec 4) (rs : BitVec 1) : nybble c d rs = nybOps c d rs := by
    rw [← sendOps_nybSends, nybSends, pack_eq_append, pack_eq_append]
    rfl
  simp only [hnybble]
  exact ⟨fun _ _ _ => rfl, fun _ _ => rfl, fun _ _ => rfl⟩

/-! ### What the LCD latches -/

/-- A transaction to the expander puts its byte on the port, and the LCD sees the edge (R274, R275). -/
theorem observe_transaction (o : Observer) (b : Byte) :
    (transactionEvents slaveAddr b).foldl observe o
      = { port := b, sel := false, nybs := lcdEdge o.port b o.nybs } := rfl

theorem pack_getElem_two (d : BitVec 4) (en rs : BitVec 1) : (pack d en rs)[2] = en[0] := by simp [pack]

/-- A byte with enable high makes no falling edge. -/
theorem lcdEdge_enable (old : Byte) (d : BitVec 4) (rs : BitVec 1) (nybs : List LcdNyb) :
    lcdEdge old (pack d 1 rs) nybs = nybs := by
  simp [lcdEdge, pack_getElem_two]

/-- Enable going low latches the nybble of the byte that lowers it. -/
theorem lcdEdge_pulse (d : BitVec 4) (rs : BitVec 1) (nybs : List LcdNyb) :
    lcdEdge (pack d 1 rs) (pack d 0 rs) nybs = nybs ++ [⟨d, rs⟩] := by
  simp [lcdEdge, pack_getElem_two, pack_nybble, pack_registerSelect]

theorem sendEvents_append (a : BitVec 7) (l l' : List Send) :
    sendEvents a (l ++ l') = sendEvents a l ++ sendEvents a l' := by
  simp [sendEvents, sendBytes]

/-- From any observer, the sends of a nybble latch that nybble. -/
theorem latched_nybSends (o : Observer) (d : BitVec 4) (r : BitVec 1) :
    ((sendEvents slaveAddr (nybSends d r)).foldl observe o).nybs = o.nybs ++ [⟨d, r⟩] := by
  have hevents : sendEvents slaveAddr (nybSends d r)
      = transactionEvents slaveAddr (pack d 1 r) ++ transactionEvents slaveAddr (pack d 0 r) := rfl
  rw [hevents, List.foldl_append, observe_transaction, observe_transaction, lcdEdge_enable, lcdEdge_pulse]

theorem latched_byteSends (o : Observer) (b : Byte) (r : BitVec 1) :
    ((sendEvents slaveAddr (byteSends b r)).foldl observe o).nybs
      = o.nybs ++ [⟨highNyb b, r⟩, ⟨lowNyb b, r⟩] := by
  rw [byteSends, sendEvents_append, List.foldl_append, latched_nybSends, latched_nybSends, List.append_assoc]
  rfl

/-! ### Runs -/

/-- A pending stop latches nothing. -/
theorem nybs_foldl_pending {pending : List Event} (h : pending = [] ∨ pending = [.busStop]) (o : Observer) :
    (pending.foldl observe o).nybs = o.nybs := by
  obtain rfl | rfl := h <;> rfl

/-- A command that queues the sends `l` to the expander, started on a bus at rest and run to its end under any
schedule, puts their transactions on the bus and has the LCD latch what these latch from any observer. -/
theorem run_sendsAndLatches {i : Instr} {l : List Send} {latched : List LcdNyb}
    (hexec : ∀ s, exec i s = .next (s.startCommand (sendOps s.cfg slaveAddr l)))
    (hlatch : ∀ o, ((sendEvents slaveAddr l).foldl observe o).nybs = o.nybs ++ latched)
    (s₀ s t : State) (n : Nat) (hreload : reload s₀.cfg ≤ 0xFFFFFF) (hrun : s₀.status = .running)
    (hrest : busAtRest s₀ = true) (hstart : exec i s₀ = .next s) (hsteps : run n s = .next t)
    (hempty : t.mq = []) (hcp : t.cp = s.cp) (hrunning : t.status = .running) :
    (∃ pending, busTrace t.hist ++ pending = busTrace s₀.hist ++ sendEvents slaveAddr l ∧
      (pending = [] ∨ pending = [.busStop])) ∧
    t.obs.nybs = s₀.obs.nybs ++ latched := by
  cases (hexec s₀).symm.trans hstart
  obtain ⟨⟨pending, hbus, hends⟩, -⟩ := queuedSendsReachTheBus (s₀.startCommand _) t slaveAddr l n hreload
    hrun rfl hrest hsteps hempty hcp hrunning
  have hpending : pending = [] ∨ pending = [.busStop] := hends.imp And.right fun ⟨_, _, hstop⟩ => hstop
  refine ⟨⟨pending, hbus, hpending⟩, ?_⟩
  obtain ⟨es, hgrown, hobs⟩ := run_observes hsteps
  have hevents : es ++ pending = sendEvents slaveAddr l := by
    rw [hgrown, List.append_assoc] at hbus
    exact List.append_cancel_left hbus
  calc t.obs.nybs
    _ = (pending.foldl observe t.obs).nybs := (nybs_foldl_pending hpending t.obs).symm
    _ = ((sendEvents slaveAddr l).foldl observe s₀.obs).nybs := by
      rw [hobs, ← List.foldl_append, hevents]
      rfl
    _ = s₀.obs.nybs ++ latched := hlatch s₀.obs

/-- Settles O47: each command's queue is its sends, and these latch its nybbles. -/
theorem nybbleCommandsSendAndLatch : Obligations.NybbleCommandsSendAndLatch := by
  unfold Obligations.NybbleCommandsSendAndLatch
  simp only [← pack_high, ← pack_low]
  refine ⟨fun d rs => run_sendsAndLatches (l := nybSends d rs) (fun s => ?nyb) fun o => latched_nybSends o d rs,
    fun b => ⟨run_sendsAndLatches (l := byteSends b 0) (fun s => ?cmd) fun o => latched_byteSends o b 0,
      run_sendsAndLatches (l := byteSends b 1) (fun s => ?data) fun o => latched_byteSends o b 1⟩⟩
  case nyb => rw [sendOps_nybSends]; rfl
  case cmd => rw [sendOps_byteSends]; rfl
  case data => rw [sendOps_byteSends]; rfl

end Sys2Proof.Machine
end

section
/-! Which streams are admitted (45_display R315): the word-by-word check, and the rule's items about the whole
stream. -/

namespace Sys2Proof

/-- What R315 lets stand after an LCDINIT: an illegal word, or a command that is allowed there. -/
def Decoded.AllowedWhenReady (x : Decoded) : Prop :=
  (∃ why, x = .illegal why) ∨ ∃ i, x = .command i ∧ i.allowedWhenReady = true

@[simp] theorem allowedWhenReady_illegal (why : IllegalWord) : (Decoded.illegal why).AllowedWhenReady :=
  .inl ⟨why, rfl⟩

@[simp] theorem allowedWhenReady_command (i : Instr) :
    (Decoded.command i).AllowedWhenReady ↔ i.allowedWhenReady = true := by
  simp [Decoded.AllowedWhenReady]

/-- The commands allowed after an LCDINIT, by their mnemonics (R315 item 3). -/
theorem Instr.allowedWhenReady_iff_mnemonic (i : Instr) :
    i.allowedWhenReady = true ↔ i.mnemonic = "CMD" ∨ i.mnemonic = "DATA" ∨ i.mnemonic = "PRINT" ∨
      i.mnemonic = "CLEAR" ∨ i.mnemonic = "DELAY" ∨ i.mnemonic = "IDLE" := by
  cases i <;> simp [Instr.allowedWhenReady, Instr.mnemonic]

/-- R315 about the words before the first IDLE, with an INIT_BUS or an LCDINIT already passed or not. -/
structure Admits (busDone lcdDone : Bool) (ds : List Decoded) : Prop where
  oneBus : ds.count (.command .initBus) + busDone.toNat ≤ 1
  oneLcd : ds.count (.command .lcdInit) + lcdDone.toNat ≤ 1
  ready : lcdDone = true → ∀ x ∈ ds, x.AllowedWhenReady
  afterLcd : ds.Pairwise fun y x => y = .command .lcdInit → x.AllowedWhenReady

theorem admits_iff {busDone lcdDone : Bool} {ds : List Decoded} :
    Admits busDone lcdDone ds ↔
      ds.count (.command .initBus) + busDone.toNat ≤ 1 ∧ ds.count (.command .lcdInit) + lcdDone.toNat ≤ 1 ∧
        (lcdDone = true → ∀ x ∈ ds, x.AllowedWhenReady) ∧
        ds.Pairwise fun y x => y = .command .lcdInit → x.AllowedWhenReady :=
  ⟨fun ⟨hbus, hlcd, hready, hafter⟩ => ⟨hbus, hlcd, hready, hafter⟩,
    fun ⟨hbus, hlcd, hready, hafter⟩ => ⟨hbus, hlcd, hready, hafter⟩⟩

theorem admits_nil (busDone lcdDone : Bool) : Admits busDone lcdDone [] :=
  ⟨by simpa using busDone.toNat_le, by simpa using lcdDone.toNat_le, fun _ => List.forall_mem_nil _, .nil⟩

theorem admits_illegal_cons {busDone lcdDone : Bool} {why : IllegalWord} {ds : List Decoded} :
    Admits busDone lcdDone (.illegal why :: ds) ↔ Admits busDone lcdDone ds := by
  simp [admits_iff]

/-- A command but IDLE is allowed by what has been passed, and is itself passed for the words after it. -/
theorem admits_command_cons {busDone lcdDone : Bool} {i : Instr} {ds : List Decoded} :
    Admits busDone lcdDone (.command i :: ds) ↔
      (lcdDone = true → i.allowedWhenReady = true) ∧ (i = .initBus → busDone = false) ∧
        Admits (busDone || decide (i = .initBus)) (lcdDone || decide (i = .lcdInit)) ds := by
  by_cases hbus : i = .initBus
  · subst hbus
    cases busDone <;> cases lcdDone <;> simp [admits_iff, Instr.allowedWhenReady]
  · by_cases hlcd : i = .lcdInit
    · subst hlcd
      cases lcdDone <;> simp [admits_iff, Instr.allowedWhenReady]
    · cases lcdDone <;> simp [admits_iff, hbus, hlcd, and_assoc, and_left_comm]

theorem streamWf_command_cons {busDone lcdDone : Bool} {i : Instr} {rest : List (Option Instr)} (hidle : i ≠ .idle) :
    streamWf busDone lcdDone (some i :: rest) = true ↔
      (lcdDone = true → i.allowedWhenReady = true) ∧ (i = .initBus → busDone = false) ∧
        streamWf (busDone || decide (i = .initBus)) (lcdDone || decide (i = .lcdInit)) rest = true := by
  rw [streamWf, if_neg hidle]
  by_cases hbus : i = .initBus
  · subst hbus
    cases lcdDone <;> simp [Instr.allowedWhenReady]
  · by_cases hlcd : i = .lcdInit
    · subst hlcd
      cases lcdDone <;> simp [Instr.allowedWhenReady]
    · cases lcdDone <;> simp [hbus, hlcd]

/-- The word-by-word check says R315 of the words before the first IDLE. -/
theorem streamWf_iff_admits (ds : List Decoded) (busDone lcdDone : Bool) :
    streamWf busDone lcdDone (ds.map Decoded.instr?) = true ↔
      Admits busDone lcdDone (ds.takeWhile (· ≠ .command .idle)) := by
  induction ds generalizing busDone lcdDone with
  | nil => exact iff_of_true rfl (admits_nil busDone lcdDone)
  | cons x ds ih =>
    cases x with
    | illegal why =>
      rw [List.takeWhile_cons_of_pos (by simp), admits_illegal_cons, ← ih]
      rfl
    | command i =>
      by_cases hidle : i = .idle
      · subst hidle
        exact iff_of_true rfl (admits_nil busDone lcdDone)
      · rw [List.takeWhile_cons_of_pos (by simpa using hidle), admits_command_cons, ← ih]
        exact streamWf_command_cons hidle

/-- A relation of the words after an LCDINIT to it, said of every way to split the list at an LCDINIT. -/
theorem pairwise_iff_forall_split {α : Type} {y : α} {P : α → Prop} {ds : List α} :
    ds.Pairwise (fun z x => z = y → P x) ↔ ∀ before after, ds = before ++ y :: after → ∀ x ∈ after, P x := by
  constructor
  · rintro h before after rfl x hx
    exact (List.pairwise_cons.1 (List.pairwise_append.1 h).2.1).1 x hx rfl
  · intro h
    induction ds with
    | nil => exact .nil
    | cons z ds ih =>
      refine .cons (fun x hx hz => h [] ds (hz ▸ rfl) x hx) (ih fun before after hds => ?_)
      exact h (z :: before) after (hds ▸ rfl)

namespace Machine

/-- Settles O55: with nothing passed yet the check's invariant is R315's own items. -/
theorem streamAdmission : Obligations.StreamAdmission := by
  intro cs ds
  have hchecked : streamOk cs = true ↔ Admits false false ds := by
    rw [← streamWf_iff_admits, List.map_map]
    rfl
  simp only [hchecked, admits_iff, pairwise_iff_forall_split, ← Instr.allowedWhenReady_iff_mnemonic]
  simp [Decoded.AllowedWhenReady]

end Machine
end Sys2Proof
end

section
/-! LCDINIT, CLEAR, PRINT and IDLE (45_display R310 to R313): their expansions as queues of sends. -/

namespace Sys2Proof.Machine

/-- The low nybble of an expander byte, with enable and register select given (R270). -/
theorem pack_eq_append_low (d : BitVec 4) (en rs : BitVec 1) : pack d en rs = d ++ (1#1 ++ en ++ 0#1 ++ rs) := by
  rw [pack_eq_append]
  calc d ++ 1#1 ++ en ++ 0#1 ++ rs
    _ = d ++ (1#1 ++ en) ++ 0#1 ++ rs := congrArg (· ++ 0#1 ++ rs) BitVec.append_assoc
    _ = d ++ (1#1 ++ en ++ 0#1) ++ rs := congrArg (· ++ rs) BitVec.append_assoc
    _ = d ++ (1#1 ++ en ++ 0#1 ++ rs) := BitVec.append_assoc

theorem sendOps_delay (c : Config) (a : BitVec 7) (n : Nat) : sendOps c a [.delay n] = delayOps c n :=
  List.append_nil _

/-- The sends of LCDINIT up to the 4-bit nybble (R310). -/
def wakeSends : List Send :=
  let resetSends := nybSends (highNyb nybReset) 0 ++ [.delay tResetGap]
  [.delay tPowerOn] ++ resetSends ++ resetSends ++ resetSends

theorem sendOps_wakeSends (c : Config) : sendOps c slaveAddr wakeSends = wakeOps c := by
  simp only [wakeSends, sendOps_append, sendOps_delay, sendOps_nybSends, wakeOps, resetNybOps]

/-- The sends of LCDINIT (R310). -/
def lcdinitSends (c : Config) : List Send :=
  wakeSends ++ nybSends (highNyb nyb4Bit) 0 ++
    (byteSends cmdFunctionSet 0 ++ byteSends (cmdDisplayControl c) 0 ++ byteSends cmdEntryMode 0)

theorem sendOps_lcdinitSends (c : Config) : sendOps c slaveAddr (lcdinitSends c) = lcdinitOps c := by
  simp only [lcdinitSends, sendOps_append, sendOps_nybSends, sendOps_byteSends, sendOps_wakeSends, lcdinitOps,
    configureOps, cmdOps]

/-- The sends of CLEAR (R311). -/
def clearSends : List Send := byteSends cmdClear 0 ++ [.delay tClear]

theorem sendOps_clearSends (c : Config) : sendOps c slaveAddr clearSends = clearOps c := by
  simp only [clearSends, sendOps_append, sendOps_byteSends, sendOps_delay, clearOps, cmdOps]

/-- The display-control command: its cursor and blink bits stand last in the low nybble (R5). -/
theorem byteSends_displayControl (c : Config) (r : BitVec 1) :
    byteSends (cmdDisplayControl c) r = nybSends 0 r ++ nybSends (0b11#2 ++ c.cursor ++ c.blink) r := by
  have hnybbles : ∀ cursor blink : BitVec 1,
      let b : Byte := 0x0C ||| (cursor.setWidth 8 <<< 1) ||| blink.setWidth 8
      highNyb b = 0 ∧ lowNyb b = 0b11#2 ++ cursor ++ blink := by decide
  obtain ⟨hhigh, hlow⟩ := hnybbles c.cursor c.blink
  rw [byteSends, cmdDisplayControl, hhigh, hlow]

/-- Settles O11: LCDINIT and CLEAR are queues of sends, whose bytes are `pack`'s written out. -/
theorem displayCommandsStart : Obligations.DisplayCommandsStart := by
  unfold Obligations.DisplayCommandsStart
  intro nybble
  have hnybble (d : BitVec 4) : nybble d = nybSends d 0 := by
    rw [nybSends, pack_eq_append_low, pack_eq_append_low]
    rfl
  refine ⟨fun s => ?lcdInit, fun s => ?clear, fun _ _ => rfl, fun _ => rfl⟩
  case lcdInit =>
    have hsends := sendOps_lcdinitSends s.cfg
    rw [lcdinitSends, byteSends_displayControl] at hsends
    simp only [hnybble]
    exact congrArg (fun ops => Host.Outcome.next (s.startCommand ops)) hsends.symm
  case clear =>
    simp only [hnybble]
    exact congrArg (fun ops => Host.Outcome.next (s.startCommand ops)) (sendOps_clearSends s.cfg).symm

end Sys2Proof.Machine
end

section
/-! PRINT (45_display R312, 40_microops R140): the characters of a string are sent one after another, up to the
first 0x00, under any schedule. -/

namespace Sys2Proof.Machine

/-! ### The sends of a string -/

/-- The sends of one printed character (R312). -/
def charSends (b : Byte) : List Send := byteSends b 1 ++ [.delay tChar]

theorem sendOps_charSends (c : Config) (b : Byte) : sendOps c slaveAddr (charSends b) = charOps c b := by
  rw [charSends, sendOps_append, sendOps_byteSends, sendOps_delay, charOps, dataOps]

/-- The sends of the first `j` characters of the string at `p`. -/
def stringSends (str : Memory) (p j : Nat) : List Send := (List.range j).flatMap fun i => charSends (str.read (p + i))

theorem stringSends_succ (str : Memory) (p j : Nat) :
    stringSends str p (j + 1) = stringSends str p j ++ charSends (str.read (p + j)) := by
  simp [stringSends, List.range_succ]

/-- The four bytes of a character's DATA, high nybble first (R270, R273). -/
theorem sendBytes_charSends (b : Byte) :
    sendBytes (charSends b) =
      [highNyb b ++ 0xD#4, highNyb b ++ 0x9#4, lowNyb b ++ 0xD#4, lowNyb b ++ 0x9#4] := by
  have hbytes : sendBytes (charSends b) =
      [pack (highNyb b) 1 1, pack (highNyb b) 0 1, pack (lowNyb b) 1 1, pack (lowNyb b) 0 1] := rfl
  rw [hbytes, pack_eq_append_low, pack_eq_append_low, pack_eq_append_low, pack_eq_append_low]
  rfl

theorem sendBytes_stringSends (str : Memory) (p j : Nat) :
    sendBytes (stringSends str p j) = (List.range j).flatMap fun i => sendBytes (charSends (str.read (p + i))) :=
  List.filterMap_flatMap ..

/-! ### The place in a queue of sends -/

section
variable {a : BitVec 7} {tail : List MicroOp} {X : List Event} {N : Nat} {s t : State}

/-- The queue ends with what stands after the sends; with nothing else in it the sends are done. -/
theorem Sending.queue (h : Sending a tail X N s) :
    ∃ ops, s.mq = ops ++ tail ∧ (ops = [] → TxLink a 0 .rest s ∧ s.busTotal a 0 .rest = X) := by
  cases h with
  | byte b l k hk hat =>
    refine ⟨(i2cwOps s.cfg a b).drop k ++ sendOps s.cfg a l,
      hat.queue.trans (List.append_assoc ..).symm, fun hnil => ?_⟩
    have hops : (i2cwOps s.cfg a b).length = 12 := rfl
    have hdone := List.drop_eq_nil_iff.1 (List.append_eq_nil_iff.1 hnil).1
    omega
  | delay ops l hat hdelay =>
    have hqueue : s.mq = ops ++ (sendOps s.cfg a l ++ tail) := hat.queue
    exact ⟨ops ++ sendOps s.cfg a l, hqueue.trans (List.append_assoc ..).symm, fun hnil =>
      absurd (List.append_eq_nil_iff.1 hnil).1 hdelay.ne_nil⟩
  | done hat hbus => exact ⟨[], hat.queue, fun _ => ⟨hat.link, hbus⟩⟩

/-- Between transactions, a turn of the sequencer that leaves the peripheral alone may queue sends. -/
theorem sending_of_queued {l : List Send} (hlink : TxLink a 0 .rest s) (hperipheral : t.peripheral = s.peripheral)
    (hcfg : t.cfg = s.cfg) (hbus : busTrace t.hist = busTrace s.hist) (hq : t.mq = sendOps t.cfg a l ++ tail) :
    Sending a tail (s.busTotal a 0 .rest ++ sendEvents a l) 0 t := by
  have hi2cp : t.i2cp = s.i2cp := congrArg (·.2.1) hperipheral
  refine .of_rest l ⟨hq, hlink.congr hperipheral hcfg, nofun, nofun⟩ ?_ fun _ => Nat.zero_le _
  rw [State.busTotal, State.busTotal, hi2cp, hbus]

end

/-! ### A run of the string -/

/-- The string at `p` has `k` characters, and its 0x00 lies in string memory (R140). -/
structure StringAt (c : Config) (str : Memory) (p k : Nat) : Prop where
  fits : p + k < c.strmemSize
  chars : ∀ j < k, str.read (p + j) ≠ 0
  ends : str.read (p + k) = 0

/-- What stands after the sends of the first `j` of the string's `k` characters: the fetch of the next one, or
nothing after the last. -/
inductive PrintLeft (p k : Nat) : Nat → List MicroOp → Prop
  | more (j : Nat) (hj : j ≤ k) : PrintLeft p k j [.strch (p + j)]
  | ended : PrintLeft p k k []

/-- A run is in the sends of the characters fetched so far, from the bus trace `B` on. -/
def SendsString (str : Memory) (p k : Nat) (B : List Event) (s : State) : Prop :=
  ∃ j tail, PrintLeft p k j tail ∧ Sending slaveAddr tail (B ++ sendEvents slaveAddr (stringSends str p j)) 0 s

/-- A run of PRINT `p` at `cp`, from the bus trace `B` on. -/
structure Printing (str : Memory) (p k cp : Nat) (B : List Event) (s : State) : Prop where
  running : s.status = .running
  cp_eq : s.cp = cp
  str_eq : s.str = str
  reload_le : reload s.cfg ≤ 0xFFFFFF
  string : StringAt s.cfg str p k
  sending : SendsString str p k B s

section
variable {str : Memory} {p k cp : Nat} {B : List Event} {s t : State}

/-- The fetch of a character queues its sends, and the fetch of the 0x00 nothing. -/
theorem strch_sends {j : Nat} (hstring : StringAt s.cfg s.str p k) (hj : j ≤ k) (hhead : AtHead s (.strch (p + j)) [])
    (hlink : TxLink slaveAddr 0 .rest s)
    (hbus : s.busTotal slaveAddr 0 .rest = B ++ sendEvents slaveAddr (stringSends s.str p j))
    (hstep : step s = .next t) :
    t.status = .running ∧ SendsString s.str p k B t := by
  obtain ⟨hfits, hchars, hends⟩ := hstring
  obtain ⟨-, hend, hchar⟩ := strchFetchesTheCharacter s (p + j) [] hhead
  have htrace : busTrace t.hist = busTrace s.hist := step_busTrace (by simp [hhead.2.1]) hstep
  obtain hmore | rfl := Nat.lt_or_eq_of_le hj
  · cases (hchar (by omega) (hchars j hmore)).symm.trans hstep
    refine ⟨hhead.1, j + 1, _, .more (j + 1) hmore, ?_⟩
    rw [stringSends_succ, sendEvents_append, ← List.append_assoc, ← hbus]
    refine sending_of_queued hlink rfl rfl htrace ?_
    rw [sendOps_charSends]
    exact List.append_nil _
  · cases (hend hfits hends).symm.trans hstep
    refine ⟨hhead.1, j, [], .ended, ?_⟩
    rw [← hbus, ← List.append_nil (s.busTotal ..)]
    exact sending_of_queued (l := []) hlink rfl rfl htrace rfl

/-- A step of PRINT goes on with the string or leaves the command. -/
theorem Printing.step (h : Printing str p k cp B s) (hstep : step s = .next t) :
    Printing str p k cp B t ∨ PastCommand cp t := by
  obtain ⟨hrun, rfl, rfl, hreload, hstring, j, tail, hleft, hsending⟩ := h
  obtain ⟨-, hstr, hcfg⟩ := launchDataNeverChanges s t hstep
  by_cases hfetch : AtFetch s
  · exact .inr (pastCommand_of_fetch hfetch hstep)
  · have hcp := step_cp_of_not_atFetch hfetch hstep
    have goesOn (hrun : t.status = .running) (hat : SendsString s.str p k B t) : Printing s.str p k s.cp B t :=
      ⟨hrun, hcp, hstr, hcfg ▸ hreload, hcfg ▸ hstring, hat⟩
    obtain ⟨hsending, hrun⟩ | ⟨f, hf, -⟩ | ⟨hseq, hat⟩ := hsending.step hreload hrun hstep
    · exact .inl (goesOn hrun ⟨j, tail, hleft, hsending⟩)
    · exact .inr (.inl (by rw [hf]; nofun))
    · have hq : s.mq = tail := hat.queue
      cases hleft with
      | ended => exact absurd ⟨hrun, hseq, hq⟩ hfetch
      | more j hj =>
        obtain ⟨ops, hops, hdone⟩ := hsending.queue
        obtain ⟨hlink, hbus⟩ := hdone (List.self_eq_append_left.1 (hq.symm.trans hops))
        obtain ⟨hrun, hat⟩ := strch_sends hstring hj ⟨hrun, hseq, hq⟩ hlink hbus hstep
        exact .inl (goesOn hrun hat)

/-- With the queue run empty the whole string is sent. -/
theorem Printing.of_nil (h : Printing str p k cp B s) (hq : s.mq = []) :
    TxLink slaveAddr 0 .rest s ∧
      s.busTotal slaveAddr 0 .rest = B ++ sendEvents slaveAddr (stringSends str p k) := by
  obtain ⟨-, -, -, -, -, j, tail, hleft, hsending⟩ := h
  obtain ⟨ops, hops, hdone⟩ := hsending.queue
  obtain ⟨rfl, rfl⟩ := List.append_eq_nil_iff.1 (hops.symm.trans hq)
  cases hleft
  exact hdone rfl

/-- PRINT on a bus at rest starts before the string's first character. -/
theorem printing_of_busAtRest (hrun : s.status = .running) (hreload : reload s.cfg ≤ 0xFFFFFF)
    (hstring : StringAt s.cfg s.str p k) (hq : s.mq = [.strch p]) (hrest : busAtRest s = true) :
    Printing s.str p k s.cp (busTrace s.hist) s := by
  refine ⟨hrun, rfl, rfl, hreload, hstring, 0, _, .more 0 (Nat.zero_le k), ?_⟩
  rw [← busTotal_of_busAtRest (a := slaveAddr) (b := 0) hrest]
  exact sending_of_queued (l := []) (txLink_of_busAtRest slaveAddr 0 hrest) rfl rfl rfl hq

end

/-- Settles O48: the place in the string is kept until the queue has run empty. -/
theorem printSendsItsString : Obligations.PrintSendsItsString := by
  intro s t p k n hreload hrun hq hrest hfits hchars hends hsteps hempty hcp hrunning dataBytes
  have hstart := printing_of_busAtRest hrun hreload ⟨hfits, hchars, hends⟩ hq hrest
  have hend : Printing s.str p k s.cp (busTrace s.hist) t ∨ PastCommand s.cp t :=
    run_keeps (P := fun u => Printing s.str p k s.cp (busTrace s.hist) u ∨ PastCommand s.cp u)
      (fun _ _ hu hstep => hu.elim (·.step hstep) fun hpast => .inr (hpast.step hstep)) n s t (.inl hstart) hsteps
  obtain hprinting | hstopped | hlater | hhalt := hend
  · obtain ⟨hlink, hbus⟩ := hprinting.of_nil hempty
    obtain ⟨pending, htotal, hpending⟩ := hlink.pending
    refine ⟨pending, ?_, hpending.imp And.right fun ⟨_, _, hstop⟩ => hstop⟩
    rw [← htotal, hbus, sendEvents, sendBytes_stringSends]
    simp only [sendBytes_charSends]
    rfl
  · exact absurd hrunning hstopped
  · omega
  · cases hempty.symm.trans hhalt

end Sys2Proof.Machine
end

section
/-! Fault entry (60_exceptions R352): the only step into a fault is the sequencer's, and it leaves `CP` at the
command that faulted. -/

namespace Sys2Proof.Machine

section
variable {s t : State} {f : BlockFault}

/-- Only a running block enters a fault: an idle one stays idle, and a faulted one takes no step. -/
theorem step_running_of_faults (h : step s = .next t) (hf : t.status = .faulted f) : s.status = .running := by
  obtain ⟨-, hidleStays, hfaultedStops, -, -⟩ := statusIsLeftOnlyByHaltOrFault
  cases hs : s.status with
  | running => rfl
  | idle => cases (hidleStays s t h hs).symm.trans hf
  | faulted g => exact absurd h (hfaultedStops s g hs t)

/-- A step that enters a fault keeps `CP`: only a fetch that starts a command advances it (10_state R23), and
that fetch does not fault. -/
theorem step_cp_of_faults (h : step s = .next t) (hf : t.status = .faulted f) : t.cp = s.cp := by
  by_cases hat : AtFetch s
  · rw [step_of_atFetch hat] at h
    obtain ⟨hrun, -, -⟩ := hat
    obtain ⟨-, rfl⟩ | ⟨w, why, -, -, rfl⟩ | ⟨w, i, ops, -, -, rfl⟩ := fetchStep_effect h
    case inl => cases hrun.symm.trans hf
    case inr.inl => rfl
    case inr.inr => cases hrun.symm.trans hf
  · exact step_cp_of_not_atFetch hat h

end

/-- Settles O28: a fault's event is no bus event, so `raise` leaves the observer too, and only a running
block steps into a fault, by a `raise` that keeps `CP`. -/
theorem faultEntryIsPreciseAndTerminal : Obligations.FaultEntryIsPreciseAndTerminal := by
  refine ⟨fun s f => ?entry, fun r v s f hraises => ?noWrite, fun s f hf => ?terminal, fun s t f h hf => ?step⟩
  case entry => rfl
  case noWrite => exact memWrite_of_raises hraises
  case terminal => exact step_faulted hf
  case step =>
    obtain ⟨-, -, -, -, hfaultedByRaise⟩ := statusIsLeftOnlyByHaltOrFault
    obtain ⟨-, hempty, hevent⟩ := hfaultedByRaise s t f h (step_running_of_faults h hf) hf
    exact ⟨hempty, hevent, step_cp_of_faults h hf⟩

end Sys2Proof.Machine
end

section
/-! The state a reset of the block puts in place (70_reset R380, R381; 10_state R58). -/

namespace Sys2Proof.Machine

theorem sr1View_reset : sr1View I2cFlags.reset = 0 := by decide

theorem sr2View_reset : sr2View I2cFlags.reset = 0 := by decide

/-- A counter with its four control fields 0 reads `CTRL` = 0, whatever it is loaded with. -/
theorem ctrlView_of_clear (load val : BitVec 24) (calib : Word) :
    ctrlView ⟨false, false, false, false, load, val, calib⟩ = 0 := by
  change flagBit false 0 ||| flagBit false 1 ||| flagBit false 2 ||| flagBit false 16 = 0
  decide

/-- `AHB1ENR`'s reset value has bit 20 set, and every GPIO bank's clock bit lies below it. -/
theorem powerOn_gpioClocked (c : Config) (d : ResetDraws) : gpioClocked (State.powerOn c d) = false := by
  change (0x0010_0000#32).getLsbD (portIndex c.gpioPort) = false
  cases c.gpioPort <;> decide

theorem powerOn_i2cClocked (c : Config) (d : ResetDraws) : i2cClocked (State.powerOn c d) = false :=
  BitVec.getLsbD_zero

/-- Settles O56: each field is in `State.afterReset`, and the clock bits are in the reset values of RCC. -/
theorem resetState : Obligations.ResetState := by
  intro c d
  exact ⟨rfl, rfl, rfl, rfl, rfl, rfl, rfl, rfl, rfl, rfl, rfl, sr1View_reset, sr2View_reset, rfl, rfl, rfl,
    ctrlView_of_clear .., rfl, rfl, rfl, rfl, rfl, powerOn_gpioClocked c d, powerOn_i2cClocked c d,
    rfl, rfl, rfl, rfl, rfl, rfl, rfl, rfl, rfl⟩

/-- Settles O57: the launch data, the observer and the environment are the arguments `blockReset` hands on. -/
theorem blockResetKeepsLaunchDataAndObserver : Obligations.BlockResetKeepsLaunchDataAndObserver := by
  intro s d
  exact ⟨blockReset_cs s d, blockReset_str s d, blockReset_cfg s d, blockReset_obs s d, rfl⟩

end Sys2Proof.Machine
end

section
/-! Runs of a stream with no INIT_BUS (70_reset R383): no other command writes `RCC.APB1ENR`, so the I2C clocks
stay off and the peripheral has no turn. -/

namespace Sys2Proof.Machine

/-! ### Writes to `RCC.APB1ENR` -/

/-- The micro-operation does not store to `RCC.APB1ENR`. -/
def MicroOp.SparesClocks (c : Config) : MicroOp → Prop
  | .wr a _ | .stor a _ | .standn a _ | .stfld a _ _ => a ≠ regAddr c .rccApb1enr
  | .rd _ | .ldt _ | .poll _ _ | .tickwait _ | .strch _ | .halt => True

/-- No micro-operation of a queue stores to `RCC.APB1ENR`. -/
def SpareClocks (c : Config) (ops : List MicroOp) : Prop := ∀ op ∈ ops, op.SparesClocks c

section
variable {c : Config} {a : BitVec 7}

theorem regAddr_ne_apb1enr {r : Reg} (hr : r ≠ .rccApb1enr) : regAddr c r ≠ regAddr c .rccApb1enr := by
  intro h
  have hfound := regAt_regAddr c r
  rw [h, regAt_regAddr] at hfound
  exact hr (Option.some.inj hfound).symm

@[simp] theorem spareClocks_nil : SpareClocks c [] := List.forall_mem_nil _

@[simp] theorem spareClocks_cons (op : MicroOp) (ops : List MicroOp) :
    SpareClocks c (op :: ops) ↔ op.SparesClocks c ∧ SpareClocks c ops := List.forall_mem_cons

@[simp] theorem spareClocks_append (xs ys : List MicroOp) :
    SpareClocks c (xs ++ ys) ↔ SpareClocks c xs ∧ SpareClocks c ys := List.forall_mem_append

theorem delayOps_spareClocks (n : Nat) : SpareClocks c (delayOps c n) := by
  unfold delayOps
  split <;> split <;> simp [MicroOp.SparesClocks, regAddr_ne_apb1enr]

theorem i2cwOps_spareClocks (b : Byte) : SpareClocks c (i2cwOps c a b) := by
  simp [i2cwOps, opSet, MicroOp.SparesClocks, regAddr_ne_apb1enr]

theorem sendOps_spareClocks (l : List Send) : SpareClocks c (sendOps c a l) := by
  induction l with
  | nil => exact spareClocks_nil
  | cons x l ih =>
    cases x with
    | byte b => exact (spareClocks_append _ _).2 ⟨i2cwOps_spareClocks b, ih⟩
    | delay n => exact (spareClocks_append _ _).2 ⟨delayOps_spareClocks n, ih⟩

theorem IsSends.spareClocks {ops : List MicroOp} (h : IsSends c a ops) : SpareClocks c ops := by
  obtain ⟨l, rfl⟩ := h
  exact sendOps_spareClocks l

theorem StringTail.spareClocks {tail : List MicroOp} (h : StringTail tail) : SpareClocks c tail := by
  obtain rfl | ⟨p, rfl⟩ := h <;> simp [MicroOp.SparesClocks]

end

/-- Every command but INIT_BUS leaves the clocks alone. -/
theorem exec_spareClocks {i : Instr} (hinit : i ≠ .initBus) (s : State) :
    ∃ ops, exec i s = .next (s.startCommand ops) ∧ SpareClocks s.cfg ops := by
  by_cases hidle : i = .idle
  · subst hidle
    exact ⟨[.halt], rfl, by simp [MicroOp.SparesClocks]⟩
  · obtain ⟨a, l, tail, htail, hexec⟩ := exec_sends hinit hidle s
    exact ⟨_, hexec, (spareClocks_append _ _).2 ⟨sendOps_spareClocks l, htail.spareClocks⟩⟩

/-- Only a write to `RCC.APB1ENR` changes it: one to `RCC.APB1RSTR` or `RCC.AHB1ENR` stores there. -/
theorem writeReg_apb1enr {r : Reg} {v : Word} {s t : State} (hr : r ≠ .rccApb1enr) (h : writeReg r v s = .done t) :
    t.rcc.apb1enr = s.rcc.apb1enr := by
  by_cases hrcc : r ∈ [Reg.rccApb1rstr, .rccAhb1enr, .rccApb1enr]
  · simp only [List.mem_cons, List.not_mem_nil, or_false] at hrcc
    obtain rfl | rfl | rfl := hrcc
    · obtain ⟨-, -, rfl⟩ | ⟨-, rfl⟩ := writeApb1rstr_done h <;> rfl
    · cases h; rfl
    · exact absurd rfl hr
  · rw [(writeReg_frame h).rcc hrcc]

/-! ### The invariant of a run -/

/-- The I2C clocks are off, and neither the queue nor the stream holds anything that turns them on. -/
structure ClocksOff (s : State) : Prop where
  noInitBus : ∀ w ∈ s.cs, decode w ≠ .command .initBus
  queue : SpareClocks s.cfg s.mq
  clocks : s.rcc.apb1enr = 0

namespace ClocksOff

section
variable {s t : State} (hs : ClocksOff s)
include hs

/-- A change of the queue to another that leaves the clocks alone, and of fields the invariant does not speak of. -/
theorem requeue (hcfg : t.cfg = s.cfg) (hcs : t.cs = s.cs) (hclocks : t.rcc.apb1enr = s.rcc.apb1enr)
    (hmq : SpareClocks s.cfg t.mq) : ClocksOff t :=
  ⟨hcs ▸ hs.noInitBus, hcfg ▸ hmq, hclocks.trans hs.clocks⟩

theorem tail : SpareClocks s.cfg s.mq.tail := fun op hop => hs.queue op (List.mem_of_mem_tail hop)

theorem raise (f : BlockFault) : ClocksOff (s.raise f) := hs.requeue rfl rfl rfl spareClocks_nil

/-- A read, whatever it leaves of the queue and puts in `TMP`. -/
theorem read (r : Reg) (a : Word) {mq : List MicroOp} (tmp : Word) (hmq : SpareClocks s.cfg mq) :
    ClocksOff { readTo s r a with mq := mq, tmp := tmp } :=
  hs.requeue (readEffect_cfg r s) (readEffect_cs r s) (congrArg Rcc.apb1enr (readEffect_rcc r s)) hmq

/-- A store elsewhere than to `RCC.APB1ENR`, done or faulted. -/
theorem stores {a v : Word} (ha : a ≠ regAddr s.cfg .rccApb1enr) (h : Stores a v s t) : ClocksOff t := by
  obtain ⟨r, u, hreg, hwrite, rfl⟩ | ⟨r, f, -, -, rfl⟩ := h
  · have hr : r ≠ .rccApb1enr := by
      rintro rfl
      exact ha (regAddr_of_regAt hreg).symm
    have hclocks := writeReg_apb1enr hr hwrite
    rw [writeReg_eq hwrite]
    exact hs.requeue rfl rfl hclocks hs.tail
  · exact hs.requeue rfl rfl rfl spareClocks_nil

theorem runOp {op : MicroOp} (hop : op.SparesClocks s.cfg) (h : runOp op s = .next t) : ClocksOff t := by
  have kept (r : Reg) (a : Word) : SpareClocks s.cfg (readTo s r a).mq := by simpa [readTo] using hs.queue
  have popped (r : Reg) (a : Word) : SpareClocks s.cfg (readTo s r a).pop.mq := by simpa [readTo] using hs.tail
  cases op with
  | rd a =>
    obtain ⟨r, -, rfl⟩ := runRd_cases h
    exact hs.read r a _ (popped r a)
  | ldt a =>
    obtain ⟨r, -, rfl⟩ := runLdt_cases h
    exact hs.read r a _ (popped r a)
  | poll a m =>
    obtain ⟨r, -, rfl⟩ := runPoll_cases h
    split
    · exact hs.read r a _ (popped r a)
    · exact hs.read r a _ (kept r a)
  | wr a v => exact hs.stores hop (runWr_cases h)
  | stor a m => exact hs.stores hop (runStor_cases h)
  | standn a m => exact hs.stores hop (runStandn_cases h)
  | stfld a m v => exact hs.stores hop (runStfld_cases h)
  | tickwait k =>
    rw [Machine.runOp, runTickwait_eq] at h
    cases h
    split
    · split
      · exact hs.read .stkCtrl _ _ (popped .stkCtrl _)
      · exact hs.read .stkCtrl _ _ ((spareClocks_cons _ _).2 ⟨trivial, hs.tail⟩)
    · exact hs.read .stkCtrl _ _ (kept .stkCtrl (regAddr s.cfg .stkCtrl))
  | strch p =>
    by_cases hin : p < s.cfg.strmemSize
    · by_cases hend : s.str.read p = 0
      · cases (runStrch_of_end hin hend).symm.trans h
        exact hs.requeue rfl rfl rfl hs.tail
      · cases (runStrch_of_char hin hend).symm.trans h
        have hchar : IsSends s.cfg slaveAddr (charOps s.cfg (s.str.read p)) :=
          (isSends_byteOps _ 1).append (isSends_delayOps _)
        exact hs.requeue rfl rfl rfl (by simp [hchar.spareClocks, hs.tail, MicroOp.SparesClocks])
    · cases (runStrch_of_overrun (Nat.le_of_not_lt hin)).symm.trans h
      exact hs.raise _
  | halt => cases h; exact hs.requeue rfl rfl rfl hs.queue

theorem runQueue (hq : s.mq ≠ []) (h : runQueue s = .next t) : ClocksOff t := by
  obtain ⟨op, rest, hq⟩ := List.exists_cons_of_ne_nil hq
  have hqueue := hs.queue
  rw [hq, spareClocks_cons] at hqueue
  obtain hop | ⟨-, a, st, tl, u, rfl, rfl, -, hldt, hst⟩ := runQueue_cases hq h
  · exact hs.runOp hqueue.1 hop
  · obtain ⟨hload, hrest⟩ := hqueue
    have hstore : st.SparesClocks s.cfg := hrest st (List.mem_cons_self ..)
    have hcfg : u.cfg = s.cfg := by rw [(runOp_effect (op := .ldt a) hldt).eq]
    exact (hs.runOp (op := .ldt a) hload hldt).runOp (hcfg ▸ hstore) hst

theorem fetchStep (h : fetchStep s = .next t) : ClocksOff t := by
  obtain ⟨-, rfl⟩ | ⟨w, why, -, -, rfl⟩ | ⟨w, i, hw, hi, hexec⟩ := fetchStep_cases h
  · exact hs.requeue rfl rfl rfl (by simp [MicroOp.SparesClocks])
  · exact hs.raise _
  · have hinit : i ≠ .initBus := by
      rintro rfl
      exact hs.noInitBus w (List.mem_of_getElem? hw) hi
    obtain ⟨ops, hops, hspare⟩ := exec_spareClocks hinit s
    cases hops.symm.trans hexec
    exact hs.requeue rfl rfl rfl hspare

/-- With the clocks off the peripheral is not `accessible`: its turn changes nothing (43_i2c R222). -/
theorem i2cpStep : i2cpStep s = s := by
  have hunclocked : i2cClocked s = false := by rw [i2cClocked, hs.clocks]; exact BitVec.getLsbD_zero
  exact i2cpStep_inaccessible (by rw [accessible, hunclocked]; rfl)

theorem takeTurn : ClocksOff s.takeTurn := hs.requeue rfl rfl rfl hs.queue

theorem step (h : step s = .next t) : ClocksOff t := by
  obtain ⟨-, -, -, hfetch⟩ | ⟨-, -, hq, hrun⟩ | ⟨-, -, rfl⟩ | ⟨-, -, rfl⟩ | ⟨-, -, rfl⟩ := step_cases h
  · exact hs.takeTurn.fetchStep hfetch
  · exact hs.takeTurn.runQueue hq hrun
  · exact hs.takeTurn
  · rw [hs.takeTurn.i2cpStep]
    exact hs.takeTurn
  · rw [stkStep_eq]
    exact hs.requeue rfl rfl rfl hs.queue

/-- No step reaches the bus: only a turn of the peripheral could. -/
theorem step_silent (h : Machine.step s = .next t) : busTrace t.hist = busTrace s.hist ∧ t.obs = s.obs := by
  by_cases hi2cp : nextAgent s = .i2cp
  · rw [step_eq_of_i2cp hi2cp h, hs.takeTurn.i2cpStep]
    exact ⟨rfl, rfl⟩
  · exact ⟨step_busTrace hi2cp h, step_obs hi2cp h⟩

end

theorem run_silent {n : Nat} {s t : State} (hs : ClocksOff s) (h : run n s = .next t) :
    ClocksOff t ∧ busTrace t.hist = busTrace s.hist ∧ t.obs = s.obs := by
  refine run_keeps (P := fun u => ClocksOff u ∧ busTrace u.hist = busTrace s.hist ∧ u.obs = s.obs) ?_ n s t
    ⟨hs, rfl, rfl⟩ h
  rintro u v ⟨hu, hbus, hobs⟩ hstep
  obtain ⟨hbus', hobs'⟩ := hu.step_silent hstep
  exact ⟨hu.step hstep, hbus'.trans hbus, hobs'.trans hobs⟩

end ClocksOff

/-- A launch starts with the clocks off, an empty queue and an empty history. -/
theorem clocksOff_of_launch {c : Config} {d : ResetDraws} {cs : List Word} {str : Memory} {s : State}
    (h : launch c d cs str = .next s) (hnoinit : ∀ w ∈ cs, decode w ≠ .command .initBus) (e : Env) :
    ClocksOff { s with env := e } ∧ s.hist = [] := by
  unfold launch at h
  split at h
  · cases h
  · split at h <;> cases h
    exact ⟨⟨hnoinit, spareClocks_nil, rfl⟩, rfl⟩

/-- Settles O53: a launch starts with the clocks off and an empty history, and a stream with no INIT_BUS keeps
them so. -/
theorem noBusTrafficWithoutInitBus : Obligations.NoBusTrafficWithoutInitBus := by
  intro c d cs str e s t n hlaunch hnoinit hrun
  obtain ⟨hstart, hhist⟩ := clocksOff_of_launch hlaunch hnoinit e
  obtain ⟨hend, hbus, hobs⟩ := hstart.run_silent hrun
  refine ⟨?_, hend.clocks, hobs⟩
  rw [hbus, hhist]
  rfl

end Sys2Proof.Machine
end
